-- ==== Sys2Proof/Word.lean ====
section
/-! DEFINITION. The word types of the engine and the small types of its command word and its host port. -/

namespace Sys2Proof

/-- A byte of the window or of a byte string (00_scope.md R16). -/
abbrev Byte := BitVec 8

/-- A 32-bit control-register word or command word (00_scope.md R17, 30_encoding.md R120). -/
abbrev Word := BitVec 32

/-- The 64-byte slot of a big-number register (10_state.md R40). The value uses its low NBITS bits.
[DEDUCED, safe: log 18] -/
abbrev Big := BitVec 512

/-- KSEL, the key select of ENCODE and DECODE (30_encoding.md R123). -/
inductive KSel
  /-- 0, `.x`: the explicit pair (E, M). -/
  | x
  /-- 1, `.priv`: the own private key (KD, KN). -/
  | priv
  /-- 2, `.pub`: the own public key (KE, KN). -/
  | pub
  /-- 3, `.peer`: the peer's public key (PE, PN). -/
  | peer
deriving DecidableEq, Repr

/-- The three widths of a host access (00_scope.md R19). -/
inductive Width
  | w1
  | w2
  | w4
deriving DecidableEq, Repr

/-- The number of bytes of a width. -/
def Width.bytes : Width → Nat
  | .w1 => 1
  | .w2 => 2
  | .w4 => 4

/-- What reaches the engine from outside: a host read or write at a physical address
(20_memory.md R81, R82) or the reset input (70_reset_and_hazards.md R400). -/
inductive Event
  | read (addr : Nat) (n : Width)
  | write (addr : Nat) (n : Width) (v : Word)
  | reset
deriving DecidableEq, Repr

end Sys2Proof
end

