-- ==== Sys2Proof/Syntax.lean ====
section
/-! DEFINITION. The commands of the engine, one constructor per row of spec/opcode_table.json. -/

namespace Sys2Proof

/-- The 12 commands of engine command set 1.0 (30_encoding.md R122). Only ENCODE and DECODE have an operand field. -/
inductive Instr
  /-- POWMOD, 40_modular.md R151. -/
  | powmod
  /-- INVERT, 40_modular.md R155. -/
  | invert
  /-- KEYGEN, 40_modular.md R163. -/
  | keygen
  /-- KEYSET, 40_modular.md R170. -/
  | keyset
  /-- ENCODE with its key select, 41_bitcodec.md R210. -/
  | encode (ksel : KSel)
  /-- DECODE with its key select, 41_bitcodec.md R220. -/
  | decode (ksel : KSel)
  /-- TDERIVE, 42_substitution.md R256. -/
  | tderive
  /-- SUBENC, 42_substitution.md R260. -/
  | subenc
  /-- SUBDEC, 42_substitution.md R262. -/
  | subdec
  /-- ECBENC, 43_block_cipher.md R295. -/
  | ecbenc
  /-- ECBDEC, 43_block_cipher.md R297. -/
  | ecbdec
  /-- XFER, 44_transfer.md R330. -/
  | xfer
deriving DecidableEq, Repr

end Sys2Proof
end

