-- ==== Sys2Proof/Config.lean ====
section
/-! DEFINITION. What an implementation fixes (00_scope.md R10) and the free values (00_scope.md R21). -/

namespace Sys2Proof

/-- The password hash PW_HASH (42_substitution.md R250): MD5, the default, or any other function, by its number. -/
inductive PwHash
  | md5
  | other (id : Nat)
deriving DecidableEq, Repr

/-- The block cipher BLOCK_ENC, BLOCK_DEC (43_block_cipher.md R290): DES, the default, or any other pair, by its number. -/
inductive BlockCipher
  | des
  | other (id : Nat)
deriving DecidableEq, Repr

/-- The implementation parameters of 00_scope.md R10. LATENCY and ENTROPY are draws (`Config.draw`). -/
structure Params where
  /-- NBITS, the width of the big-number registers. -/
  nbits : Nat
  /-- BUF_BYTES, the size of IN and of OUT. -/
  bufBytes : Nat
  /-- TABLE_ROUNDS, the sort rounds of TDERIVE. -/
  tableRounds : Nat
  /-- BASE, the physical address of the window. -/
  base : Nat
  /-- PW_HASH. -/
  pwHash : PwHash
  /-- BLOCK_ENC and BLOCK_DEC. -/
  cipher : BlockCipher
deriving DecidableEq, Repr

/-- The k-th draw: a free input under no law (00_scope.md R21). A byte read as UNSPEC, an index of KEYGEN and a
latency are each made from a draw of their own. [DESIGN CHOICE, safe: log 5] -/
opaque Config.draw : Nat → Nat

/-- The platform's choice of BASE, in units of 64 KiB (00_scope.md R10: OPEN). [DESIGN CHOICE, safe: log 2] -/
opaque Config.baseIndex : Nat

/-- The first 16 digest bytes of the password hashes other than the default (42_substitution.md R250).
[DESIGN CHOICE, safe: log 3] -/
opaque Config.otherHash : Nat → List Byte → Vector Byte 16

/-- The block ciphers other than the default: for each key a permutation of the 64-bit blocks, which is what the
inverse law of 43_block_cipher.md R290 asks of a pair. [DESIGN CHOICE, safe: log 4] -/
opaque Config.otherCipher : Nat → BitVec 64 → Equiv.Perm (BitVec 64)

/-- The size of the window in bytes (20_memory.md R80). -/
def windowBytes : Nat := 0x10000

/-- R10's defaults; BASE has none and stays free. -/
def Params.default : Params where
  nbits := 256
  bufBytes := 4096
  tableRounds := 1024
  base := windowBytes * Config.baseIndex
  pwHash := .md5
  cipher := .des

end Sys2Proof
end

