-- ==== Sys2Proof/WellFormed.lean ====
section
/-! DEFINITION. The checks on commands, on implementation parameters and on host accesses. -/

namespace Sys2Proof

/-- Every command is well-formed: KSEL's four values are all legal for ENCODE and DECODE and no other command has a
field (30_encoding.md R122), and the type says so. -/
def Instr.wellFormed : Instr → Bool
  | .powmod => true
  | .invert => true
  | .keygen => true
  | .keyset => true
  | .encode _ => true
  | .decode _ => true
  | .tderive => true
  | .subenc => true
  | .subdec => true
  | .ecbenc => true
  | .ecbdec => true
  | .xfer => true

/-- NBITS is a multiple of 32 with 64 ≤ NBITS ≤ 512 (00_scope.md R10). -/
def Params.nbitsOk (p : Params) : Bool :=
  p.nbits % 32 == 0 && decide (64 ≤ p.nbits) && decide (p.nbits ≤ 512)

/-- BUF_BYTES is a multiple of 4 with 1024 ≤ BUF_BYTES ≤ 16384 (00_scope.md R10). -/
def Params.bufOk (p : Params) : Bool :=
  p.bufBytes % 4 == 0 && decide (1024 ≤ p.bufBytes) && decide (p.bufBytes ≤ 16384)

/-- The legal parameter values of 00_scope.md R10: TABLE_ROUNDS is at least 1 and BASE is 64 KiB-aligned. -/
def Params.wellFormed (p : Params) : Bool :=
  p.nbitsOk && p.bufOk && decide (1 ≤ p.tableRounds) && p.base % windowBytes == 0

/-- The address lies in the window of an engine with these parameters (20_memory.md R80). -/
def Params.inWindow (p : Params) (addr : Nat) : Bool :=
  decide (p.base ≤ addr) && decide (addr < p.base + windowBytes)

/-- A host access is well-formed when its address is in the window and a written value fits its width
(20_memory.md R81, R82). The reset input always is. -/
def Event.wellFormed (p : Params) : Event → Bool
  | .read addr _ => p.inWindow addr
  | .write addr n v => p.inWindow addr && decide (v.toNat < 256 ^ n.bytes)
  | .reset => true

end Sys2Proof
end

