-- ==== Sys2Proof/Decode.lean ====
section
/-! DEFINITION. Decoding and encoding the command word CMD32 (30_encoding.md R120 to R126). -/

namespace Sys2Proof

/-- Why a command word is illegal (30_encoding.md R126), or why bytes are no command word (R121). -/
inductive DecodeReject
  /-- RSV = w[31:10] is not 0. -/
  | reservedBits
  /-- OPC = w[7:0] is not one of 0x01 to 0x0C. -/
  | unknownOpcode
  /-- KSEL = w[9:8] is not 0 on a command other than ENCODE and DECODE. -/
  | keySelect
  /-- The bytes are not the four bytes of one command word. -/
  | length
deriving DecidableEq, Repr

/-- OPC = w[7:0] (30_encoding.md R120). -/
def opcOf (w : Word) : BitVec 8 := w.extractLsb' 0 8

/-- KSEL = w[9:8] (30_encoding.md R120). -/
def kselOf (w : Word) : BitVec 2 := w.extractLsb' 8 2

/-- RSV = w[31:10] (30_encoding.md R120). -/
def rsvOf (w : Word) : BitVec 22 := w.extractLsb' 10 22

/-- The four values of KSEL (30_encoding.md R123). -/
def kselDecode (k : BitVec 2) : KSel :=
  match k.toNat with
  | 0 => .x
  | 1 => .priv
  | 2 => .pub
  | _ => .peer

/-- The command of an OPC that needs KSEL = 0 (30_encoding.md R122). -/
def plainOpcode (opc : BitVec 8) : Option Instr :=
  match opc.toNat with
  | 0x01 => some .powmod
  | 0x02 => some .invert
  | 0x03 => some .keygen
  | 0x04 => some .keyset
  | 0x07 => some .tderive
  | 0x08 => some .subenc
  | 0x09 => some .subdec
  | 0x0A => some .ecbenc
  | 0x0B => some .ecbdec
  | 0x0C => some .xfer
  | _ => none

/-- The command a 32-bit word stands for, or why it is illegal: total on every word (30_encoding.md R125). -/
def decodeWord (w : Word) : Except DecodeReject Instr :=
  if rsvOf w ≠ 0 then .error .reservedBits
  else if opcOf w = 0x05 then .ok (.encode (kselDecode (kselOf w)))
  else if opcOf w = 0x06 then .ok (.decode (kselDecode (kselOf w)))
  else
    match plainOpcode (opcOf w) with
    | none => .error .unknownOpcode
    | some i => if kselOf w = 0 then .ok i else .error .keySelect

/-- The 32-bit word whose bytes, lowest offset first, are these (20_memory.md R83). -/
def wordOfBytes (b0 b1 b2 b3 : Byte) : Word := b3 ++ b2 ++ b1 ++ b0

/-- The four bytes of a word, the least significant at the lowest offset (20_memory.md R83). -/
def bytesOfWord (w : Word) : List Byte :=
  [w.extractLsb' 0 8, w.extractLsb' 8 8, w.extractLsb' 16 8, w.extractLsb' 24 8]

/-- Decoding of bytes as the window stores them: total, and one command word is exactly four bytes
(30_encoding.md R121). -/
def decodeBytes : List Byte → Except DecodeReject Instr
  | [b0, b1, b2, b3] => decodeWord (wordOfBytes b0 b1 b2 b3)
  | _ => .error .length

/-- The instruction the decoder reads from the bits `w` of a row of the opcode table. A command is one 32-bit word
(30_encoding.md R121). -/
def decodeTableWord (nbits w : Nat) : Option Instr :=
  match decodeBytes (bytesOfWord (BitVec.ofNat 32 (w % 2 ^ nbits))) with
  | .ok i => some i
  | .error _ => none

/-- The KSEL field of a key select (30_encoding.md R123). -/
def kselEncode : KSel → BitVec 2
  | .x => 0
  | .priv => 1
  | .pub => 2
  | .peer => 3

/-- OPC of a command (30_encoding.md R122). -/
def opcEncode : Instr → BitVec 8
  | .powmod => 0x01
  | .invert => 0x02
  | .keygen => 0x03
  | .keyset => 0x04
  | .encode _ => 0x05
  | .decode _ => 0x06
  | .tderive => 0x07
  | .subenc => 0x08
  | .subdec => 0x09
  | .ecbenc => 0x0A
  | .ecbdec => 0x0B
  | .xfer => 0x0C

/-- KSEL of a command: 0 for all but ENCODE and DECODE (30_encoding.md R122). -/
def kselFieldEncode : Instr → BitVec 2
  | .encode k => kselEncode k
  | .decode k => kselEncode k
  | .powmod | .invert | .keygen | .keyset | .tderive | .subenc | .subdec | .ecbenc | .ecbdec | .xfer => 0

/-- The command word of a command (30_encoding.md R120, R128): RSV = 0, KSEL, OPC. -/
def encode (i : Instr) : Word := (0 : BitVec 22) ++ kselFieldEncode i ++ opcEncode i

end Sys2Proof
end

