-- ==== Sys2Proof/Machine/Bits.lean ====
section
/-! DEFINITION. Byte order and bit strings (20_memory.md R83, R84; 00_scope.md R15, R16). -/

namespace Sys2Proof.Machine

/-- Byte `i` of a word, byte 0 the least significant (20_memory.md R83). -/
def byteOfWord (w : Word) (i : Nat) : Byte := (w >>> (8 * i)).setWidth 8

/-- The low `n` bytes of a word, the least significant first (20_memory.md R82, R83). -/
def leBytes (n : Nat) (w : Word) : List Byte := (List.range n).map (byteOfWord w)

/-- The number whose bytes, the least significant first, are these (20_memory.md R81). -/
def leValue : List Byte → Nat
  | [] => 0
  | b :: bs => b.toNat + 256 * leValue bs

/-- The number whose bytes, the most significant first, are these (43_block_cipher.md R291). -/
def beValue (bs : List Byte) : Nat := bs.foldl (fun acc b => 256 * acc + b.toNat) 0

/-- The `n` bytes of a number, the most significant first (43_block_cipher.md R291). -/
def beBytes (n v : Nat) : List Byte :=
  (List.range n).map fun i => BitVec.ofNat 8 (v >>> (8 * (n - 1 - i)))

/-- `bin_w(v)`: the w-bit rendering of `v`, the most significant bit first (00_scope.md R15). -/
def binW (w v : Nat) : List Bool := (List.range w).map fun i => v.testBit (w - 1 - i)

/-- `val(s)`: the number whose rendering, the most significant bit first, is `s` (00_scope.md R15). -/
def bitsVal (s : List Bool) : Nat := s.foldl (fun acc b => 2 * acc + b.toNat) 0

/-- `bytes_to_bits(m)` (00_scope.md R16). -/
def bytesToBits (m : List Byte) : List Bool := m.flatMap fun b => binW 8 b.toNat

/-- The `c` consecutive pieces of length `k` of a list. -/
def pieces {α : Type} (k c : Nat) (s : List α) : List (List α) :=
  (List.range c).map fun j => (s.drop (j * k)).take k

/-- `bits_to_bytes(s)`, for a whole number of bytes (00_scope.md R16). -/
def bitsToBytes (s : List Bool) : List Byte :=
  (pieces 8 (s.length / 8) s).map fun p => BitVec.ofNat 8 (bitsVal p)

/-- `bitlen(v)` (00_scope.md R13). -/
def bitlen (v : Nat) : Nat := if v = 0 then 0 else Nat.log2 v + 1

/-- The character of a bit in a buffer: 0x30 or 0x31 (20_memory.md R101). -/
def bitChar (b : Bool) : Byte := if b then 0x31 else 0x30

/-- The bit a character stands for, if it is a bit character (20_memory.md R101). -/
def charBit (c : Byte) : Option Bool :=
  if c = 0x30 then some false else if c = 0x31 then some true else none

end Sys2Proof.Machine
end

