-- ==== Sys2Proof/Machine/State.lean ====
section
/-! DEFINITION. The state of the engine (10_state.md), its state after reset, and the reasons a step can stop. -/

namespace Sys2Proof.Machine

/-- The error codes of 60_exceptions.md R341. The reserved codes 0x10 to 0xFF cannot be written down. -/
inductive ErrCode
  | none
  | illegalCmd
  | length
  | noKey
  | noTable
  | domain
  | config
  | notInvertible
  | keygen
  | noPrimes
  | emptyInput
  | decUnderflow
  | decFormat
  | decOverflow
  | blockLen
  | padError
deriving DecidableEq, Repr

/-- The stored fields of STATUS (10_state.md R35). BUSY is `State.phase`; the reserved bits read 0 and store nothing
(log 16, log 17). -/
structure Status where
  done : Bool
  err : Bool
  tableValid : Bool
  keyValid : Bool
  qinvNone : Bool
  cmdOvr : Bool
  accErr : Bool
  busyWr : Bool
  errcode : ErrCode
deriving DecidableEq, Repr

/-- The engine phase (10_state.md R51): IDLE, or BUSY with the accepted command word and the number of steps that
still pass before the completion step (70_reset_and_hazards.md R430). [DESIGN CHOICE, safe: log 6] -/
inductive Phase
  | idle
  | busy (w : Word) (wait : Nat)
deriving DecidableEq, Repr

/-- The defined bytes of the tables and the buffers, by window offset (10_state.md R49, R50). A byte that is not
listed is UNSPEC. -/
abbrev Memory := List Host.Cell

/-- Every piece of state of the engine (10_state.md R30), after the fields that are the model's own. One state is one
engine. [DEDUCED, safe: log 21] -/
structure State where
  /-- The implementation parameters (00_scope.md R10); no step changes them. -/
  params : Params
  /-- CTRL.IRQ_EN (R34). -/
  irqEn : Bool
  /-- STATUS but for BUSY (R35). -/
  status : Status
  /-- The engine phase (R51), which is STATUS.BUSY too. -/
  phase : Phase
  /-- CMD (R39). -/
  cmd : Word
  /-- CHUNK_BITS.K (R36). -/
  chunkBits : BitVec 16
  /-- LEN_IN (R37). -/
  lenIn : BitVec 16
  /-- LEN_OUT (R38). -/
  lenOut : BitVec 16
  /-- PLO (R46). -/
  plo : Word
  /-- PHI (R46). -/
  phi : Word
  /-- SKEY_LO (R47). -/
  skeyLo : Word
  /-- SKEY_HI (R47). -/
  skeyHi : Word
  /-- A (R41). -/
  a : Big
  /-- E (R41). -/
  e : Big
  /-- M (R41). -/
  m : Big
  /-- R (R42). -/
  r : Big
  /-- KP (R43). -/
  kp : Big
  /-- KQ (R43). -/
  kq : Big
  /-- KE (R43). -/
  ke : Big
  /-- KN (R43). -/
  kn : Big
  /-- KD (R43). -/
  kd : Big
  /-- KDP (R43). -/
  kdp : Big
  /-- KDQ (R43). -/
  kdq : Big
  /-- KQINV (R43). -/
  kqinv : Big
  /-- PE (R45). -/
  pe : Big
  /-- PN (R45). -/
  pn : Big
  /-- FWD, INV (R49), IN and OUT (R50). -/
  mem : Memory
  /-- The model's own: how many draws were taken, the entropy source's among them (R52). -/
  draws : Nat
  /-- The model's own: the accesses waiting at the port, oldest first (20_memory.md R97). -/
  inputs : List Event
  /-- The model's own: what the host's reads were answered, newest first (20_memory.md R81). -/
  replies : List Word
deriving DecidableEq, Repr

/-- STATUS after reset (70_reset_and_hazards.md R401). -/
def Status.reset : Status where
  done := false
  err := false
  tableValid := false
  keyValid := false
  qinvNone := false
  cmdOvr := false
  accErr := false
  busyWr := false
  errcode := .none

/-- The machine right after reset (70_reset_and_hazards.md R400, R401), with 00_scope.md R10's default parameters and
nothing waiting at the port. -/
def State.reset : State where
  params := Params.default
  irqEn := false
  status := Status.reset
  phase := .idle
  cmd := 0
  chunkBits := 0
  lenIn := 0
  lenOut := 0
  plo := 0
  phi := 0
  skeyLo := 0
  skeyHi := 0
  a := 0
  e := 0
  m := 0
  r := 0
  kp := 0
  kq := 0
  ke := 0
  kn := 0
  kd := 0
  kdp := 0
  kdq := 0
  kqinv := 0
  pe := 0
  pn := 0
  mem := []
  draws := 0
  inputs := []
  replies := []

/-- Why a step stops with a fault. The engine itself never faults (20_memory.md R88, 60_exceptions.md R340). -/
inductive Fault
  /-- Raised by a host access whose address is outside the window [BASE, BASE + 64 KiB): no such address exists in the
  engine's address space (20_memory.md R80). Safe: the machine stops where the hardware goes on. -/
  | outsideWindow
deriving DecidableEq, Repr

/-- Why a step is refused. -/
inductive Refusal
  /-- Raised by an arm of `exec` whose instruction has no meaning in the model. Safe. No arm raises it. -/
  | notModelled (mnemonic : String)
deriving DecidableEq, Repr

/-- What a step, a meaning and a host access answer. -/
abbrev Result := Host.Outcome State Fault Refusal

end Sys2Proof.Machine
end

