-- ==== Sys2Proof/Machine/Ops.lean ====
section
/-! DEFINITION. The named operations over memory and registers: reading and writing bytes, draws, acceptance,
completion and error completion (60_exceptions.md R350 to R352), and reset (70_reset_and_hazards.md R400). -/

namespace Sys2Proof.Machine

/-! ## Places in the window (10_state.md R56) -/

/-- The offset of FWD. -/
def fwdBase : Nat := 0x800

/-- The offset of INV. -/
def invBase : Nat := 0x900

/-- The offset of IN. -/
def inBase : Nat := 0x4000

/-- The offset of OUT. -/
def outBase : Nat := 0x8000

/-! ## Memory -/

/-- The byte at an offset, or none where it is UNSPEC (20_memory.md R89). This is the one definition of what an
unlisted offset reads as. [DESIGN CHOICE, safe: log 11] -/
def Memory.read? (m : Memory) (o : Nat) : Option Byte := List.lookup o m

/-- `n` bytes from an offset up. -/
def Memory.readMany (m : Memory) (o n : Nat) : List (Option Byte) :=
  (List.range n).map fun j => m.read? (o + j)

/-- The cells of consecutive bytes. -/
def Memory.cells (o : Nat) : List Byte → Memory
  | [] => []
  | b :: bs => (o, b) :: Memory.cells (o + 1) bs

/-- The `n` bytes from an offset up become UNSPEC. -/
def Memory.clear (m : Memory) (o n : Nat) : Memory :=
  m.filter (fun c => decide (c.1 < o)) ++ m.filter (fun c => decide (o + n ≤ c.1))

/-- Writing consecutive bytes from an offset up. -/
def Memory.writeMany (m : Memory) (o : Nat) (bs : List Byte) : Memory :=
  m.filter (fun c => decide (c.1 < o)) ++ Memory.cells o bs ++ m.filter (fun c => decide (o + bs.length ≤ c.1))

/-- The canonical form: offsets strictly rise. An unlisted offset holds no value, so no entry repeats it. -/
def Memory.wf : Memory → Bool
  | [] => true
  | [_] => true
  | c :: d :: rest => decide (c.1 < d.1) && Memory.wf (d :: rest)

/-! ## Draws (00_scope.md R21) -/

/-- The byte of a draw. -/
def drawByte (k : Nat) : Byte := BitVec.ofNat 8 (Config.draw k)

/-- Bytes as they are read: a defined byte as it is, each UNSPEC byte from a draw of its own, from draw `k` on. -/
def settle (k : Nat) : List (Option Byte) → List Byte
  | [] => []
  | some b :: rest => b :: settle k rest
  | none :: rest => drawByte k :: settle (k + 1) rest

/-- How many draws `settle` takes. -/
def undefinedCount (cells : List (Option Byte)) : Nat := cells.countP (fun c => c.isNone)

/-! ## Register updates -/

/-- `n` draws were taken. -/
def State.drawn (s : State) (n : Nat) : State := { s with draws := s.draws + n }

/-- The result register R. -/
def State.withR (s : State) (v : Big) : State := { s with r := v }

/-- The three registers a key is made from. -/
def State.withPrimes (s : State) (p q e : Big) : State := { s with kp := p, kq := q, ke := e }

/-- The derived key registers, and the flags of a successful construction (40_modular.md R160). -/
def State.withDerived (s : State) (n d dp dq qinv : Big) (noQinv : Bool) : State :=
  { s with
    kn := n, kd := d, kdp := dp, kdq := dq, kqinv := qinv
    status := { s.status with keyValid := true, qinvNone := noQinv } }

/-- The output of a buffer command: OUT from index 0 and LEN_OUT (10_state.md R38, R50). -/
def State.withOut (s : State) (bs : List Byte) : State :=
  { s with mem := s.mem.writeMany outBase bs, lenOut := BitVec.ofNat 16 bs.length }

/-- XFER's output: IN from index 0 and LEN_IN (44_transfer.md R330). -/
def State.withIn (s : State) (bs : List Byte) (n : BitVec 16) : State :=
  { s with mem := s.mem.writeMany inBase bs, lenIn := n }

/-- TDERIVE's output: FWD, INV and TABLE_VALID (42_substitution.md R256). -/
def State.withTables (s : State) (fwd inv : List Byte) : State :=
  { s with
    mem := (s.mem.writeMany fwdBase fwd).writeMany invBase inv
    status := { s.status with tableValid := true } }

/-! ## Acceptance, completion, error completion -/

/-- The status bits of acceptance: DONE, ERR and ERRCODE are cleared (60_exceptions.md R351). -/
def Status.accepted (st : Status) : Status := { st with done := false, err := false, errcode := .none }

/-- Acceptance of a command word, which completes after `wait` more steps (60_exceptions.md R351). -/
def State.accept (s : State) (w : Word) (wait : Nat) : State :=
  { s with cmd := w, phase := .busy w wait, status := s.status.accepted }

/-- `complete_ok`: successful completion (00_scope.md R20, 60_exceptions.md R352). -/
def completeOk (s : State) : State :=
  { s with phase := .idle, status := { s.status with done := true, err := false, errcode := .none } }

/-- KEYGEN and KEYSET, whose failed construction clears the key flags (40_modular.md R162). -/
def isKeyCommand : Option Instr → Bool
  | some .keygen | some .keyset => true
  | some .powmod | some .invert | some (.encode _) | some (.decode _) | some .tderive | some .subenc
  | some .subdec | some .ecbenc | some .ecbdec | some .xfer => false
  | none => false

/-- The codes of a failed construction (60_exceptions.md R350). -/
def isConstructCode : ErrCode → Bool
  | .config | .keygen => true
  | .none | .illegalCmd | .length | .noKey | .noTable | .domain | .notInvertible | .noPrimes | .emptyInput
  | .decUnderflow | .decFormat | .decOverflow | .blockLen | .padError => false

/-- `raise ERR(code)` in the command `i` (none for an illegal word): error completion (60_exceptions.md R350).
ERR and ERRCODE report the code, LEN_OUT is 0, OUT is UNSPEC, and a failed construction clears the key flags.
[DEDUCED, unsafe where KEYGEN fails with NO_PRIMES: log 14] -/
def raiseError (i : Option Instr) (code : ErrCode) (s : State) : State :=
  let clears := isKeyCommand i && isConstructCode code
  { s with
    phase := .idle
    lenOut := 0
    mem := s.mem.clear outBase s.params.bufBytes
    status := { s.status with
      done := true
      err := true
      errcode := code
      keyValid := s.status.keyValid && !clears
      qinvNone := s.status.qinvNone && !clears } }

/-! ## Reset -/

/-- The hardware reset, in any phase (70_reset_and_hazards.md R400); the soft reset has exactly its effect (R402).
The parameters stay, and so do the model's own fields: no draw is given twice, and the port keeps what waits there.
[DESIGN CHOICE, safe: log 19] -/
def State.hardwareReset (s : State) : State :=
  { State.reset with params := s.params, draws := s.draws, inputs := s.inputs, replies := s.replies }

end Sys2Proof.Machine
end

