-- ==== Sys2Proof/Machine/Flags.lean ====
section
/-! DEFINITION. STATUS as a word, its write-1-to-clear bits, the error codes' numbers and the interrupt line. -/

namespace Sys2Proof.Machine

/-- The number of an error code (60_exceptions.md R341). -/
def ErrCode.number : ErrCode → BitVec 8
  | .none => 0x00
  | .illegalCmd => 0x01
  | .length => 0x02
  | .noKey => 0x03
  | .noTable => 0x04
  | .domain => 0x05
  | .config => 0x06
  | .notInvertible => 0x07
  | .keygen => 0x08
  | .noPrimes => 0x09
  | .emptyInput => 0x0A
  | .decUnderflow => 0x0B
  | .decFormat => 0x0C
  | .decOverflow => 0x0D
  | .blockLen => 0x0E
  | .padError => 0x0F

/-- BUSY = 1 (10_state.md R51). -/
def Phase.isBusy : Phase → Bool
  | .idle => false
  | .busy _ _ => true

/-- STATUS.BUSY (10_state.md R35). -/
def State.isBusy (s : State) : Bool := s.phase.isBusy

/-- A one-bit field at its place in a 32-bit word. -/
def flagAt (b : Bool) (i : Nat) : Word := if b then BitVec.ofNat 32 (2 ^ i) else 0

/-- STATUS as the host reads it (10_state.md R35). Bits 15:9 and 31:24 are reserved and read 0. -/
def statusWord (s : State) : Word :=
  flagAt s.isBusy 0 ||| flagAt s.status.done 1 ||| flagAt s.status.err 2 |||
  flagAt s.status.tableValid 3 ||| flagAt s.status.keyValid 4 ||| flagAt s.status.qinvNone 5 |||
  flagAt s.status.cmdOvr 6 ||| flagAt s.status.accErr 7 ||| flagAt s.status.busyWr 8 |||
  (s.status.errcode.number.setWidth 32 <<< 16)

/-- A host write to STATUS: each W1C bit written as 1 is cleared, every other bit stays (10_state.md R35). -/
def writeStatus (v : Word) (s : State) : State :=
  { s with status := { s.status with
      done := s.status.done && !v.getLsbD 1
      cmdOvr := s.status.cmdOvr && !v.getLsbD 6
      accErr := s.status.accErr && !v.getLsbD 7
      busyWr := s.status.busyWr && !v.getLsbD 8 } }

/-- CTRL as the host reads it: SOFT_RESET reads 0 (10_state.md R34). -/
def ctrlWord (s : State) : Word := flagAt s.irqEn 0

/-- A host write to CTRL: SOFT_RESET = 1 resets the engine, IRQ_EN with it; otherwise IRQ_EN is stored
(10_state.md R34, 70_reset_and_hazards.md R402). -/
def writeCtrl (v : Word) (s : State) : State :=
  if v.getLsbD 1 then s.hardwareReset else { s with irqEn := v.getLsbD 0 }

/-- STATUS.ACC_ERR is set (20_memory.md R88). -/
def setAccErr (s : State) : State := { s with status := { s.status with accErr := true } }

/-- STATUS.CMD_OVR is set (60_exceptions.md R354). -/
def setCmdOvr (s : State) : State := { s with status := { s.status with cmdOvr := true } }

/-- STATUS.BUSY_WR is set (20_memory.md R93). -/
def setBusyWr (s : State) : State := { s with status := { s.status with busyWr := true } }

/-- KEY_VALID and QINV_NONE are cleared, as by a host write to KP, KQ or KE (10_state.md R44). -/
def dropKey (s : State) : State :=
  { s with status := { s.status with keyValid := false, qinvNone := false } }

/-- The interrupt output (60_exceptions.md R360): a function of the state (10_state.md R53). -/
def irq (s : State) : Bool := s.irqEn && s.status.done

end Sys2Proof.Machine
end

