-- ==== Sys2Proof/Machine/Bus.lean ====
section
/-! DEFINITION. The host's port: the register map (10_state.md R56), admission (20_memory.md R88) and the host's reads
and writes (20_memory.md R81, R82). -/

namespace Sys2Proof.Machine

/-! ## The register map -/

/-- The control registers (10_state.md R32 to R39, R46 to R48). -/
inductive CtlReg
  | id
  | version
  | ctrl
  | status
  | cmd
  | chunkBits
  | lenIn
  | lenOut
  | plo
  | phi
  | skeyLo
  | skeyHi
  | paramNbits
  | paramBuf
deriving DecidableEq, Repr

/-- The big-number registers (10_state.md R41 to R45). -/
inductive BigReg
  | a
  | e
  | m
  | r
  | kp
  | kq
  | ke
  | kn
  | kd
  | kdp
  | kdq
  | kqinv
  | pe
  | pn
deriving DecidableEq, Repr

/-- A named item of the window: a control register, a word of a big-number slot, a table or a buffer. -/
inductive Item
  | ctl (reg : CtlReg)
  | bigWord (reg : BigReg) (j : Nat)
  | fwd
  | inv
  | inBuf
  | outBuf
deriving DecidableEq, Repr

/-- The control registers, from offset 0x000, one every four bytes (10_state.md R56). -/
def ctlMap : List CtlReg :=
  [.id, .version, .ctrl, .status, .cmd, .chunkBits, .lenIn, .lenOut, .plo, .phi, .skeyLo, .skeyHi,
    .paramNbits, .paramBuf]

/-- The big-number registers, from offset 0x100, one every 64 bytes (10_state.md R56). -/
def bigMap : List BigReg :=
  [.a, .e, .m, .r, .kp, .kq, .ke, .kn, .kd, .kdp, .kdq, .kqinv, .pe, .pn]

/-- The item an offset belongs to, or none for a reserved offset (10_state.md R56). -/
def itemAt (p : Params) (o : Nat) : Option Item :=
  if o < 0x100 then ctlMap[o / 4]?.map .ctl
  else if o < 0x800 then bigMap[(o - 0x100) / 64]?.map fun reg => .bigWord reg ((o - 0x100) % 64 / 4)
  else if o < 0x900 then some .fwd
  else if o < 0xA00 then some .inv
  else if inBase ≤ o ∧ o < inBase + p.bufBytes then some .inBuf
  else if outBase ≤ o ∧ o < outBase + p.bufBytes then some .outBuf
  else none

/-- The item admits 32-bit accesses only (20_memory.md R85). -/
def Item.wordOnly : Item → Bool
  | .ctl _ | .bigWord _ _ => true
  | .fwd | .inv | .inBuf | .outBuf => false

/-- A big-number register whose words the host may write (10_state.md R56). -/
def BigReg.writable : BigReg → Bool
  | .a | .e | .m | .kp | .kq | .ke | .pe | .pn => true
  | .r | .kn | .kd | .kdp | .kdq | .kqinv => false

/-- The item is writable by the host (20_memory.md R88). A write to a reserved word of any slot, from NBITS/32 up, is one
that the window ignores without a flag (10_state.md R40, 20_memory.md R88), so it counts as admitted, and as such it sets
BUSY_WR while a command runs. [DEDUCED, unsafe for the reserved words of a read-only slot while BUSY = 1: log 22] -/
def Item.writable (p : Params) : Item → Bool
  | .ctl .id | .ctl .version | .ctl .lenOut | .ctl .paramNbits | .ctl .paramBuf => false
  | .ctl .ctrl | .ctl .status | .ctl .cmd | .ctl .chunkBits | .ctl .lenIn | .ctl .plo | .ctl .phi
  | .ctl .skeyLo | .ctl .skeyHi => true
  | .bigWord reg j => reg.writable || decide (p.nbits / 32 ≤ j)
  | .inBuf => true
  | .fwd | .inv | .outBuf => false

/-- The item an access of `n` bytes at an offset is admitted to: a width the item allows, natural alignment, all bytes
in the one item, and a write only to a writable item (20_memory.md R85, R86, R88). -/
def admitted (p : Params) (o n : Nat) (isWrite : Bool) : Option Item :=
  match itemAt p o with
  | none => none
  | some item =>
    if (!item.wordOnly || n == 4) && o % n == 0 && itemAt p (o + n - 1) == some item
        && (!isWrite || item.writable p) then some item
    else none

/-- ID, VERSION, CTRL, STATUS, CMD, PARAM_NBITS and PARAM_BUF are readable while BUSY = 1 (20_memory.md R94). -/
def Item.busyReadable : Item → Bool
  | .ctl .id | .ctl .version | .ctl .ctrl | .ctl .status | .ctl .cmd | .ctl .paramNbits | .ctl .paramBuf => true
  | .ctl .chunkBits | .ctl .lenIn | .ctl .lenOut | .ctl .plo | .ctl .phi | .ctl .skeyLo | .ctl .skeyHi => false
  | .bigWord _ _ | .fwd | .inv | .inBuf | .outBuf => false

/-! ## Register contents -/

/-- ID (10_state.md R32). -/
def idWord : Word := 0x4D455845

/-- VERSION: engine command set 1.0 (10_state.md R33). -/
def versionWord : Word := 0x00010000

/-- The word a control register reads as (10_state.md R32 to R39, R46 to R48). -/
def ctlWord (s : State) : CtlReg → Word
  | .id => idWord
  | .version => versionWord
  | .ctrl => ctrlWord s
  | .status => statusWord s
  | .cmd => s.cmd
  | .chunkBits => s.chunkBits.setWidth 32
  | .lenIn => s.lenIn.setWidth 32
  | .lenOut => s.lenOut.setWidth 32
  | .plo => s.plo
  | .phi => s.phi
  | .skeyLo => s.skeyLo
  | .skeyHi => s.skeyHi
  | .paramNbits => BitVec.ofNat 32 s.params.nbits
  | .paramBuf => BitVec.ofNat 32 s.params.bufBytes

/-- A big-number register (10_state.md R41 to R45). -/
def State.bigReg (s : State) : BigReg → Big
  | .a => s.a
  | .e => s.e
  | .m => s.m
  | .r => s.r
  | .kp => s.kp
  | .kq => s.kq
  | .ke => s.ke
  | .kn => s.kn
  | .kd => s.kd
  | .kdp => s.kdp
  | .kdq => s.kdq
  | .kqinv => s.kqinv
  | .pe => s.pe
  | .pn => s.pn

/-- A big-number register gets a value. -/
def State.setBigReg (s : State) (reg : BigReg) (v : Big) : State :=
  match reg with
  | .a => { s with a := v }
  | .e => { s with e := v }
  | .m => { s with m := v }
  | .r => { s with r := v }
  | .kp => { s with kp := v }
  | .kq => { s with kq := v }
  | .ke => { s with ke := v }
  | .kn => { s with kn := v }
  | .kd => { s with kd := v }
  | .kdp => { s with kdp := v }
  | .kdq => { s with kdq := v }
  | .kqinv => { s with kqinv := v }
  | .pe => { s with pe := v }
  | .pn => { s with pn := v }

/-- Word `j` of a slot; the words from NBITS/32 up are reserved and read 0 (10_state.md R40). -/
def slotWord (p : Params) (v : Big) (j : Nat) : Word :=
  if j < p.nbits / 32 then v.extractLsb' (32 * j) 32 else 0

/-- A slot with word `j` written; a write to a reserved word is ignored (10_state.md R40). -/
def setSlotWord (p : Params) (v : Big) (j : Nat) (w : Word) : Big :=
  if j < p.nbits / 32 then
    (v &&& ~~~((0xFFFFFFFF : Big) <<< (32 * j))) ||| (w.setWidth 512 <<< (32 * j))
  else v

/-- KP, KQ and KE, whose writing drops the key (10_state.md R44). -/
def BigReg.isKeySource : BigReg → Bool
  | .kp | .kq | .ke => true
  | .a | .e | .m | .r | .kn | .kd | .kdp | .kdq | .kqinv | .pe | .pn => false

/-- `byte(o)`: the byte at an offset of an item, none where it is UNSPEC (20_memory.md R81, R89). -/
def itemByte (s : State) (item : Item) (o : Nat) : Option Byte :=
  match item with
  | .ctl reg => some (byteOfWord (ctlWord s reg) (o % 4))
  | .bigWord reg j => some (byteOfWord (slotWord s.params (s.bigReg reg) j) (o % 4))
  | .fwd | .inv => if s.status.tableValid then s.mem.read? o else none
  | .inBuf | .outBuf => s.mem.read? o

/-! ## Host accesses -/

/-- OFF(addr) (00_scope.md R19), for an address in the window. -/
def offsetOf (p : Params) (addr : Nat) : Option Nat :=
  if p.inWindow addr then some (addr - p.base) else none

/-- The bytes a host read of `n` bytes sees, none where the byte is UNSPEC (20_memory.md R81, R89, R94). -/
def readCells (s : State) (item : Item) (o n : Nat) : List (Option Byte) :=
  if s.isBusy && !item.busyReadable then List.replicate n none
  else (List.range n).map fun i => itemByte s item (o + i)

/-- The host's read is answered. -/
def State.reply (s : State) (v : Word) : State := { s with replies := v :: s.replies }

/-- `MemRead` at an offset (20_memory.md R81). An UNSPEC byte is a fresh draw (R89, R94). [DESIGN CHOICE, safe: log 11] -/
def hostRead (o : Nat) (n : Width) (s : State) : State :=
  match admitted s.params o n.bytes false with
  | none => (setAccErr s).reply 0
  | some item =>
    let cells := readCells s item o n.bytes
    (s.drawn (undefinedCount cells)).reply (BitVec.ofNat 32 (leValue (settle s.draws cells)))

/-- A command word written to CMD while idle is accepted, and completes after a drawn number of steps
(60_exceptions.md R351, 70_reset_and_hazards.md R430). [DESIGN CHOICE, safe: log 6] -/
def acceptCommand (w : Word) (s : State) : State := (s.drawn 1).accept w (Config.draw s.draws)

/-- A write of a control register other than CTRL, STATUS and CMD stores its used bits (10_state.md R36, R37, R46, R47).
The read-only registers are never written. -/
def storeCtl (reg : CtlReg) (v : Word) (s : State) : State :=
  match reg with
  | .chunkBits => { s with chunkBits := v.setWidth 16 }
  | .lenIn => { s with lenIn := v.setWidth 16 }
  | .plo => { s with plo := v }
  | .phi => { s with phi := v }
  | .skeyLo => { s with skeyLo := v }
  | .skeyHi => { s with skeyHi := v }
  | .id | .version | .ctrl | .status | .cmd | .lenOut | .paramNbits | .paramBuf => s

/-- A host write to word `j` of a big-number slot, with R44's effect on the key flags (10_state.md R40, R44;
20_memory.md R91). [DEDUCED, unsafe for the reserved words of KP, KQ and KE: log 15] -/
def storeBig (reg : BigReg) (j : Nat) (v : Word) (s : State) : State :=
  let t := s.setBigReg reg (setSlotWord s.params (s.bigReg reg) j v)
  if reg.isKeySource then dropKey t else t

/-- An admitted write while idle to an item other than CTRL and STATUS (20_memory.md R82, R91). -/
def storeItem (item : Item) (o n : Nat) (v : Word) (s : State) : State :=
  match item with
  | .ctl .cmd => acceptCommand v s
  | .ctl reg => storeCtl reg v s
  | .bigWord reg j => storeBig reg j v s
  | .inBuf => { s with mem := s.mem.writeMany o (leBytes n v) }
  | .fwd | .inv | .outBuf => s

/-- `MemWrite` at an offset (20_memory.md R82). -/
def hostWrite (o : Nat) (n : Width) (v : Word) (s : State) : State :=
  match admitted s.params o n.bytes true with
  | none => setAccErr s
  | some (.ctl .ctrl) => writeCtrl v s
  | some (.ctl .status) => writeStatus v s
  | some item =>
    if s.isBusy then
      if item = .ctl .cmd then setCmdOvr s else setBusyWr s
    else storeItem item o n.bytes v s

/-- What the engine does on one arrival at its port (20_memory.md R97, 70_reset_and_hazards.md R400). An address outside
the window is no address of the engine's. [DESIGN CHOICE, safe: log 10] -/
def handleEvent (ev : Event) (s : State) : Result :=
  match ev with
  | .read addr n =>
    match offsetOf s.params addr with
    | none => .fault .outsideWindow
    | some o => .next (hostRead o n s)
  | .write addr n v =>
    match offsetOf s.params addr with
    | none => .fault .outsideWindow
    | some o => .next (hostWrite o n v s)
  | .reset => .next s.hardwareReset

end Sys2Proof.Machine
end

