-- ==== Sys2Proof/Machine/Arith.lean ====
section
/-! DEFINITION. The exact arithmetic of the modular unit (00_scope.md R23, 40_modular.md R150). -/

namespace Sys2Proof.Machine

/-- Square-and-multiply over the low `fuel` bits of `e`, starting from `acc`. -/
def powModLoop (m : Nat) : Nat → Nat → Nat → Nat → Nat
  | 0, _, _, acc => acc
  | fuel + 1, b, e, acc =>
    if e = 0 then acc
    else powModLoop m fuel (b * b % m) (e / 2) (if e % 2 = 1 then acc * b % m else acc)

/-- `b^e mod m`, by square-and-multiply (40_modular.md R151). -/
def powMod (b e m : Nat) : Nat := powModLoop m (Nat.log2 e + 1) (b % m) e (1 % m)

/-- The extended Euclidean algorithm: from remainders `r0`, `r1` with coefficients `t0`, `t1` to the last non-zero
remainder and its coefficient. -/
def euclidLoop : Nat → Nat → Nat → Int → Int → Nat × Int
  | 0, r0, _, t0, _ => (r0, t0)
  | fuel + 1, r0, r1, t0, t1 =>
    if r1 = 0 then (r0, t0)
    else euclidLoop fuel r1 (r0 % r1) t1 (t0 - (r0 / r1 : Nat) * t1)

/-- `modinv(a, m)`: the `t` in `[0, m)` with `(a·t) mod m = 1 mod m`, if there is one (00_scope.md R23), by the extended
Euclidean algorithm (40_modular.md R155). -/
def modInv (a m : Nat) : Nat := ((euclidLoop (m + 1) m (a % m) 0 1).2 % (m : Int)).toNat

/-- No number from `d` up, whose square is at most `v`, divides `v`. -/
def noDivisorFrom : Nat → Nat → Nat → Bool
  | 0, _, _ => true
  | fuel + 1, d, v =>
    if v < d * d then true else if v % d = 0 then false else noDivisorFrom fuel (d + 1) v

/-- `isprime(v)` (00_scope.md R23), by trial division. -/
def isPrime (v : Nat) : Bool := decide (2 ≤ v) && noDivisorFrom v 2 v

/-- `primes(lo, hi)`: the ascending list of the primes `p` with `lo ≤ p < hi` (00_scope.md R23). -/
def primes (lo hi : Nat) : List Nat := (List.range' lo (hi - lo)).filter isPrime

/-- φ as construction computes it, prime or not (40_modular.md R158). -/
def phiOf (p q : Nat) : Nat := if p = q then p * p - p else (p - 1) * (q - 1)

end Sys2Proof.Machine
end

