-- ==== Sys2Proof/Machine/Operands.lean ====
section
/-! DEFINITION. The operands of the commands: every operand comes from a fixed register or buffer (30_encoding.md R124),
and the checks all buffer commands share (60_exceptions.md R342). -/

namespace Sys2Proof.Machine

/-- The chunk size `k` = CHUNK_BITS[15:0] (00_scope.md R12). -/
def chunkSize (s : State) : Nat := s.chunkBits.toNat

/-- The bytes of IN the command takes, `IN⟨0..LEN_IN)`, as far as they are defined (20_memory.md R102). -/
def inCells (s : State) : List (Option Byte) := s.mem.readMany inBase s.lenIn.toNat

/-- The input byte string `IN⟨0..LEN_IN)` (20_memory.md R102). An UNSPEC byte is a draw.
[DESIGN CHOICE, safe: log 12] -/
def inBytes (s : State) : List Byte := settle s.draws (inCells s)

/-- The state after the command took its input. -/
def tookInput (s : State) : State := s.drawn (undefinedCount (inCells s))

/-- The common LENGTH check on the input (60_exceptions.md R342). -/
def inputTooLong (s : State) : Bool := decide (s.params.bufBytes < s.lenIn.toNat)

/-- The exponent and the modulus KSEL names (30_encoding.md R123, 41_bitcodec.md R201). -/
def keySelect (k : KSel) (s : State) : Except ErrCode (Nat × Nat) :=
  match k with
  | .x => .ok (s.e.toNat, s.m.toNat)
  | .priv => if s.status.keyValid then .ok (s.kd.toNat, s.kn.toNat) else .error .noKey
  | .pub => if s.status.keyValid then .ok (s.ke.toNat, s.kn.toNat) else .error .noKey
  | .peer => .ok (s.pe.toNat, s.pn.toNat)

/-- The session key K8[0..7] (10_state.md R47), K8[0] the most significant byte (43_block_cipher.md R291, R292). -/
def sessionKey (s : State) : BitVec 64 :=
  BitVec.ofNat 64 (beValue (leBytes 4 s.skeyLo ++ leBytes 4 s.skeyHi))

end Sys2Proof.Machine
end

