-- ==== Sys2Proof/Machine/BitCodec.lean ====
section
/-! DEFINITION. The bit codec: ENCODE, DECODE (41_bitcodec.md). -/

namespace Sys2Proof.Machine

/-- The checks on the modulus and the chunk size, in their order (41_bitcodec.md R203). -/
def codecCheck (md k : Nat) : Option ErrCode :=
  if md = 0 then some .domain
  else if k = 0 ∨ ¬ 2 ^ k < md then some .config
  else none

/-- The padding loop: the sentinel is appended until the length is a multiple of `k` (41_bitcodec.md R204). `k` rounds
are enough. -/
def padLoop (k : Nat) (sentinel : Bool) : Nat → List Bool → List Bool
  | 0, p => p
  | fuel + 1, p => if p.length % k = 0 then p else padLoop k sentinel fuel (p ++ [sentinel])

/-- `pad(B, k)` for a non-empty bit string: a sentinel, the complement of the last bit, repeated up to a chunk boundary
(41_bitcodec.md R204). -/
def padBits (b : List Bool) (k : Nat) : List Bool :=
  let sentinel := !b.getLastD false
  padLoop k sentinel k (b ++ [sentinel])

/-- `strip` on the reversed bit string: the first bit goes while it equals the next, and then once more
(41_bitcodec.md R206). -/
def stripReversed : List Bool → List Bool
  | [] => []
  | [_] => []
  | b :: c :: rest => if b = c then stripReversed (c :: rest) else c :: rest

/-- `strip(P)` (41_bitcodec.md R206). -/
def stripBits (p : List Bool) : List Bool := (stripReversed p.reverse).reverse

/-- The `w`-bit cipher chunk of each `k`-bit chunk of a padded bit string (41_bitcodec.md R210). -/
def encodeChunks (ex md k : Nat) (p : List Bool) : List Bool :=
  (pieces k (p.length / k) p).flatMap fun ch => binW (bitlen md) (powMod (bitsVal ch) ex md)

/-- The values of the `w`-bit chunks of a cipher bit string, each raised to the exponent (41_bitcodec.md R220). -/
def decodeValues (ex md : Nat) (s : List Bool) : List Nat :=
  (pieces (bitlen md) (s.length / bitlen md) s).map fun ch => powMod (bitsVal ch) ex md

/-- ENCODE after the checks on key, modulus and chunk size (41_bitcodec.md R210). -/
def encodeWith (i : Instr) (ex md k : Nat) (s : State) : State :=
  if s.lenIn = 0 then raiseError (some i) .emptyInput s
  else
    let t := tookInput s
    let p := padBits (bytesToBits (inBytes s)) k
    if s.params.bufBytes < p.length / k * bitlen md then raiseError (some i) .length t
    else completeOk (t.withOut ((encodeChunks ex md k p).map bitChar))

/-- DECODE of the bits of the input, after the checks on the input's form (41_bitcodec.md R220). -/
def decodeBits (i : Instr) (ex md k : Nat) (bits : List Bool) (t : State) : State :=
  let ys := decodeValues ex md bits
  if ys.any (fun y => decide (2 ^ k ≤ y)) then raiseError (some i) .decOverflow t
  else
    let rest := stripBits (ys.flatMap (binW k))
    if rest.length = 0 then raiseError (some i) .decUnderflow t
    else if rest.length % 8 ≠ 0 then raiseError (some i) .decFormat t
    else completeOk (t.withOut (bitsToBytes rest))

/-- DECODE after the checks on key, modulus and chunk size (41_bitcodec.md R220, R222, R224). -/
def decodeWith (i : Instr) (ex md k : Nat) (s : State) : State :=
  if s.lenIn = 0 then raiseError (some i) .decUnderflow s
  else
    let t := tookInput s
    match (inBytes s).mapM charBit with
    | none => raiseError (some i) .decFormat t
    | some bits =>
      if s.lenIn.toNat % bitlen md ≠ 0 then raiseError (some i) .decFormat t
      else decodeBits i ex md k bits t

/-- ENCODE (41_bitcodec.md R210 to R212), with the order of checks of 60_exceptions.md R343. -/
def execEncode (ksel : KSel) (s : State) : Result :=
  if inputTooLong s then .next (raiseError (some (.encode ksel)) .length s)
  else
    match keySelect ksel s with
    | .error code => .next (raiseError (some (.encode ksel)) code s)
    | .ok (ex, md) =>
      match codecCheck md (chunkSize s) with
      | some code => .next (raiseError (some (.encode ksel)) code s)
      | none => .next (encodeWith (.encode ksel) ex md (chunkSize s) s)

/-- DECODE (41_bitcodec.md R220 to R224), with the order of checks of 60_exceptions.md R343. -/
def execDecode (ksel : KSel) (s : State) : Result :=
  if inputTooLong s then .next (raiseError (some (.decode ksel)) .length s)
  else
    match keySelect ksel s with
    | .error code => .next (raiseError (some (.decode ksel)) code s)
    | .ok (ex, md) =>
      match codecCheck md (chunkSize s) with
      | some code => .next (raiseError (some (.decode ksel)) code s)
      | none => .next (decodeWith (.decode ksel) ex md (chunkSize s) s)

end Sys2Proof.Machine
end

