-- ==== Sys2Proof/Machine/Cipher.lean ====
section
/-! DEFINITION. The block cipher BLOCK_ENC, BLOCK_DEC (43_block_cipher.md R290, R291) with DES, its default, from
FIPS 46-3. The spec does not give DES's algorithm. [PRESUMED, unsafe for the default: log 4] -/

namespace Sys2Proof.Machine

/-- The initial permutation IP of FIPS 46-3, bits numbered from 1, the most significant first. -/
def desIP : List Nat :=
  [58, 50, 42, 34, 26, 18, 10, 2, 60, 52, 44, 36, 28, 20, 12, 4] ++
  [62, 54, 46, 38, 30, 22, 14, 6, 64, 56, 48, 40, 32, 24, 16, 8] ++
  [57, 49, 41, 33, 25, 17, 9, 1, 59, 51, 43, 35, 27, 19, 11, 3] ++
  [61, 53, 45, 37, 29, 21, 13, 5, 63, 55, 47, 39, 31, 23, 15, 7]

/-- The final permutation, the inverse of IP. -/
def desFP : List Nat :=
  [40, 8, 48, 16, 56, 24, 64, 32, 39, 7, 47, 15, 55, 23, 63, 31] ++
  [38, 6, 46, 14, 54, 22, 62, 30, 37, 5, 45, 13, 53, 21, 61, 29] ++
  [36, 4, 44, 12, 52, 20, 60, 28, 35, 3, 43, 11, 51, 19, 59, 27] ++
  [34, 2, 42, 10, 50, 18, 58, 26, 33, 1, 41, 9, 49, 17, 57, 25]

/-- The expansion E. -/
def desE : List Nat :=
  [32, 1, 2, 3, 4, 5, 4, 5, 6, 7, 8, 9] ++
  [8, 9, 10, 11, 12, 13, 12, 13, 14, 15, 16, 17] ++
  [16, 17, 18, 19, 20, 21, 20, 21, 22, 23, 24, 25] ++
  [24, 25, 26, 27, 28, 29, 28, 29, 30, 31, 32, 1]

/-- The permutation P of the round function. -/
def desP : List Nat :=
  [16, 7, 20, 21, 29, 12, 28, 17, 1, 15, 23, 26, 5, 18, 31, 10] ++
  [2, 8, 24, 14, 32, 27, 3, 9, 19, 13, 30, 6, 22, 11, 4, 25]

/-- The key permutation PC-1, which leaves out the parity bits. -/
def desPC1 : List Nat :=
  [57, 49, 41, 33, 25, 17, 9, 1, 58, 50, 42, 34, 26, 18] ++
  [10, 2, 59, 51, 43, 35, 27, 19, 11, 3, 60, 52, 44, 36] ++
  [63, 55, 47, 39, 31, 23, 15, 7, 62, 54, 46, 38, 30, 22] ++
  [14, 6, 61, 53, 45, 37, 29, 21, 13, 5, 28, 20, 12, 4]

/-- The key permutation PC-2. -/
def desPC2 : List Nat :=
  [14, 17, 11, 24, 1, 5, 3, 28, 15, 6, 21, 10] ++
  [23, 19, 12, 4, 26, 8, 16, 7, 27, 20, 13, 2] ++
  [41, 52, 31, 37, 47, 55, 30, 40, 51, 45, 33, 48] ++
  [44, 49, 39, 56, 34, 53, 46, 42, 50, 36, 29, 32]

/-- The left rotations of the key schedule. -/
def desShifts : List Nat :=
  [1, 1, 2, 2, 2, 2, 2, 2, 1, 2, 2, 2, 2, 2, 2, 1]

/-- The S-box S1, row by row. -/
def desS1 : List Nat :=
  [14, 4, 13, 1, 2, 15, 11, 8, 3, 10, 6, 12, 5, 9, 0, 7] ++
  [0, 15, 7, 4, 14, 2, 13, 1, 10, 6, 12, 11, 9, 5, 3, 8] ++
  [4, 1, 14, 8, 13, 6, 2, 11, 15, 12, 9, 7, 3, 10, 5, 0] ++
  [15, 12, 8, 2, 4, 9, 1, 7, 5, 11, 3, 14, 10, 0, 6, 13]

/-- The S-box S2, row by row. -/
def desS2 : List Nat :=
  [15, 1, 8, 14, 6, 11, 3, 4, 9, 7, 2, 13, 12, 0, 5, 10] ++
  [3, 13, 4, 7, 15, 2, 8, 14, 12, 0, 1, 10, 6, 9, 11, 5] ++
  [0, 14, 7, 11, 10, 4, 13, 1, 5, 8, 12, 6, 9, 3, 2, 15] ++
  [13, 8, 10, 1, 3, 15, 4, 2, 11, 6, 7, 12, 0, 5, 14, 9]

/-- The S-box S3, row by row. -/
def desS3 : List Nat :=
  [10, 0, 9, 14, 6, 3, 15, 5, 1, 13, 12, 7, 11, 4, 2, 8] ++
  [13, 7, 0, 9, 3, 4, 6, 10, 2, 8, 5, 14, 12, 11, 15, 1] ++
  [13, 6, 4, 9, 8, 15, 3, 0, 11, 1, 2, 12, 5, 10, 14, 7] ++
  [1, 10, 13, 0, 6, 9, 8, 7, 4, 15, 14, 3, 11, 5, 2, 12]

/-- The S-box S4, row by row. -/
def desS4 : List Nat :=
  [7, 13, 14, 3, 0, 6, 9, 10, 1, 2, 8, 5, 11, 12, 4, 15] ++
  [13, 8, 11, 5, 6, 15, 0, 3, 4, 7, 2, 12, 1, 10, 14, 9] ++
  [10, 6, 9, 0, 12, 11, 7, 13, 15, 1, 3, 14, 5, 2, 8, 4] ++
  [3, 15, 0, 6, 10, 1, 13, 8, 9, 4, 5, 11, 12, 7, 2, 14]

/-- The S-box S5, row by row. -/
def desS5 : List Nat :=
  [2, 12, 4, 1, 7, 10, 11, 6, 8, 5, 3, 15, 13, 0, 14, 9] ++
  [14, 11, 2, 12, 4, 7, 13, 1, 5, 0, 15, 10, 3, 9, 8, 6] ++
  [4, 2, 1, 11, 10, 13, 7, 8, 15, 9, 12, 5, 6, 3, 0, 14] ++
  [11, 8, 12, 7, 1, 14, 2, 13, 6, 15, 0, 9, 10, 4, 5, 3]

/-- The S-box S6, row by row. -/
def desS6 : List Nat :=
  [12, 1, 10, 15, 9, 2, 6, 8, 0, 13, 3, 4, 14, 7, 5, 11] ++
  [10, 15, 4, 2, 7, 12, 9, 5, 6, 1, 13, 14, 0, 11, 3, 8] ++
  [9, 14, 15, 5, 2, 8, 12, 3, 7, 0, 4, 10, 1, 13, 11, 6] ++
  [4, 3, 2, 12, 9, 5, 15, 10, 11, 14, 1, 7, 6, 0, 8, 13]

/-- The S-box S7, row by row. -/
def desS7 : List Nat :=
  [4, 11, 2, 14, 15, 0, 8, 13, 3, 12, 9, 7, 5, 10, 6, 1] ++
  [13, 0, 11, 7, 4, 9, 1, 10, 14, 3, 5, 12, 2, 15, 8, 6] ++
  [1, 4, 11, 13, 12, 3, 7, 14, 10, 15, 6, 8, 0, 5, 9, 2] ++
  [6, 11, 13, 8, 1, 4, 10, 7, 9, 5, 0, 15, 14, 2, 3, 12]

/-- The S-box S8, row by row. -/
def desS8 : List Nat :=
  [13, 2, 8, 4, 6, 15, 11, 1, 10, 9, 3, 14, 5, 0, 12, 7] ++
  [1, 15, 13, 8, 10, 3, 7, 4, 12, 5, 6, 11, 0, 14, 9, 2] ++
  [7, 11, 4, 1, 9, 12, 14, 2, 0, 6, 10, 13, 15, 3, 5, 8] ++
  [2, 1, 14, 7, 4, 10, 8, 13, 15, 12, 9, 0, 3, 5, 6, 11]

/-- The eight S-boxes. -/
def desSBoxes : List (List Nat) := [desS1, desS2, desS3, desS4, desS5, desS6, desS7, desS8]

/-- The bits of `x`, of `n` bits, in the order a table names them: bit 1 is the most significant. -/
def permuteBits (n : Nat) (table : List Nat) (x : Nat) : Nat :=
  table.foldl (fun acc t => 2 * acc + (x.testBit (n - t)).toNat) 0

/-- Rotation of a 28-bit half of the key. -/
def desRotate (h : BitVec 28) (k : Nat) : BitVec 28 := h.rotateLeft k

/-- The 16 round keys, the first round's first. -/
def desKeys (key : BitVec 64) : List (BitVec 48) :=
  let cd : BitVec 56 := BitVec.ofNat 56 (permuteBits 64 desPC1 key.toNat)
  go desShifts (cd.extractLsb' 28 28) (cd.extractLsb' 0 28)
where
  go : List Nat → BitVec 28 → BitVec 28 → List (BitVec 48)
    | [], _, _ => []
    | k :: ks, c, d =>
      let c' := desRotate c k
      let d' := desRotate d k
      BitVec.ofNat 48 (permuteBits 56 desPC2 (c' ++ d').toNat) :: go ks c' d'

/-- S-box `j` on its six bits: the outer two choose the row, the inner four the column. -/
def desSBox (j : Nat) (six : Nat) : Nat :=
  (desSBoxes.getD j []).getD ((2 * (six / 32) + six % 2) * 16 + six / 2 % 16) 0

/-- The round function f(R, K). -/
def desF (r : BitVec 32) (k : BitVec 48) : BitVec 32 :=
  let x := permuteBits 32 desE r.toNat ^^^ k.toNat
  let s := (List.range 8).foldl (fun acc j => 16 * acc + desSBox j (x >>> (42 - 6 * j) % 64)) 0
  BitVec.ofNat 32 (permuteBits 32 desP s)

/-- One Feistel round on the halves (L, R). -/
def desRound (h : BitVec 32 × BitVec 32) (k : BitVec 48) : BitVec 32 × BitVec 32 :=
  (h.2, h.1 ^^^ desF h.2 k)

/-- DES under a list of round keys: IP, the rounds, the exchange of the halves, and the inverse of IP. -/
def desCrypt (keys : List (BitVec 48)) (b : BitVec 64) : BitVec 64 :=
  let x : BitVec 64 := BitVec.ofNat 64 (permuteBits 64 desIP b.toNat)
  let h := keys.foldl desRound (x.extractLsb' 32 32, x.extractLsb' 0 32)
  BitVec.ofNat 64 (permuteBits 64 desFP (h.2 ++ h.1).toNat)

/-- BLOCK_ENC (43_block_cipher.md R290), on a key and a block whose byte 0 is the most significant (R291): DES by
default, else a cipher nothing is known of but the inverse law. [PRESUMED, unsafe for the default: log 4] -/
def blockEnc : BlockCipher → BitVec 64 → BitVec 64 → BitVec 64
  | .des, k, b => desCrypt (desKeys k) b
  | .other id, k, b => Config.otherCipher id k b

/-- BLOCK_DEC, the inverse of BLOCK_ENC under the same key (43_block_cipher.md R290). -/
def blockDec : BlockCipher → BitVec 64 → BitVec 64 → BitVec 64
  | .des, k, b => desCrypt (desKeys k).reverse b
  | .other id, k, b => (Config.otherCipher id k).symm b

end Sys2Proof.Machine
end

