-- ==== Sys2Proof/Machine/BlockMode.lean ====
section
/-! DEFINITION. The block-cipher unit: ECBENC, ECBDEC (43_block_cipher.md). -/

namespace Sys2Proof.Machine

/-- `pad(m)`: N = 8 - (L mod 8) bytes of value N (43_block_cipher.md R294). -/
def padBytes (m : List Byte) : List Byte :=
  m ++ List.replicate (8 - m.length % 8) (BitVec.ofNat 8 (8 - m.length % 8))

/-- `unpad(c)`: none where it fails (43_block_cipher.md R294). -/
def unpadBytes (c : List Byte) : Option (List Byte) :=
  let n := (c.getLastD 0).toNat
  if n < 1 ∨ 8 < n then none
  else if (c.drop (c.length - n)).all (fun b => b.toNat == n) then some (c.take (c.length - n))
  else none

/-- A block of eight bytes, byte 0 the most significant (43_block_cipher.md R291). -/
def blockOfBytes (bs : List Byte) : BitVec 64 := BitVec.ofNat 64 (beValue bs)

/-- The eight bytes of a block (43_block_cipher.md R291). -/
def bytesOfBlock (b : BitVec 64) : List Byte := beBytes 8 b.toNat

/-- ECB mode: each block on its own (43_block_cipher.md R293). -/
def ecbMap (f : BitVec 64 → BitVec 64) (bs : List Byte) : List Byte :=
  (pieces 8 (bs.length / 8) bs).flatMap fun p => bytesOfBlock (f (blockOfBytes p))

/-- ECBENC (43_block_cipher.md R295, R296). -/
def execEcbenc (s : State) : Result :=
  if inputTooLong s then .next (raiseError (some .ecbenc) .length s)
  else
    let t := tookInput s
    let p := padBytes (inBytes s)
    if s.params.bufBytes < p.length then .next (raiseError (some .ecbenc) .length t)
    else .next (completeOk (t.withOut (ecbMap (blockEnc s.params.cipher (sessionKey s)) p)))

/-- ECBDEC (43_block_cipher.md R297, R298). -/
def execEcbdec (s : State) : Result :=
  if inputTooLong s then .next (raiseError (some .ecbdec) .length s)
  else if s.lenIn = 0 ∨ s.lenIn.toNat % 8 ≠ 0 then .next (raiseError (some .ecbdec) .blockLen s)
  else
    let t := tookInput s
    match unpadBytes (ecbMap (blockDec s.params.cipher (sessionKey s)) (inBytes s)) with
    | none => .next (raiseError (some .ecbdec) .padError t)
    | some m => .next (completeOk (t.withOut m))

end Sys2Proof.Machine
end

