-- ==== Sys2Proof/Machine/Modular.lean ====
section
/-! DEFINITION. The modular exponentiation unit: POWMOD, INVERT, KEYGEN, KEYSET (40_modular.md). -/

namespace Sys2Proof.Machine

/-- A natural number below 2^NBITS as a big-number register (10_state.md R40). -/
def big (v : Nat) : Big := BitVec.ofNat 512 v

/-- POWMOD (40_modular.md R151, R152). -/
def execPowmod (s : State) : Result :=
  if s.m = 0 then .next (raiseError (some .powmod) .domain s)
  else .next (completeOk (s.withR (big (powMod s.a.toNat s.e.toNat s.m.toNat))))

/-- INVERT (40_modular.md R155, R156). -/
def execInvert (s : State) : Result :=
  if s.m = 0 then .next (raiseError (some .invert) .domain s)
  else if Nat.gcd (s.a.toNat % s.m.toNat) s.m.toNat ≠ 1 then
    .next (raiseError (some .invert) .notInvertible s)
  else .next (completeOk (s.withR (big (modInv s.a.toNat s.m.toNat))))

/-- What construction computes (40_modular.md R157). -/
structure KeyParts where
  n : Nat
  d : Nat
  dP : Nat
  dQ : Nat
  qinv : Nat
  noQinv : Bool
deriving DecidableEq, Repr

/-- `construct(p, q, e, k)` (40_modular.md R157): CONFIG unless 2^k < n, then KEYGEN unless `e` has an inverse. -/
def construct (p q e k : Nat) : Except ErrCode KeyParts :=
  let n := p * q
  let phi := phiOf p q
  if ¬ 2 ^ k < n then .error .config
  else if Nat.gcd (e % phi) phi ≠ 1 then .error .keygen
  else
    let d := modInv e phi
    let hasQinv := Nat.gcd (q % p) p = 1
    .ok {
      n := n
      d := d
      dP := d % (p - 1)
      dQ := d % (q - 1)
      qinv := if hasQinv then modInv q p else 0
      noQinv := !decide hasQinv }

/-- The derived registers of a constructed key (40_modular.md R160, R161). -/
def storeKey (key : KeyParts) (s : State) : State :=
  s.withDerived (big key.n) (big key.d) (big key.dP) (big key.dQ) (big key.qinv) key.noQinv

/-- KEYGEN on the primes `ps` of the range with the indices `ip`, `iq`, `ie` drawn (40_modular.md R163). -/
def keygenWith (ps : List Nat) (ip iq ie : Nat) (s : State) : State :=
  let p := ps.getD ip 0
  let q := ps.getD iq 0
  let e := ps.getD ie 0
  match construct p q e (chunkSize s) with
  | .error code => raiseError (some .keygen) code s
  | .ok key => completeOk ((storeKey key s).withPrimes (big p) (big q) (big e))

/-- KEYGEN (40_modular.md R163): three independent draws, each taken below the number of primes (R164), and no retry
(R165). [DESIGN CHOICE, safe: log 5] -/
def execKeygen (s : State) : Result :=
  let ps := primes s.plo.toNat s.phi.toNat
  let c := ps.length
  if c = 0 then .next (raiseError (some .keygen) .noPrimes s)
  else .next (keygenWith ps (Config.draw s.draws % c) (Config.draw (s.draws + 1) % c)
    (Config.draw (s.draws + 2) % c) (s.drawn 3))

/-- KEYSET (40_modular.md R170, R171). -/
def execKeyset (s : State) : Result :=
  let p := s.kp.toNat
  let q := s.kq.toNat
  if p < 2 ∨ q < 2 then .next (raiseError (some .keyset) .config s)
  else if 2 ^ s.params.nbits ≤ p * q then .next (raiseError (some .keyset) .config s)
  else
    match construct p q s.ke.toNat (chunkSize s) with
    | .error code => .next (raiseError (some .keyset) code s)
    | .ok key => .next (completeOk (storeKey key s))

end Sys2Proof.Machine
end

