-- ==== Sys2Proof/Machine/PasswordHash.lean ====
section
/-! DEFINITION. The password hash PW_HASH (42_substitution.md R250) with MD5, its default, from RFC 1321.
The spec does not give MD5's algorithm. [PRESUMED, unsafe for the default: log 3] -/

namespace Sys2Proof.Machine

/-- The 64 additive constants of RFC 1321: the integer part of 2^32 times |sin(i + 1)|. -/
def md5Constants : List Nat :=
  [0xd76aa478, 0xe8c7b756, 0x242070db, 0xc1bdceee, 0xf57c0faf, 0x4787c62a, 0xa8304613, 0xfd469501] ++
  [0x698098d8, 0x8b44f7af, 0xffff5bb1, 0x895cd7be, 0x6b901122, 0xfd987193, 0xa679438e, 0x49b40821] ++
  [0xf61e2562, 0xc040b340, 0x265e5a51, 0xe9b6c7aa, 0xd62f105d, 0x2441453, 0xd8a1e681, 0xe7d3fbc8] ++
  [0x21e1cde6, 0xc33707d6, 0xf4d50d87, 0x455a14ed, 0xa9e3e905, 0xfcefa3f8, 0x676f02d9, 0x8d2a4c8a] ++
  [0xfffa3942, 0x8771f681, 0x6d9d6122, 0xfde5380c, 0xa4beea44, 0x4bdecfa9, 0xf6bb4b60, 0xbebfbc70] ++
  [0x289b7ec6, 0xeaa127fa, 0xd4ef3085, 0x4881d05, 0xd9d4d039, 0xe6db99e5, 0x1fa27cf8, 0xc4ac5665] ++
  [0xf4292244, 0x432aff97, 0xab9423a7, 0xfc93a039, 0x655b59c3, 0x8f0ccc92, 0xffeff47d, 0x85845dd1] ++
  [0x6fa87e4f, 0xfe2ce6e0, 0xa3014314, 0x4e0811a1, 0xf7537e82, 0xbd3af235, 0x2ad7d2bb, 0xeb86d391]

/-- The left rotations of the 64 operations, four for each round. -/
def md5Shifts : List Nat := [7, 12, 17, 22, 5, 9, 14, 20, 4, 11, 16, 23, 6, 10, 15, 21]

/-- Padding: a byte 0x80, zeros up to 56 modulo 64, and the length in bits as eight bytes, least significant first. -/
def md5Pad (m : List Byte) : List Byte :=
  m ++ [(0x80 : Byte)] ++ List.replicate ((119 - m.length % 64) % 64) (0 : Byte) ++
    (List.range 8).map fun i => BitVec.ofNat 8 ((8 * m.length) >>> (8 * i))

/-- The running state (A, B, C, D). -/
structure Md5State where
  a : Word
  b : Word
  c : Word
  d : Word
deriving DecidableEq, Repr

/-- Operation `i` on the sixteen message words of a block. -/
def md5Operation (x : List Word) (s : Md5State) (i : Nat) : Md5State :=
  let f := match i / 16 with
    | 0 => (s.b &&& s.c) ||| (~~~s.b &&& s.d)
    | 1 => (s.d &&& s.b) ||| (~~~s.d &&& s.c)
    | 2 => s.b ^^^ s.c ^^^ s.d
    | _ => s.c ^^^ (s.b ||| ~~~s.d)
  let g := match i / 16 with
    | 0 => i
    | 1 => (5 * i + 1) % 16
    | 2 => (3 * i + 5) % 16
    | _ => 7 * i % 16
  let sum := f + s.a + BitVec.ofNat 32 (md5Constants.getD i 0) + x.getD g 0
  ⟨s.d, s.b + sum.rotateLeft (md5Shifts.getD (4 * (i / 16) + i % 4) 0), s.b, s.c⟩

/-- One block of 64 bytes. -/
def md5Block (s : Md5State) (block : List Byte) : Md5State :=
  let x := (pieces 4 16 block).map fun p => BitVec.ofNat 32 (leValue p)
  let t := (List.range 64).foldl (md5Operation x) s
  ⟨s.a + t.a, s.b + t.b, s.c + t.c, s.d + t.d⟩

/-- The 16-byte MD5 digest of a byte string. -/
def md5 (m : List Byte) : Vector Byte 16 :=
  let padded := md5Pad m
  let s := (pieces 64 (padded.length / 64) padded).foldl md5Block
    ⟨0x67452301, 0xefcdab89, 0x98badcfe, 0x10325476⟩
  Vector.ofFn fun i => byteOfWord (([s.a, s.b, s.c, s.d] : List Word).getD (i.val / 4) 0) (i.val % 4)

/-- PW_HASH (42_substitution.md R250): MD5 by default, else a hash nothing is known of.
[PRESUMED, unsafe for the default: log 3] -/
def pwHash : PwHash → List Byte → Vector Byte 16
  | .md5, m => md5 m
  | .other id, m => Config.otherHash id m

end Sys2Proof.Machine
end

