-- ==== Sys2Proof/Machine/Substitution.lean ====
section
/-! DEFINITION. The substitution unit: TDERIVE, SUBENC, SUBDEC (42_substitution.md). -/

namespace Sys2Proof.Machine

/-- The words `(a, b)` of a digest: bytes 0 to 7 and 8 to 15, little-endian, unsigned (42_substitution.md R251). -/
def keyWords (h : Vector Byte 16) : Nat × Nat :=
  (leValue (h.toList.take 8), leValue (h.toList.drop 8))

/-- The sort key `key_i(x) = a mod (x + i)` (42_substitution.md R252). -/
def sortKey (a i x : Nat) : Nat := a % (x + i)

/-- Insertion before the first element whose key is not smaller. -/
def insertByKey (key : Nat → Nat) (x : Nat) : List Nat → List Nat
  | [] => [x]
  | y :: ys => if key x ≤ key y then x :: y :: ys else y :: insertByKey key x ys

/-- The stable ascending sort by a key: elements with equal keys keep their order (42_substitution.md R252). -/
def sortByKey (key : Nat → Nat) : List Nat → List Nat
  | [] => []
  | x :: xs => insertByKey key x (sortByKey key xs)

/-- The sort rounds with indices 1 to `rounds`, in increasing order (42_substitution.md R253). -/
def sortRounds (a : Nat) : Nat → List Nat → List Nat
  | 0, t => t
  | rounds + 1, t => sortByKey (sortKey a (rounds + 1)) (sortRounds a rounds t)

/-- `derive(a)`: the sort rounds from the identity list (42_substitution.md R254). -/
def deriveTable (rounds a : Nat) : List Nat := sortRounds a rounds (List.range 256)

/-- The inverse of a permutation of 0 to 255: entry `y` is the place of `y` (42_substitution.md R256). -/
def invertTable (t : List Nat) : List Nat := (List.range 256).map fun y => t.idxOf y

/-- The table a password gives (42_substitution.md R254, R256). -/
def passwordTable (p : Params) (password : List Byte) : List Nat :=
  deriveTable p.tableRounds (keyWords (pwHash p.pwHash password)).1

/-- TDERIVE (42_substitution.md R256, R257): OUT and LEN_OUT are not written. -/
def execTderive (s : State) : Result :=
  if inputTooLong s then .next (raiseError (some .tderive) .length s)
  else
    let table := passwordTable s.params (inBytes s)
    .next (completeOk ((tookInput s).withTables
      (table.map (BitVec.ofNat 8)) ((invertTable table).map (BitVec.ofNat 8))))

/-- The table entries the bytes select, as far as they are defined. -/
def lookupCells (m : Memory) (base : Nat) (bs : List Byte) : List (Option Byte) :=
  bs.map fun b => m.read? (base + b.toNat)

/-- SUBENC and SUBDEC but for their table: each input byte selects a table entry (42_substitution.md R260, R262, R264).
An UNSPEC entry, which no run meets, is a draw. [DESIGN CHOICE, safe: log 13] -/
def substitute (i : Instr) (base : Nat) (s : State) : State :=
  if inputTooLong s then raiseError (some i) .length s
  else if s.status.tableValid = false then raiseError (some i) .noTable s
  else
    let t := tookInput s
    let entries := lookupCells s.mem base (inBytes s)
    completeOk ((t.drawn (undefinedCount entries)).withOut (settle t.draws entries))

/-- SUBENC (42_substitution.md R260). -/
def execSubenc (s : State) : Result := .next (substitute .subenc fwdBase s)

/-- SUBDEC (42_substitution.md R262). -/
def execSubdec (s : State) : Result := .next (substitute .subdec invBase s)

end Sys2Proof.Machine
end

