-- ==== Sys2Proof/Machine/Transfer.lean ====
section
/-! DEFINITION. Buffer transfer: XFER (44_transfer.md). -/

namespace Sys2Proof.Machine

/-- `OUT⟨0..LEN_OUT)`, as far as it is defined. -/
def outCells (s : State) : List (Option Byte) := s.mem.readMany outBase s.lenOut.toNat

/-- XFER (44_transfer.md R330, R331). An UNSPEC byte of OUT below LEN_OUT, which no run meets, is a draw.
[DESIGN CHOICE, safe: log 13] -/
def execXfer (s : State) : Result :=
  .next (completeOk ((s.drawn (undefinedCount (outCells s))).withIn (settle s.draws (outCells s)) s.lenOut))

end Sys2Proof.Machine
end

