-- ==== Sys2Proof/Machine/Dispatch.lean ====
section
/-! DEFINITION. The meaning of each command, one arm per constructor. -/

namespace Sys2Proof.Machine

/-- The effect of a command at its completion, on the state as it was at acceptance (10_state.md R51,
60_exceptions.md R352). -/
def exec (i : Instr) (s : State) : Host.Outcome State Fault Refusal :=
  match i with
  | .powmod => Sys2Proof.Machine.execPowmod s
  | .invert => Sys2Proof.Machine.execInvert s
  | .keygen => Sys2Proof.Machine.execKeygen s
  | .keyset => Sys2Proof.Machine.execKeyset s
  | .encode k => Sys2Proof.Machine.execEncode k s
  | .decode k => Sys2Proof.Machine.execDecode k s
  | .tderive => Sys2Proof.Machine.execTderive s
  | .subenc => Sys2Proof.Machine.execSubenc s
  | .subdec => Sys2Proof.Machine.execSubdec s
  | .ecbenc => Sys2Proof.Machine.execEcbenc s
  | .ecbdec => Sys2Proof.Machine.execEcbdec s
  | .xfer => Sys2Proof.Machine.execXfer s

end Sys2Proof.Machine
end

