-- ==== Sys2Proof/Machine/Engine.lean ====
section
/-! DEFINITION. One step of the whole: a completion, a host access, or the passing of time
(10_state.md R51, 20_memory.md R97, 70_reset_and_hazards.md R430). -/

namespace Sys2Proof.Machine

/-- The completion step of an accepted word: the command's effect, or ILLEGAL_CMD (60_exceptions.md R342, R352;
30_encoding.md R126), on the inputs as they are now. [DEDUCED, safe: log 20] -/
def completeWord (w : Word) (s : State) : Result :=
  match decodeBytes (leBytes 4 w) with
  | .ok i => exec i s
  | .error _ => .next (raiseError none .illegalCmd s)

/-- The oldest arrival at the port is handled; with nothing waiting the state stays (60_exceptions.md R382).
[DESIGN CHOICE, safe: log 7, log 9] -/
def takeInput (s : State) : Result :=
  match s.inputs with
  | [] => .next s
  | ev :: rest => handleEvent ev { s with inputs := rest }

/-- One step. While a command runs, its completion comes when its waiting time is over, and before that each step takes
one arrival, if there is one (20_memory.md R87, R97). [DESIGN CHOICE, safe: log 6] -/
def advance (s : State) : Result :=
  match s.phase with
  | .idle => takeInput s
  | .busy w 0 => completeWord w s
  | .busy w (wait + 1) => takeInput { s with phase := .busy w wait }

end Sys2Proof.Machine
end

