-- ==== Sys2Proof/Machine/Step.lean ====
section
/-! DEFINITION. The step function, and where it takes its next command from. -/

namespace Sys2Proof.Machine

/-- One step of the machine. -/
def step (s : State) : Host.Outcome State Fault Refusal := advance s

/-- The state in which the command word `w` has been accepted and the very next step is its completion
(60_exceptions.md R351). It stands for the host's write of CMD. [DESIGN CHOICE, safe: log 8] -/
def State.withFetchWord (s : State) (nbits w : Nat) : State :=
  s.accept (BitVec.ofNat 32 (w % 2 ^ nbits)) 0

end Sys2Proof.Machine
end

