-- ==== Sys2Proof/Safety.lean ====
section
/-! DEFINITION. The terms the claims are stated in: what a completion leaves, what memory holds, what a key is, and the
invariants of the engine. -/

namespace Sys2Proof.Machine

/-! ## Completions, spelled out -/

/-- What a successful completion leaves of a state, beside the command's own results: DONE = 1, ERR = 0, ERRCODE = 0,
BUSY = 0 (60_exceptions.md R352, 00_scope.md R20). -/
def afterSuccess (s : State) : State :=
  { s with phase := .idle, status := { s.status with done := true, err := false, errcode := .none } }

/-- What an error completion leaves of a state: DONE = 1, ERR = 1, ERRCODE = the code, BUSY = 0, LEN_OUT = 0, and OUT
UNSPEC (60_exceptions.md R350). -/
def afterError (code : ErrCode) (s : State) : State :=
  { s with
    phase := .idle
    lenOut := 0
    mem := s.mem.clear outBase s.params.bufBytes
    status := { s.status with done := true, err := true, errcode := code } }

/-- What a failed construction leaves: an error completion that clears KEY_VALID and QINV_NONE too
(40_modular.md R162, 60_exceptions.md R350). -/
def afterKeyError (code : ErrCode) (s : State) : State :=
  { afterError code s with
    status := { (afterError code s).status with keyValid := false, qinvNone := false } }

/-! ## Memory contents -/

/-- From an offset up, memory holds these bytes, all of them defined. -/
def holdsBytes (m : Memory) (o : Nat) (bs : List Byte) : Prop :=
  ∀ j < bs.length, m.read? (o + j) = bs[j]?

/-- IN holds the byte string and LEN_IN is its length (20_memory.md R102). -/
def inputIs (s : State) (bs : List Byte) : Prop :=
  s.lenIn.toNat = bs.length ∧ holdsBytes s.mem inBase bs

/-- OUT holds the byte string and LEN_OUT is its length (20_memory.md R102). -/
def outputIs (s : State) (bs : List Byte) : Prop :=
  s.lenOut.toNat = bs.length ∧ holdsBytes s.mem outBase bs

/-- FWD and INV are defined and `INV[FWD[x]] = x` for every byte `x` (10_state.md R49). -/
def tablesInverse (m : Memory) : Prop :=
  ∀ x < 256, ((m.read? (fwdBase + x)).bind fun y => m.read? (invBase + y.toNat)) = some (BitVec.ofNat 8 x)

/-- An offset of FWD, INV, IN or OUT (10_state.md R49, R50). -/
def isMemoryOffset (p : Params) (o : Nat) : Prop :=
  (fwdBase ≤ o ∧ o < invBase + 256) ∨ (inBase ≤ o ∧ o < inBase + p.bufBytes) ∨
    (outBase ≤ o ∧ o < outBase + p.bufBytes)

/-! ## Keys -/

/-- The KeyPair made from `p`, `q`, `e` (40_modular.md R157, R158, R161; 10_state.md R43). -/
structure IsKey (p q e n d dP dQ qinv : Nat) (noQinv : Bool) : Prop where
  modulus : n = p * q
  exponent : e * d % phiOf p q = 1 % phiOf p q
  exponent_lt : d < phiOf p q
  dP_eq : dP = d % (p - 1)
  dQ_eq : dQ = d % (q - 1)
  flag : noQinv = true ↔ Nat.gcd (q % p) p ≠ 1
  inverse : noQinv = false → q * qinv % p = 1 % p ∧ qinv < p
  no_inverse : noQinv = true → qinv = 0

/-- The key registers hold the KeyPair made from KP, KQ and KE. -/
def keyRegistersHold (s : State) : Prop :=
  IsKey s.kp.toNat s.kq.toNat s.ke.toNat s.kn.toNat s.kd.toNat s.kdp.toNat s.kdq.toNat s.kqinv.toNat
    s.status.qinvNone

/-! ## Invariants -/

/-- The parameters have legal values (00_scope.md R10). -/
def ParamsInv (s : State) : Prop := s.params.wellFormed = true

/-- Memory has its canonical form and lists only bytes of FWD, INV, IN and OUT (10_state.md R49, R50). -/
def MemoryInv (s : State) : Prop :=
  s.mem.wf = true ∧ ∀ c ∈ s.mem, isMemoryOffset s.params c.1

/-- Every big-number register holds a number below 2^NBITS (10_state.md R40). -/
def RangeInv (s : State) : Prop := ∀ reg, (s.bigReg reg).toNat < 2 ^ s.params.nbits

/-- LEN_OUT is at most BUF_BYTES, and OUT is defined below it (10_state.md R38, R50; 44_transfer.md R330). -/
def OutputInv (s : State) : Prop :=
  s.lenOut.toNat ≤ s.params.bufBytes ∧ ∀ j < s.lenOut.toNat, (s.mem.read? (outBase + j)).isSome

/-- While TABLE_VALID = 1, the tables are a bijection and its inverse (10_state.md R49). -/
def TableInv (s : State) : Prop := s.status.tableValid = true → tablesInverse s.mem

/-- QINV_NONE is set only with KEY_VALID, and while KEY_VALID = 1 the registers hold a KeyPair with a modulus above
2^k for some k (10_state.md R35, R43). -/
def KeyInv (s : State) : Prop :=
  (s.status.qinvNone = true → s.status.keyValid = true) ∧
    (s.status.keyValid = true →
      2 ≤ s.kp.toNat ∧ 2 ≤ s.kq.toNat ∧ (∃ k, 2 ^ k < s.kn.toNat) ∧ keyRegistersHold s)

/-- ERR = 1 exactly when ERRCODE is not NONE, and no completion is reported while a command runs
(60_exceptions.md R341, R351; 70_reset_and_hazards.md R421). -/
def FlagsInv (s : State) : Prop :=
  (s.status.err = true ↔ s.status.errcode ≠ .none) ∧
    (s.isBusy = true → s.status.done = false ∧ s.status.err = false)

/-- While a command runs, CMD holds its word (10_state.md R39, R51). -/
def CommandInv (s : State) : Prop := ∀ w n, s.phase = .busy w n → s.cmd = w

/-! ## What waits at the port -/

/-- Every arrival waiting at the port is well-formed (20_memory.md R81, R82). A run that starts so is safe when it meets
no fault and no refusal. -/
def PortInv (s : State) : Prop := ∀ ev ∈ s.inputs, ev.wellFormed s.params = true

/-- The arrival resets the engine: the reset input, or a write of CTRL with SOFT_RESET set
(70_reset_and_hazards.md R400, R402). -/
def resets (p : Params) : Event → Bool
  | .read _ _ => false
  | .write addr n v => addr == p.base + 0x008 && n.bytes == 4 && v.getLsbD 1
  | .reset => true

/-- A run of `n` steps. -/
def run (n : Nat) (s : State) : Result := Host.Core.run Sys2Proof.core n s

end Sys2Proof.Machine
end

