-- ==== Sys2Proof/Certificates/Slice0/Obligations.lean ====
section
/-! DEFINITION. The statements for the provers, in the order of spec/: the command word, the port, acceptance and
completion, the commands unit by unit, the invariants. -/

open Sys2Proof Sys2Proof.Machine

/-! ## The command word -/

/-- Decoding and encoding agree in both directions on every 32-bit word (30_encoding.md R125, R128). -/
def Obligations.DecodeInvertsEncode : Prop :=
  ∀ (w : Word) (i : Instr), decodeWord w = .ok i ↔ w = encode i

/-- The legal words are those of R125; every other word is rejected (30_encoding.md R125, R126). -/
def Obligations.LegalCommandWords : Prop :=
  ∀ w : Word, (∃ i, decodeWord w = .ok i) ↔
    w.extractLsb' 10 22 = 0 ∧
      (w.extractLsb' 0 8 = 0x05 ∨ w.extractLsb' 0 8 = 0x06 ∨
        (((0x01 ≤ w.extractLsb' 0 8 ∧ w.extractLsb' 0 8 ≤ 0x04) ∨
            (0x07 ≤ w.extractLsb' 0 8 ∧ w.extractLsb' 0 8 ≤ 0x0C)) ∧
          w.extractLsb' 8 2 = 0))

/-- The words of R128's table and the illegal words of R130. -/
def Obligations.WorkedCommandWords : Prop :=
  decodeWord 0x00000001 = .ok .powmod ∧ decodeWord 0x00000002 = .ok .invert ∧
  decodeWord 0x00000003 = .ok .keygen ∧ decodeWord 0x00000004 = .ok .keyset ∧
  decodeWord 0x00000005 = .ok (.encode .x) ∧ decodeWord 0x00000105 = .ok (.encode .priv) ∧
  decodeWord 0x00000205 = .ok (.encode .pub) ∧ decodeWord 0x00000305 = .ok (.encode .peer) ∧
  decodeWord 0x00000006 = .ok (.decode .x) ∧ decodeWord 0x00000106 = .ok (.decode .priv) ∧
  decodeWord 0x00000206 = .ok (.decode .pub) ∧ decodeWord 0x00000306 = .ok (.decode .peer) ∧
  decodeWord 0x00000007 = .ok .tderive ∧ decodeWord 0x00000008 = .ok .subenc ∧
  decodeWord 0x00000009 = .ok .subdec ∧ decodeWord 0x0000000A = .ok .ecbenc ∧
  decodeWord 0x0000000B = .ok .ecbdec ∧ decodeWord 0x0000000C = .ok .xfer ∧
  decodeWord 0x00000401 = .error .reservedBits ∧ decodeWord 0x00000101 = .error .keySelect ∧
  decodeWord 0x000000FF = .error .unknownOpcode ∧ decodeWord 0x00000000 = .error .unknownOpcode

/-! ## The step -/

/-- When the waiting time of a command is over, the step is the command's meaning on the state as it is. -/
def Obligations.StepRunsTheDecodedCommand : Prop :=
  ∀ (s : State) (w : Word) (i : Instr),
    s.phase = .busy w 0 → decodeWord w = .ok i → step s = exec i s

/-- An accepted illegal word completes with ILLEGAL_CMD and changes no operand, result, key, table or IN
(30_encoding.md R126, 60_exceptions.md R350). -/
def Obligations.IllegalWordCompletesWithIllegalCmd : Prop :=
  ∀ (s : State) (w : Word), s.phase = .busy w 0 → (∀ i, decodeWord w ≠ .ok i) →
    step s = .next (afterError .illegalCmd s)

/-- Before its completion, a step takes the oldest arrival at the port, or nothing but time passes: one arrival or one
completion a step, never both (20_memory.md R87, R97). An arrival whose address is in the window is the host read or the
host write at its offset (00_scope.md R19; 20_memory.md R80, R81, R82). The one arrival a step and the fault of an address
outside the window are the model's choice (log 6, log 7, log 9; log 10). -/
def Obligations.StepTakesOneArrival : Prop :=
  (∀ (s : State) (w : Word) (n : Nat),
    (s.phase = .busy w (n + 1) → s.inputs = [] → step s = .next { s with phase := .busy w n }) ∧
    (s.phase = .idle → s.inputs = [] → step s = .next s) ∧
    (∀ ev rest, s.inputs = ev :: rest →
      (s.phase = .busy w (n + 1) → step s = handleEvent ev { s with phase := .busy w n, inputs := rest }) ∧
      (s.phase = .idle → step s = handleEvent ev { s with inputs := rest }))) ∧
  ∀ (s : State) (addr : Nat) (n : Width) (v : Word),
    (s.params.base ≤ addr → addr < s.params.base + 0x10000 →
      handleEvent (.read addr n) s = .next (hostRead (addr - s.params.base) n s) ∧
      handleEvent (.write addr n v) s = .next (hostWrite (addr - s.params.base) n v s)) ∧
    (addr < s.params.base ∨ s.params.base + 0x10000 ≤ addr →
      handleEvent (.read addr n) s = .fault .outsideWindow ∧ handleEvent (.write addr n v) s = .fault .outsideWindow)

/-- Every accepted command completes: if no arrival of its waiting time resets the engine or misses the window, then
after the waiting time and one step the engine is idle and reports the completion (70_reset_and_hazards.md R430,
60_exceptions.md R352). The number of waiting steps is the model's choice (log 6). -/
def Obligations.AcceptedCommandCompletes : Prop :=
  ∀ (s : State) (w : Word) (n : Nat), s.phase = .busy w n →
    (∀ ev ∈ s.inputs.take n, ev.wellFormed s.params = true ∧ resets s.params ev = false) →
    ∃ t, run (n + 1) s = .next t ∧ t.phase = .idle ∧ t.status.done = true ∧ t.cmd = s.cmd ∧
      t.inputs = s.inputs.drop n

/-- A run whose arrivals all address the window meets no fault and no refusal (20_memory.md R88, 60_exceptions.md
R340). The fault it rules out is the model's choice (log 10). -/
def Obligations.WellFormedArrivalsNeverStop : Prop :=
  ∀ (s : State) (n : Nat), PortInv s → ∃ t, run n s = .next t ∧ PortInv t ∧ t.params = s.params

/-! ## The port -/

/-- Which accesses are admitted (20_memory.md R85, R86, R88; 10_state.md R56). A write to a reserved word of a slot, from
NBITS/32 up, sets no ACC_ERR in any slot (10_state.md R40); that it counts as admitted in a read-only slot, and so sets
BUSY_WR while a command runs, is the model's reading (log 22). -/
def Obligations.AdmittedAccesses : Prop :=
  ∀ (p : Params) (o : Nat) (n : Width) (isWrite : Bool), p.wellFormed = true →
    ((admitted p o n.bytes isWrite).isSome = true ↔
      o % n.bytes = 0 ∧
        ((n = .w4 ∧ o < 0x038 ∧ (isWrite = true → o ∉ [0x000, 0x004, 0x01C, 0x030, 0x034])) ∨
          (n = .w4 ∧ 0x100 ≤ o ∧ o < 0x480 ∧
            (isWrite = true → o % 64 / 4 < p.nbits / 32 → ¬ (0x1C0 ≤ o ∧ o < 0x200) ∧ ¬ (0x2C0 ≤ o ∧ o < 0x400))) ∨
          (0x800 ≤ o ∧ o < 0xA00 ∧ isWrite = false) ∨
          (0x4000 ≤ o ∧ o + n.bytes ≤ 0x4000 + p.bufBytes) ∨
          (0x8000 ≤ o ∧ o + n.bytes ≤ 0x8000 + p.bufBytes ∧ isWrite = false)))

/-- An access that is not admitted reads 0, writes nothing and sets ACC_ERR, in either phase (20_memory.md R88). -/
def Obligations.UnadmittedAccessSetsAccErr : Prop :=
  ∀ (s : State) (o : Nat) (n : Width) (v : Word),
    (admitted s.params o n.bytes false = none →
      hostRead o n s = { s with replies := 0 :: s.replies, status := { s.status with accErr := true } }) ∧
    (admitted s.params o n.bytes true = none →
      hostWrite o n v s = { s with status := { s.status with accErr := true } })

/-- An admitted read changes nothing but the answer it gives and the draws it takes; the answer is the bytes at the
offset, least significant first (20_memory.md R81, R90). By offset: ID, VERSION, CTRL, STATUS, CMD, PARAM_NBITS and
PARAM_BUF answer in either phase, and nothing else does while a command runs (R92, R94); while idle the other control
registers, every word of a big-number slot, FWD and INV while TABLE_VALID = 1, IN and OUT answer their contents
(R81, R89; 10_state.md R56). A draw for each UNSPEC byte is the model's choice (log 11). -/
def Obligations.ReadsOnlyAnswer : Prop :=
  (∀ (s : State) (o : Nat) (n : Width) (item : Item), admitted s.params o n.bytes false = some item →
    (s.isBusy = false ∨ item.busyReadable = true →
      hostRead o n s =
        { s with
          draws := s.draws + undefinedCount ((List.range n.bytes).map fun i => itemByte s item (o + i))
          replies := BitVec.ofNat 32
            (leValue (settle s.draws ((List.range n.bytes).map fun i => itemByte s item (o + i)))) :: s.replies }) ∧
    (s.isBusy = true → item.busyReadable = false →
      hostRead o n s =
        { s with
          draws := s.draws + n.bytes
          replies := BitVec.ofNat 32
            (leValue ((List.range n.bytes).map fun i => drawByte (s.draws + i))) :: s.replies })) ∧
  (∀ (s : State) (o : Nat) (w : Word),
    (o, w) ∈ [(0x000, 0x4D455845), (0x004, 0x00010000), (0x008, if s.irqEn then 1 else 0), (0x00C, statusWord s),
        (0x010, s.cmd), (0x030, BitVec.ofNat 32 s.params.nbits), (0x034, BitVec.ofNat 32 s.params.bufBytes)] →
      hostRead o .w4 s = { s with replies := w :: s.replies }) ∧
  (∀ (s : State) (o : Nat) (n : Width), s.isBusy = true → (admitted s.params o n.bytes false).isSome = true →
    o ∉ [0x000, 0x004, 0x008, 0x00C, 0x010, 0x030, 0x034] →
      hostRead o n s =
        { s with
          draws := s.draws + n.bytes
          replies := BitVec.ofNat 32
            (leValue ((List.range n.bytes).map fun i => drawByte (s.draws + i))) :: s.replies }) ∧
  (∀ (s : State) (o : Nat) (w : Word), s.isBusy = false →
    (o, w) ∈ [(0x014, s.chunkBits.setWidth 32), (0x018, s.lenIn.setWidth 32), (0x01C, s.lenOut.setWidth 32),
        (0x020, s.plo), (0x024, s.phi), (0x028, s.skeyLo), (0x02C, s.skeyHi)] →
      hostRead o .w4 s = { s with replies := w :: s.replies }) ∧
  (∀ (s : State) (o j : Nat) (x : Big), s.isBusy = false → j < 16 →
    (o, x) ∈ [(0x100, s.a), (0x140, s.e), (0x180, s.m), (0x1C0, s.r), (0x200, s.kp), (0x240, s.kq), (0x280, s.ke),
        (0x2C0, s.kn), (0x300, s.kd), (0x340, s.kdp), (0x380, s.kdq), (0x3C0, s.kqinv), (0x400, s.pe), (0x440, s.pn)] →
      hostRead (o + 4 * j) .w4 s = { s with replies := slotWord s.params x j :: s.replies }) ∧
  ∀ (s : State) (o : Nat) (n : Width), s.isBusy = false → s.params.wellFormed = true → o % n.bytes = 0 →
    ((0x800 ≤ o ∧ o < 0xA00) ∨ (0x4000 ≤ o ∧ o + n.bytes ≤ 0x4000 + s.params.bufBytes) ∨
      (0x8000 ≤ o ∧ o + n.bytes ≤ 0x8000 + s.params.bufBytes)) →
    let cells := (List.range n.bytes).map fun i =>
      if o < 0xA00 ∧ s.status.tableValid = false then none else s.mem.read? (o + i)
    hostRead o n s =
      { s with
        draws := s.draws + undefinedCount cells
        replies := BitVec.ofNat 32 (leValue (settle s.draws cells)) :: s.replies }

/-- While a command runs, an admitted write to any item but CTRL and STATUS is dropped: to CMD it sets CMD_OVR, to any
other it sets BUSY_WR (20_memory.md R92, R93; 60_exceptions.md R354). By offset: CTRL is 0x008, STATUS 0x00C, CMD 0x010.
That a write to a reserved word of a read-only slot is among the admitted ones is the model's reading (log 22). -/
def Obligations.BusyWritesAreDropped : Prop :=
  (∀ (s : State) (o : Nat) (n : Width) (v : Word), s.isBusy = true →
    (admitted s.params o n.bytes true).isSome = true → o ≠ 0x008 → o ≠ 0x00C →
    hostWrite o n v s =
      if o = 0x010 then { s with status := { s.status with cmdOvr := true } }
      else { s with status := { s.status with busyWr := true } }) ∧
  ∀ (s : State) (o : Nat) (n : Width) (v : Word) (item : Item), s.isBusy = true →
    admitted s.params o n.bytes true = some item → item ≠ .ctl .ctrl → item ≠ .ctl .status →
    (item = .ctl .cmd → hostWrite o n v s = { s with status := { s.status with cmdOvr := true } }) ∧
    (item ≠ .ctl .cmd → hostWrite o n v s = { s with status := { s.status with busyWr := true } })

/-- While a command runs, an arrival that does not reset the engine leaves every input of the command as it is: only
IRQ_EN, four flags of STATUS, the draws and the replies can change (20_memory.md R93, R100). -/
def Obligations.BusyArrivalsKeepTheInputs : Prop :=
  ∀ (s t : State) (ev : Event), s.isBusy = true → resets s.params ev = false →
    handleEvent ev s = .next t →
    t = { s with
      irqEn := t.irqEn
      status := { s.status with
        done := t.status.done, cmdOvr := t.status.cmdOvr, accErr := t.status.accErr, busyWr := t.status.busyWr }
      draws := t.draws
      replies := t.replies }

/-- STATUS read as a word has BUSY, DONE, ERR, TABLE_VALID, KEY_VALID, QINV_NONE, CMD_OVR, ACC_ERR and BUSY_WR in bits
0 to 8, ERRCODE in bits 23:16, and 0 in every other bit (10_state.md R35); the numbers of the error codes are those of
60_exceptions.md R341. -/
def Obligations.StatusWordFields : Prop :=
  (∀ s : State,
    (statusWord s).getLsbD 0 = s.isBusy ∧ (statusWord s).getLsbD 1 = s.status.done ∧
    (statusWord s).getLsbD 2 = s.status.err ∧ (statusWord s).getLsbD 3 = s.status.tableValid ∧
    (statusWord s).getLsbD 4 = s.status.keyValid ∧ (statusWord s).getLsbD 5 = s.status.qinvNone ∧
    (statusWord s).getLsbD 6 = s.status.cmdOvr ∧ (statusWord s).getLsbD 7 = s.status.accErr ∧
    (statusWord s).getLsbD 8 = s.status.busyWr ∧ (statusWord s).extractLsb' 9 7 = 0 ∧
    (statusWord s).extractLsb' 16 8 = s.status.errcode.number ∧ (statusWord s).extractLsb' 24 8 = 0) ∧
  ErrCode.number .none = 0x00 ∧ ErrCode.number .illegalCmd = 0x01 ∧ ErrCode.number .length = 0x02 ∧
  ErrCode.number .noKey = 0x03 ∧ ErrCode.number .noTable = 0x04 ∧ ErrCode.number .domain = 0x05 ∧
  ErrCode.number .config = 0x06 ∧ ErrCode.number .notInvertible = 0x07 ∧ ErrCode.number .keygen = 0x08 ∧
  ErrCode.number .noPrimes = 0x09 ∧ ErrCode.number .emptyInput = 0x0A ∧ ErrCode.number .decUnderflow = 0x0B ∧
  ErrCode.number .decFormat = 0x0C ∧ ErrCode.number .decOverflow = 0x0D ∧ ErrCode.number .blockLen = 0x0E ∧
  ErrCode.number .padError = 0x0F

/-- The two registers that take effect while a command runs. A write to STATUS clears each W1C bit written as 1 and
leaves every other bit, without BUSY_WR. A write of CTRL stores IRQ_EN, or with SOFT_RESET set has exactly the effect
of the hardware reset (10_state.md R34, R35; 70_reset_and_hazards.md R402). Both hold in either phase. The interrupt
output is IRQ_EN and DONE at every moment (10_state.md R53, 60_exceptions.md R360), so that writing 1 to DONE lowers it
and setting IRQ_EN with DONE = 1 raises it (60_exceptions.md R353). What the model's own fields keep over a reset is its
choice (log 19). -/
def Obligations.StatusAndCtrlWritesTakeEffect : Prop :=
  ∀ (s : State) (v : Word),
    hostWrite 0x00C .w4 v s = { s with status := { s.status with
      done := s.status.done && !v.getLsbD 1, cmdOvr := s.status.cmdOvr && !v.getLsbD 6
      accErr := s.status.accErr && !v.getLsbD 7, busyWr := s.status.busyWr && !v.getLsbD 8 } } ∧
    (v.getLsbD 1 = false → hostWrite 0x008 .w4 v s = { s with irqEn := v.getLsbD 0 }) ∧
    (v.getLsbD 1 = true → hostWrite 0x008 .w4 v s = s.hardwareReset ∧
      handleEvent .reset s = .next s.hardwareReset) ∧
    irq s = (s.irqEn && s.status.done) ∧
    irq (hostWrite 0x00C .w4 v s) = (s.irqEn && s.status.done && !v.getLsbD 1) ∧
    (v.getLsbD 1 = false → irq (hostWrite 0x008 .w4 v s) = (v.getLsbD 0 && s.status.done))

/-- What a reset leaves (70_reset_and_hazards.md R400, R401): every register 0, every flag 0, phase IDLE, no command
running, and every byte of the tables and the buffers UNSPEC. The parameters of `State.reset` are the model's choice
(log 1). -/
def Obligations.ResetState : Prop :=
  ∀ s t : State, (t = State.reset ∨ t = s.hardwareReset) →
    t.phase = .idle ∧ irq t = false ∧ ctrlWord t = 0 ∧ statusWord t = 0 ∧ t.cmd = 0 ∧ t.chunkBits = 0 ∧
    t.lenIn = 0 ∧ t.lenOut = 0 ∧ t.plo = 0 ∧ t.phi = 0 ∧ t.skeyLo = 0 ∧ t.skeyHi = 0 ∧
    (∀ reg, t.bigReg reg = 0) ∧ (∀ o, t.mem.read? o = none) ∧
    ctlWord t .id = 0x4D455845 ∧ ctlWord t .version = 0x00010000 ∧
    ctlWord t .paramNbits = BitVec.ofNat 32 t.params.nbits ∧ ctlWord t .paramBuf = BitVec.ofNat 32 t.params.bufBytes

/-- A write of a 32-bit control register and a read of it agree on the bits the register has; its reserved bits read 0
(10_state.md R36, R37, R46, R47). Such a write while idle only stores (20_memory.md R91). CTRL reads back IRQ_EN in either
phase, and SOFT_RESET reads 0 (R34); a soft reset keeps the replies by the model's choice (log 19). CMD reads as the last
accepted word, which is the running command's while one runs (R39, R51): StepKeepsTheFlags says that every step keeps
`CommandInv`. -/
def Obligations.ControlRegistersReadBack : Prop :=
  ∀ (s : State) (v : Word),
    (v.getLsbD 1 = false → (hostRead 0x008 .w4 (hostWrite 0x008 .w4 v s)).replies = (v &&& 0x00000001) :: s.replies) ∧
    (v.getLsbD 1 = true → (hostRead 0x008 .w4 (hostWrite 0x008 .w4 v s)).replies = 0 :: s.replies) ∧
    (s.isBusy = true → (hostRead 0x010 .w4 (hostWrite 0x010 .w4 v s)).replies = s.cmd :: s.replies) ∧
    (∀ w n, CommandInv s → s.phase = .busy w n →
      (hostRead 0x010 .w4 (hostWrite 0x010 .w4 v s)).replies = w :: s.replies) ∧
    (s.isBusy = false →
      hostWrite 0x014 .w4 v s = { s with chunkBits := v.setWidth 16 } ∧
      hostWrite 0x018 .w4 v s = { s with lenIn := v.setWidth 16 } ∧
      hostWrite 0x020 .w4 v s = { s with plo := v } ∧ hostWrite 0x024 .w4 v s = { s with phi := v } ∧
      hostWrite 0x028 .w4 v s = { s with skeyLo := v } ∧ hostWrite 0x02C .w4 v s = { s with skeyHi := v }) ∧
    (s.isBusy = false →
      (hostRead 0x010 .w4 (hostWrite 0x010 .w4 v s)).replies = v :: s.replies ∧
      (hostRead 0x014 .w4 (hostWrite 0x014 .w4 v s)).replies = (v &&& 0x0000FFFF) :: s.replies ∧
      (hostRead 0x018 .w4 (hostWrite 0x018 .w4 v s)).replies = (v &&& 0x0000FFFF) :: s.replies ∧
      (hostRead 0x020 .w4 (hostWrite 0x020 .w4 v s)).replies = v :: s.replies ∧
      (hostRead 0x024 .w4 (hostWrite 0x024 .w4 v s)).replies = v :: s.replies ∧
      (hostRead 0x028 .w4 (hostWrite 0x028 .w4 v s)).replies = v :: s.replies ∧
      (hostRead 0x02C .w4 (hostWrite 0x02C .w4 v s)).replies = v :: s.replies)

/-- The words of a big-number slot: word `j` is bits 32j to 32j + 31 of the value, a write changes its own word only, and
words from NBITS/32 up read 0 and ignore writes (10_state.md R40). -/
def Obligations.BigRegisterWords : Prop :=
  ∀ (p : Params) (x : Big) (j : Nat) (v : Word), p.wellFormed = true →
    (j < p.nbits / 32 → slotWord p x j = BitVec.ofNat 32 (x.toNat / 2 ^ (32 * j)) ∧
      slotWord p (setSlotWord p x j v) j = v ∧
      (∀ i, i ≠ j → slotWord p (setSlotWord p x j v) i = slotWord p x i) ∧
      (setSlotWord p x j v).toNat / 2 ^ (32 * j) % 2 ^ 32 = v.toNat) ∧
    (p.nbits / 32 ≤ j → slotWord p x j = 0 ∧ setSlotWord p x j v = x)

/-- A host write to a word of KP, KQ or KE changes the word and clears KEY_VALID and QINV_NONE, and reaches these
registers only while BUSY = 0 (10_state.md R44); a write to a word of A, E, M, PE or PN only stores
(20_memory.md R91). These words are those a slot has, below NBITS/32. While idle, a write to a reserved word of any slot,
from NBITS/32 up, stores nothing and sets no error flag (10_state.md R40, 20_memory.md R88). That one to KP, KQ or KE still
clears KEY_VALID and QINV_NONE is the model's choice (log 15). -/
def Obligations.KeySourceWritesDropTheKey : Prop :=
  ∀ (s : State) (j : Nat) (v : Word), s.params.wellFormed = true →
    let drop := { s.status with keyValid := false, qinvNone := false }
    (j < s.params.nbits / 32 → s.isBusy = false →
      hostWrite (0x200 + 4 * j) .w4 v s = { s with kp := setSlotWord s.params s.kp j v, status := drop } ∧
      hostWrite (0x240 + 4 * j) .w4 v s = { s with kq := setSlotWord s.params s.kq j v, status := drop } ∧
      hostWrite (0x280 + 4 * j) .w4 v s = { s with ke := setSlotWord s.params s.ke j v, status := drop } ∧
      hostWrite (0x100 + 4 * j) .w4 v s = { s with a := setSlotWord s.params s.a j v } ∧
      hostWrite (0x140 + 4 * j) .w4 v s = { s with e := setSlotWord s.params s.e j v } ∧
      hostWrite (0x180 + 4 * j) .w4 v s = { s with m := setSlotWord s.params s.m j v } ∧
      hostWrite (0x400 + 4 * j) .w4 v s = { s with pe := setSlotWord s.params s.pe j v } ∧
      hostWrite (0x440 + 4 * j) .w4 v s = { s with pn := setSlotWord s.params s.pn j v }) ∧
    (j < s.params.nbits / 32 → s.isBusy = true → ∀ o ∈ [0x200 + 4 * j, 0x240 + 4 * j, 0x280 + 4 * j],
      hostWrite o .w4 v s = { s with status := { s.status with busyWr := true } }) ∧
    (s.params.nbits / 32 ≤ j → j < 16 → s.isBusy = false →
      (∀ o ∈ [0x100, 0x140, 0x180, 0x1C0, 0x2C0, 0x300, 0x340, 0x380, 0x3C0, 0x400, 0x440],
        hostWrite (o + 4 * j) .w4 v s = s) ∧
      ∀ o ∈ [0x200, 0x240, 0x280], hostWrite (o + 4 * j) .w4 v s = { s with status := drop })

/-- The window is little-endian (20_memory.md R83): a write of n bytes in IN stores the least significant byte at the
lowest offset, changes its own bytes only, and an access of any width sees the same bytes at the same offsets. -/
def Obligations.BufferAccessesAreLittleEndian : Prop :=
  ∀ (s : State) (o i : Nat) (n : Width) (v : Word), s.isBusy = false → s.params.wellFormed = true →
    o % n.bytes = 0 → 0x4000 ≤ o → o + n.bytes ≤ 0x4000 + s.params.bufBytes → i < n.bytes →
    let t := hostWrite o n v s
    t = { s with mem := t.mem } ∧
    (∀ a, (a < o ∨ o + n.bytes ≤ a) → t.mem.read? a = s.mem.read? a) ∧
    t.mem.read? (o + i) = some (BitVec.ofNat 8 (v.toNat / 256 ^ i)) ∧
    (hostRead o n t).replies = BitVec.ofNat 32 (v.toNat % 256 ^ n.bytes) :: s.replies ∧
    (hostRead (o + i) .w1 t).replies = BitVec.ofNat 32 (v.toNat / 256 ^ i % 256) :: s.replies

/-! ## Acceptance, completion, interrupt -/

/-- A write of CMD while idle is accepted: CMD holds the word, the phase is BUSY with it, and DONE, ERR and ERRCODE are
cleared, which lowers the interrupt; nothing else changes (60_exceptions.md R351, 10_state.md R39). The number of steps
to the completion is a draw (log 6). -/
def Obligations.IdleCmdWriteIsAccepted : Prop :=
  ∀ (s : State) (v : Word), s.isBusy = false →
    (hostWrite 0x010 .w4 v s =
      { s with
        cmd := v
        phase := .busy v (Config.draw s.draws)
        status := { s.status with done := false, err := false, errcode := .none }
        draws := s.draws + 1 }) ∧
    irq (hostWrite 0x010 .w4 v s) = false ∧ (hostWrite 0x010 .w4 v s).isBusy = true

/-- Every command completes, with success or with exactly one error code, and raises the interrupt if it is enabled
(60_exceptions.md R340, R352, R360). -/
def Obligations.EveryCommandCompletes : Prop :=
  ∀ (i : Instr) (s : State), ∃ t, exec i s = .next t ∧ t.phase = .idle ∧ t.status.done = true ∧
    ((t.status.err = false ∧ t.status.errcode = .none) ∨ (t.status.err = true ∧ t.status.errcode ≠ .none)) ∧
    irq t = s.irqEn ∧ t.irqEn = s.irqEn ∧ t.cmd = s.cmd

/-- An error completion writes what R350 lists and nothing else: the code, LEN_OUT = 0, OUT UNSPEC, and for a failed
construction the key flags (60_exceptions.md R350). That NO_PRIMES keeps the key flags is the model's reading (log 14).
-/
def Obligations.ErrorCompletionWritesOnlyItsList : Prop :=
  ∀ (i : Instr) (s t : State), exec i s = .next t → t.status.err = true →
    (t = { afterError t.status.errcode s with draws := t.draws } ∨
      (t = { afterKeyError t.status.errcode s with draws := t.draws } ∧
        (i = .keygen ∨ i = .keyset) ∧ (t.status.errcode = .config ∨ t.status.errcode = .keygen))) ∧
    ((i = .keygen ∨ i = .keyset) → (t.status.errcode = .config ∨ t.status.errcode = .keygen) →
      t.status.keyValid = false ∧ t.status.qinvNone = false) ∧
    (∀ j < s.params.bufBytes, t.mem.read? (outBase + j) = none) ∧
    (∀ o, (o < outBase ∨ outBase + s.params.bufBytes ≤ o) → t.mem.read? o = s.mem.read? o)

/-- What each command answers right after reset (70_reset_and_hazards.md R403), KEYSET, TDERIVE and ECBDEC too, which
R403 does not list (40_modular.md R171, 42_substitution.md R257, 43_block_cipher.md R298). -/
def Obligations.CommandsAfterReset : Prop :=
  exec .subenc State.reset = .next (afterError .noTable State.reset) ∧
  exec .subdec State.reset = .next (afterError .noTable State.reset) ∧
  exec (.encode .priv) State.reset = .next (afterError .noKey State.reset) ∧
  exec (.encode .pub) State.reset = .next (afterError .noKey State.reset) ∧
  exec (.decode .priv) State.reset = .next (afterError .noKey State.reset) ∧
  exec (.decode .pub) State.reset = .next (afterError .noKey State.reset) ∧
  exec (.encode .x) State.reset = .next (afterError .domain State.reset) ∧
  exec (.encode .peer) State.reset = .next (afterError .domain State.reset) ∧
  exec (.decode .x) State.reset = .next (afterError .domain State.reset) ∧
  exec (.decode .peer) State.reset = .next (afterError .domain State.reset) ∧
  exec .powmod State.reset = .next (afterError .domain State.reset) ∧
  exec .invert State.reset = .next (afterError .domain State.reset) ∧
  exec .keygen State.reset = .next (afterError .noPrimes State.reset) ∧
  exec .keyset State.reset = .next (afterKeyError .config State.reset) ∧
  exec .ecbdec State.reset = .next (afterError .blockLen State.reset) ∧
  exec .xfer State.reset = .next (afterSuccess State.reset) ∧
  (∃ t, exec .tderive State.reset = .next t ∧ t.status.err = false ∧ t.status.tableValid = true ∧ t.lenOut = 0) ∧
  (∃ t, exec .ecbenc State.reset = .next t ∧ t.status.err = false ∧ t.lenOut = 8 ∧ sessionKey State.reset = 0)

/-! ## The modular exponentiation unit -/

/-- POWMOD: R <- A^E mod M, exact, with 0^0 = 1; DOMAIN when M = 0; nothing else changes (40_modular.md R151, R152). -/
def Obligations.PowmodComputesThePower : Prop :=
  encode .powmod = 0x00000001 ∧
  ∀ s : State,
    (s.m = 0 → exec .powmod s = .next (afterError .domain s)) ∧
    (s.m ≠ 0 → exec .powmod s =
      .next (afterSuccess { s with r := BitVec.ofNat 512 (s.a.toNat ^ s.e.toNat % s.m.toNat) }))

/-- The engine's power, and its laws and corner cases (40_modular.md R151, R152, R153). -/
def Obligations.PowmodLaws : Prop :=
  ∀ b c x y m : Nat, 0 < m →
    powMod b x m = b ^ x % m ∧ powMod b x m < m ∧ powMod b 0 m = 1 % m ∧ powMod b x 1 = 0 ∧ (0 < x → powMod 0 x m = 0) ∧
    powMod (b % m) x m = powMod b x m ∧
    powMod b (x + y) m = powMod b x m * powMod b y m % m ∧
    powMod (b * c % m) x m = powMod b x m * powMod c x m % m

/-- INVERT: R is the one number below M whose product with A is 1 modulo M; DOMAIN when M = 0, NOT_INVERTIBLE when
A mod M and M have a common factor; nothing else changes (40_modular.md R155, R156). -/
def Obligations.InvertComputesTheInverse : Prop :=
  encode .invert = 0x00000002 ∧
  ∀ s : State,
    (s.m = 0 → exec .invert s = .next (afterError .domain s)) ∧
    (s.m ≠ 0 → Nat.gcd (s.a.toNat % s.m.toNat) s.m.toNat ≠ 1 →
      exec .invert s = .next (afterError .notInvertible s)) ∧
    (s.m ≠ 0 → Nat.gcd (s.a.toNat % s.m.toNat) s.m.toNat = 1 →
      ∃ t, t < s.m.toNat ∧ s.a.toNat * t % s.m.toNat = 1 % s.m.toNat ∧
        (∀ u, u < s.m.toNat → s.a.toNat * u % s.m.toNat = 1 % s.m.toNat → u = t) ∧
        exec .invert s = .next (afterSuccess { s with r := BitVec.ofNat 512 t }))

/-- `primes(lo, hi)` is the ascending list of exactly the primes in `[lo, hi)` (00_scope.md R23). -/
def Obligations.PrimesOfARange : Prop :=
  ∀ lo hi : Nat, (primes lo hi).Pairwise (· < ·) ∧
    ∀ v, v ∈ primes lo hi ↔ lo ≤ v ∧ v < hi ∧ Nat.Prime v

/-- KEYSET with legal operands: the derived registers hold the KeyPair of KP, KQ and KE, KEY_VALID = 1, QINV_NONE tells
whether q has an inverse modulo p, and nothing else changes (40_modular.md R157, R158, R160, R161, R170). -/
def Obligations.KeysetConstructsTheKey : Prop :=
  encode .keyset = 0x00000004 ∧
  (∀ p q : Nat, phiOf p p = p * p - p ∧ (p ≠ q → phiOf p q = (p - 1) * (q - 1))) ∧
  ∀ s : State, 2 ≤ s.kp.toNat → 2 ≤ s.kq.toNat → s.kp.toNat * s.kq.toNat < 2 ^ s.params.nbits →
    2 ^ s.chunkBits.toNat < s.kp.toNat * s.kq.toNat →
    Nat.gcd (s.ke.toNat % phiOf s.kp.toNat s.kq.toNat) (phiOf s.kp.toNat s.kq.toNat) = 1 →
    ∃ n d dP dQ qinv noQinv, IsKey s.kp.toNat s.kq.toNat s.ke.toNat n d dP dQ qinv noQinv ∧
      exec .keyset s = .next (afterSuccess
        { s with
          kn := BitVec.ofNat 512 n
          kd := BitVec.ofNat 512 d
          kdp := BitVec.ofNat 512 dP
          kdq := BitVec.ofNat 512 dQ
          kqinv := BitVec.ofNat 512 qinv
          status := { s.status with keyValid := true, qinvNone := noQinv } })

/-- KEYSET's errors, in the order of their checks (40_modular.md R157, R162, R170, R171; 60_exceptions.md R343). -/
def Obligations.KeysetReportsItsErrors : Prop :=
  ∀ s : State,
    let p := s.kp.toNat
    let q := s.kq.toNat
    ((p < 2 ∨ q < 2 ∨ 2 ^ s.params.nbits ≤ p * q ∨ p * q ≤ 2 ^ s.chunkBits.toNat) →
      exec .keyset s = .next (afterKeyError .config s)) ∧
    (2 ≤ p → 2 ≤ q → p * q < 2 ^ s.params.nbits → 2 ^ s.chunkBits.toNat < p * q →
      Nat.gcd (s.ke.toNat % phiOf p q) (phiOf p q) ≠ 1 →
      exec .keyset s = .next (afterKeyError .keygen s))

/-- KEYGEN: NO_PRIMES for a range without primes; otherwise three independent draws, each an index below the number of
primes, and for EVERY triple of indices the key of the three primes or the error of its construction (40_modular.md
R163 to R165). How a draw becomes an index is the model's choice (log 5), and that NO_PRIMES keeps
KEY_VALID and QINV_NONE is its reading (log 14). -/
def Obligations.KeygenConstructsFromThreeDraws : Prop :=
  encode .keygen = 0x00000003 ∧
  ∀ s : State,
    let ps := primes s.plo.toNat s.phi.toNat
    (ps = [] → exec .keygen s = .next (afterError .noPrimes s)) ∧
    (ps ≠ [] → exec .keygen s = .next
      (keygenWith ps (Config.draw s.draws % ps.length) (Config.draw (s.draws + 1) % ps.length)
        (Config.draw (s.draws + 2) % ps.length) { s with draws := s.draws + 3 })) ∧
    (∀ (ip iq ie p q e : Nat) (u : State), ps[ip]? = some p → ps[iq]? = some q → ps[ie]? = some e →
      (p * q ≤ 2 ^ u.chunkBits.toNat → keygenWith ps ip iq ie u = afterKeyError .config u) ∧
      (2 ^ u.chunkBits.toNat < p * q → Nat.gcd (e % phiOf p q) (phiOf p q) ≠ 1 →
        keygenWith ps ip iq ie u = afterKeyError .keygen u) ∧
      (2 ^ u.chunkBits.toNat < p * q → Nat.gcd (e % phiOf p q) (phiOf p q) = 1 →
        ∃ n d dP dQ qinv noQinv, IsKey p q e n d dP dQ qinv noQinv ∧
          keygenWith ps ip iq ie u = afterSuccess
            { u with
              kp := BitVec.ofNat 512 p
              kq := BitVec.ofNat 512 q
              ke := BitVec.ofNat 512 e
              kn := BitVec.ofNat 512 n
              kd := BitVec.ofNat 512 d
              kdp := BitVec.ofNat 512 dP
              kdq := BitVec.ofNat 512 dQ
              kqinv := BitVec.ofNat 512 qinv
              status := { u.status with keyValid := true, qinvNone := noQinv } }))

/-- A range with exactly one prime P never yields a key: CONFIG if 2^k ≥ P², else KEYGEN (40_modular.md R166). -/
def Obligations.OnePrimeRangeNeverYieldsAKey : Prop :=
  ∀ (s : State) (P : Nat), primes s.plo.toNat s.phi.toNat = [P] →
    exec .keygen s = .next (afterKeyError (if 2 ^ s.chunkBits.toNat < P * P then .keygen else .config)
      { s with draws := s.draws + 3 })

/-- The key pair works: for two different primes and an exponent with an inverse, POWMOD with `d` undoes POWMOD with `e`
on every residue (40_modular.md R153, for `p ≠ q`). -/
def Obligations.KeyPairRoundTrip : Prop :=
  ∀ p q e n d dP dQ qinv x : Nat, ∀ noQinv : Bool, Nat.Prime p → Nat.Prime q → p ≠ q →
    IsKey p q e n d dP dQ qinv noQinv → x < n → powMod (powMod x e n) d n = x

/-! ## The bit codec -/

/-- Padding is the bits, then the sentinel `r` times, the least `r ≥ 1` that reaches a multiple of `k`; stripping removes
the last run of equal bits, all of a string that is one run (41_bitcodec.md R204, R205, R206). -/
def Obligations.PaddingReachesAChunkBoundary : Prop :=
  (∀ (b : List Bool) (c : Bool) (k : Nat), 1 ≤ k →
    ∃ r, padBits (b ++ [c]) k = b ++ [c] ++ List.replicate r (!c) ∧ 1 ≤ r ∧ r ≤ k ∧
      (b.length + 1 + r) % k = 0 ∧ (∀ r', 1 ≤ r' → r' < r → (b.length + 1 + r') % k ≠ 0) ∧
      stripBits (padBits (b ++ [c]) k) = b ++ [c]) ∧
  (∀ (b : List Bool) (c : Bool) (r : Nat), 1 ≤ r → stripBits (b ++ [c] ++ List.replicate r (!c)) = b ++ [c]) ∧
  ∀ (c : Bool) (r : Nat), stripBits (List.replicate r c) = []

/-- ENCODE with usable operands, for every key select: OUT gets one `w`-bit chunk in character form for each `k`-bit
chunk of the padded input, LEN_OUT = (8L div k + 1) · w, and nothing else changes (41_bitcodec.md R210, R212). The
pairs of the key selects are those of 30_encoding.md R123 and 41_bitcodec.md R201. The draw for each undefined byte of
IN is the model's choice (log 12). -/
def Obligations.EncodeWritesTheCipherChunks : Prop :=
  (∀ s : State,
    keySelect .x s = .ok (s.e.toNat, s.m.toNat) ∧ keySelect .peer s = .ok (s.pe.toNat, s.pn.toNat) ∧
    (s.status.keyValid = true →
      keySelect .priv s = .ok (s.kd.toNat, s.kn.toNat) ∧ keySelect .pub s = .ok (s.ke.toNat, s.kn.toNat))) ∧
  ∀ (s : State) (ks : KSel) (ex md : Nat),
    let L := s.lenIn.toNat
    let k := s.chunkBits.toNat
    let chunks := pieces k (8 * L / k + 1) (padBits (bytesToBits (inBytes s)) k)
    L ≤ s.params.bufBytes → keySelect ks s = .ok (ex, md) → 1 ≤ k → 2 ^ k < md → L ≠ 0 →
    (8 * L / k + 1) * bitlen md ≤ s.params.bufBytes →
    exec (.encode ks) s = .next (afterSuccess
      { s with
        mem := s.mem.writeMany outBase
          ((chunks.flatMap fun ch => binW (bitlen md) (bitsVal ch ^ ex % md)).map bitChar)
        lenOut := BitVec.ofNat 16 ((8 * L / k + 1) * bitlen md)
        draws := s.draws + undefinedCount (inCells s) })

/-- ENCODE's errors, in the order of their checks (41_bitcodec.md R201, R203, R211, R212; 60_exceptions.md R343). The
draw for each undefined byte of IN is the model's choice (log 12). -/
def Obligations.EncodeReportsItsFirstError : Prop :=
  ∀ (s : State) (ks : KSel) (ex md : Nat),
    let L := s.lenIn.toNat
    let k := s.chunkBits.toNat
    (s.params.bufBytes < L → exec (.encode ks) s = .next (afterError .length s)) ∧
    (L ≤ s.params.bufBytes → (ks = .priv ∨ ks = .pub) → s.status.keyValid = false →
      exec (.encode ks) s = .next (afterError .noKey s)) ∧
    (L ≤ s.params.bufBytes → keySelect ks s = .ok (ex, md) →
      (md = 0 → exec (.encode ks) s = .next (afterError .domain s)) ∧
      (md ≠ 0 → k = 0 ∨ md ≤ 2 ^ k → exec (.encode ks) s = .next (afterError .config s)) ∧
      (1 ≤ k → 2 ^ k < md → L = 0 → exec (.encode ks) s = .next (afterError .emptyInput s)) ∧
      (1 ≤ k → 2 ^ k < md → L ≠ 0 → s.params.bufBytes < (8 * L / k + 1) * bitlen md →
        exec (.encode ks) s = .next
          (afterError .length { s with draws := s.draws + undefinedCount (inCells s) })))

/-- DECODE, for every key select, of an input that is the character form of a whole number of chunks, when every
chunk's power is below 2^k and what stripping leaves is a whole number of bytes, at least one: OUT gets those bytes,
LEN_OUT their number, and nothing else changes (41_bitcodec.md R220). The draw for each undefined byte of IN is the
model's choice (log 12). -/
def Obligations.DecodeWritesThePlaintext : Prop :=
  ∀ (s : State) (ks : KSel) (ex md : Nat) (bits : List Bool),
    let k := s.chunkBits.toNat
    let ys := (pieces (bitlen md) (bits.length / bitlen md) bits).map fun ch => bitsVal ch ^ ex % md
    let rest := stripBits (ys.flatMap (binW k))
    s.lenIn.toNat ≤ s.params.bufBytes → inBytes s = bits.map bitChar → keySelect ks s = .ok (ex, md) →
    1 ≤ k → 2 ^ k < md → bits.length % bitlen md = 0 → (∀ y ∈ ys, y < 2 ^ k) →
    rest ≠ [] → rest.length % 8 = 0 →
    exec (.decode ks) s = .next (afterSuccess
      { s with
        mem := s.mem.writeMany outBase (bitsToBytes rest)
        lenOut := BitVec.ofNat 16 (rest.length / 8)
        draws := s.draws + undefinedCount (inCells s) })

/-- DECODE's errors, in the order of their checks (41_bitcodec.md R201, R203, R222 to R224; 60_exceptions.md R343). The
draw for each undefined byte of IN is the model's choice (log 12). -/
def Obligations.DecodeReportsItsFirstError : Prop :=
  ∀ (s : State) (ks : KSel) (ex md : Nat),
    let k := s.chunkBits.toNat
    let w := bitlen md
    let took := { s with draws := s.draws + undefinedCount (inCells s) }
    (s.params.bufBytes < s.lenIn.toNat → exec (.decode ks) s = .next (afterError .length s)) ∧
    (s.lenIn.toNat ≤ s.params.bufBytes → (ks = .priv ∨ ks = .pub) → s.status.keyValid = false →
      exec (.decode ks) s = .next (afterError .noKey s)) ∧
    (s.lenIn.toNat ≤ s.params.bufBytes → keySelect ks s = .ok (ex, md) →
      (md = 0 → exec (.decode ks) s = .next (afterError .domain s)) ∧
      (md ≠ 0 → k = 0 ∨ md ≤ 2 ^ k → exec (.decode ks) s = .next (afterError .config s)) ∧
      (1 ≤ k → 2 ^ k < md →
        (s.lenIn = 0 → exec (.decode ks) s = .next (afterError .decUnderflow s)) ∧
        (s.lenIn ≠ 0 → (∃ b ∈ inBytes s, b ≠ 0x30 ∧ b ≠ 0x31) ∨ s.lenIn.toNat % w ≠ 0 →
          exec (.decode ks) s = .next (afterError .decFormat took)) ∧
        (∀ bits, inBytes s = bits.map bitChar → bits ≠ [] → bits.length % w = 0 →
          let ys := (pieces w (bits.length / w) bits).map fun ch => bitsVal ch ^ ex % md
          let rest := stripBits (ys.flatMap (binW k))
          ((∃ y ∈ ys, 2 ^ k ≤ y) → exec (.decode ks) s = .next (afterError .decOverflow took)) ∧
          ((∀ y ∈ ys, y < 2 ^ k) → rest = [] → exec (.decode ks) s = .next (afterError .decUnderflow took)) ∧
          ((∀ y ∈ ys, y < 2 ^ k) → rest.length % 8 ≠ 0 →
            exec (.decode ks) s = .next (afterError .decFormat took)))))

/-- The round trip (41_bitcodec.md R225): ENCODE with one exponent, XFER and DECODE with the other return exactly the
input, for every non-empty byte string whose encoding fits, whatever bit run it ends in. -/
def Obligations.CodecRoundTrip : Prop :=
  ∀ (s : State) (m : List Byte) (ks₁ ks₂ : KSel) (ex₁ ex₂ md : Nat),
    s.params.wellFormed = true → inputIs s m → m ≠ [] → m.length ≤ s.params.bufBytes →
    keySelect ks₁ s = .ok (ex₁, md) → keySelect ks₂ s = .ok (ex₂, md) →
    1 ≤ s.chunkBits.toNat → 2 ^ s.chunkBits.toNat < md →
    (∀ v < 2 ^ s.chunkBits.toNat, (v ^ ex₁ % md) ^ ex₂ % md = v) →
    (8 * m.length / s.chunkBits.toNat + 1) * bitlen md ≤ s.params.bufBytes →
    ∃ t₁ t₂ t₃, exec (.encode ks₁) s = .next t₁ ∧ exec .xfer t₁ = .next t₂ ∧ exec (.decode ks₂) t₂ = .next t₃ ∧
      t₁.status.err = false ∧ t₂.status.err = false ∧ t₃.status.err = false ∧ outputIs t₃ m

/-! ## The substitution unit -/

/-- A sort round is a stable ascending sort by `a mod (x + i)` (42_substitution.md R252): the elements stay, their keys
rise, and the elements of one key keep their order. -/
def Obligations.SortRoundIsStable : Prop :=
  ∀ (a i : Nat) (t : List Nat),
    (sortByKey (sortKey a i) t).Perm t ∧
    (sortByKey (sortKey a i) t).Pairwise (fun x y => a % (x + i) ≤ a % (y + i)) ∧
    ∀ v, (sortByKey (sortKey a i) t).filter (fun x => a % (x + i) == v) = t.filter (fun x => a % (x + i) == v)

/-- The table is derived from the identity by the sort rounds 1, 2, and so on, in this order (42_substitution.md R253,
R254). It is a permutation of 0 to 255, the identity for a = 0 and a = 1, rounds beyond `a` leave it unchanged, and for
a = 5 the first two rounds give the tables of R255. -/
def Obligations.DerivedTableIsAPermutation : Prop :=
  (∀ rounds a : Nat,
    deriveTable 0 a = List.range 256 ∧
    deriveTable (rounds + 1) a = sortByKey (sortKey a (rounds + 1)) (deriveTable rounds a) ∧
    (deriveTable rounds a).Perm (List.range 256) ∧
    deriveTable rounds 0 = List.range 256 ∧ deriveTable rounds 1 = List.range 256 ∧
    (a ≤ rounds → deriveTable rounds a = deriveTable a a)) ∧
  deriveTable 1 5 = [0, 4, 1, 3, 2] ++ List.range' 5 251 ∧
  deriveTable 2 5 = [3, 0, 2, 1, 4] ++ List.range' 5 251

/-- TDERIVE (42_substitution.md R256, R257): LENGTH leaves the tables; otherwise FWD holds the table of the password, INV
its inverse, TABLE_VALID = 1, every other byte of memory is as before, and nothing else changes, OUT and LEN_OUT
neither. The table of a password is derived in TABLE_ROUNDS rounds from the little-endian number of the first eight
bytes of its digest (R251, R254). The draw for each undefined byte of IN is the model's choice (log 12). -/
def Obligations.TderiveWritesBothTables : Prop :=
  encode .tderive = 0x00000007 ∧
  (∀ (p : Params) (password : List Byte),
    let h := pwHash p.pwHash password
    passwordTable p password = deriveTable p.tableRounds
      (h[0].toNat + 2 ^ 8 * h[1].toNat + 2 ^ 16 * h[2].toNat + 2 ^ 24 * h[3].toNat + 2 ^ 32 * h[4].toNat +
        2 ^ 40 * h[5].toNat + 2 ^ 48 * h[6].toNat + 2 ^ 56 * h[7].toNat)) ∧
  ∀ s : State,
    (s.params.bufBytes < s.lenIn.toNat → exec .tderive s = .next (afterError .length s)) ∧
    (s.lenIn.toNat ≤ s.params.bufBytes →
      ∃ mem, exec .tderive s = .next (afterSuccess
          { s with
            mem := mem
            status := { s.status with tableValid := true }
            draws := s.draws + undefinedCount (inCells s) }) ∧
        tablesInverse mem ∧
        (∀ x < 256, (mem.read? (fwdBase + x)).map BitVec.toNat = (passwordTable s.params (inBytes s))[x]?) ∧
        (∀ o, (o < fwdBase ∨ invBase + 256 ≤ o) → mem.read? o = s.mem.read? o))

/-- SUBENC and SUBDEC (42_substitution.md R260, R262, R264): LENGTH, then NO_TABLE; otherwise OUT[j] is the table entry
of IN[j], LEN_OUT = LEN_IN, and nothing else changes. The draw for each undefined byte of IN is the model's choice (log
12). -/
def Obligations.SubstitutionLooksUpEachByte : Prop :=
  encode .subenc = 0x00000008 ∧ encode .subdec = 0x00000009 ∧
  ∀ (s : State) (i : Instr) (base : Nat), (i = .subenc ∧ base = fwdBase) ∨ (i = .subdec ∧ base = invBase) →
    (s.params.bufBytes < s.lenIn.toNat → exec i s = .next (afterError .length s)) ∧
    (s.lenIn.toNat ≤ s.params.bufBytes → s.status.tableValid = false →
      exec i s = .next (afterError .noTable s)) ∧
    (∀ out : List Byte, s.lenIn.toNat ≤ s.params.bufBytes → s.status.tableValid = true →
      (inBytes s).map (fun b => s.mem.read? (base + b.toNat)) = out.map some →
      exec i s = .next (afterSuccess
        { s with
          mem := s.mem.writeMany outBase out
          lenOut := s.lenIn
          draws := s.draws + undefinedCount (inCells s) }))

/-- The round trip of the tables (42_substitution.md R263): SUBENC, XFER and SUBDEC return the input, for every byte
string that fits the buffer, once TDERIVE has made the tables. -/
def Obligations.SubstitutionRoundTrip : Prop :=
  ∀ (s : State) (m : List Byte), s.params.wellFormed = true → s.status.tableValid = true → TableInv s →
    inputIs s m → m.length ≤ s.params.bufBytes →
    ∃ t₁ t₂ t₃, exec .subenc s = .next t₁ ∧ exec .xfer t₁ = .next t₂ ∧ exec .subdec t₂ = .next t₃ ∧
      t₁.status.err = false ∧ t₂.status.err = false ∧ t₃.status.err = false ∧ outputIs t₃ m

/-! ## The block-cipher unit -/

/-- The inverse law of the block cipher, DES and every other (43_block_cipher.md R290). -/
def Obligations.BlockDecInvertsBlockEnc : Prop :=
  ∀ (c : BlockCipher) (key block : BitVec 64),
    blockDec c key (blockEnc c key block) = block ∧ blockEnc c key (blockDec c key block) = block

/-- PKCS5 padding (43_block_cipher.md R294): between 1 and 8 bytes, each of that value, up to a whole block; unpadding
undoes it. -/
def Obligations.BlockPaddingRoundTrip : Prop :=
  ∀ m : List Byte, unpadBytes (padBytes m) = some m ∧ (padBytes m).length % 8 = 0 ∧
    ∃ n, 1 ≤ n ∧ n ≤ 8 ∧ padBytes m = m ++ List.replicate n (BitVec.ofNat 8 n)

/-- ECB mode (43_block_cipher.md R293): block `b` of the output is the cipher of block `b` of the input, on its own. A
block has its byte 0 in its most significant bits (R291). -/
def Obligations.EcbActsBlockByBlock : Prop :=
  (∀ (f : BitVec 64 → BitVec 64) (bs : List Byte) (b : Nat), 8 * b + 8 ≤ bs.length →
    (ecbMap f bs).length = bs.length / 8 * 8 ∧
    ((ecbMap f bs).drop (8 * b)).take 8 = bytesOfBlock (f (blockOfBytes ((bs.drop (8 * b)).take 8)))) ∧
  ∀ (block : BitVec 64), blockOfBytes (bytesOfBlock block) = block ∧ (bytesOfBlock block).length = 8 ∧
    ∀ j < 8, (bytesOfBlock block)[j]? = some (block.extractLsb' (56 - 8 * j) 8)

/-- ECBENC (43_block_cipher.md R295, R296): LENGTH for the input or for the padded output; otherwise OUT gets the
cipher blocks of the padded input under the session key, LEN_OUT its length, and nothing else changes. The session key
is the bytes K8[0] to K8[7] of SKEY_LO and SKEY_HI, K8[0] the most significant (10_state.md R47, 43_block_cipher.md R291,
R292). The draw for each undefined byte of IN is the model's choice (log 12). -/
def Obligations.EcbencEncryptsThePaddedInput : Prop :=
  encode .ecbenc = 0x0000000A ∧
  (∀ (s : State) (j : Nat),
    (j < 4 → (sessionKey s).extractLsb' (56 - 8 * j) 8 = s.skeyLo.extractLsb' (8 * j) 8) ∧
    (4 ≤ j → j < 8 → (sessionKey s).extractLsb' (56 - 8 * j) 8 = s.skeyHi.extractLsb' (8 * (j - 4)) 8)) ∧
  ∀ s : State,
    let L := s.lenIn.toNat
    (s.params.bufBytes < L → exec .ecbenc s = .next (afterError .length s)) ∧
    (L ≤ s.params.bufBytes → s.params.bufBytes < L + (8 - L % 8) → exec .ecbenc s = .next
      (afterError .length { s with draws := s.draws + undefinedCount (inCells s) })) ∧
    (L + (8 - L % 8) ≤ s.params.bufBytes → exec .ecbenc s = .next (afterSuccess
      { s with
        mem := s.mem.writeMany outBase
          (ecbMap (blockEnc s.params.cipher (sessionKey s)) (padBytes (inBytes s)))
        lenOut := BitVec.ofNat 16 (L + (8 - L % 8))
        draws := s.draws + undefinedCount (inCells s) }))

/-- ECBDEC (43_block_cipher.md R297, R298): LENGTH, BLOCK_LEN, PAD_ERROR in this order; otherwise OUT gets the unpadded
plaintext, LEN_OUT its length, and nothing else changes. The draw for each undefined byte of IN is the model's choice
(log 12). -/
def Obligations.EcbdecDecryptsAndUnpads : Prop :=
  encode .ecbdec = 0x0000000B ∧
  ∀ s : State,
    let L := s.lenIn.toNat
    let plain := ecbMap (blockDec s.params.cipher (sessionKey s)) (inBytes s)
    let took := { s with draws := s.draws + undefinedCount (inCells s) }
    (s.params.bufBytes < L → exec .ecbdec s = .next (afterError .length s)) ∧
    (L ≤ s.params.bufBytes → L = 0 ∨ L % 8 ≠ 0 → exec .ecbdec s = .next (afterError .blockLen s)) ∧
    (L ≤ s.params.bufBytes → L ≠ 0 → L % 8 = 0 →
      ((¬ ∃ m n, 1 ≤ n ∧ n ≤ 8 ∧ plain = m ++ List.replicate n (BitVec.ofNat 8 n)) →
        exec .ecbdec s = .next (afterError .padError took)) ∧
      (∀ m n, 1 ≤ n → n ≤ 8 → plain = m ++ List.replicate n (BitVec.ofNat 8 n) →
        exec .ecbdec s = .next (afterSuccess
          { took with mem := s.mem.writeMany outBase m, lenOut := BitVec.ofNat 16 (L - n) })))

/-- The round trip of the block-cipher unit (43_block_cipher.md R299): ECBENC, XFER and ECBDEC under one key return the
input, for every byte string whose padding fits the buffer and for every block cipher. -/
def Obligations.EcbRoundTrip : Prop :=
  ∀ (s : State) (m : List Byte), s.params.wellFormed = true → inputIs s m →
    m.length + (8 - m.length % 8) ≤ s.params.bufBytes →
    ∃ t₁ t₂ t₃, exec .ecbenc s = .next t₁ ∧ exec .xfer t₁ = .next t₂ ∧ exec .ecbdec t₂ = .next t₃ ∧
      t₁.status.err = false ∧ t₂.status.err = false ∧ t₃.status.err = false ∧ outputIs t₃ m

/-! ## Transfer -/

/-- XFER (44_transfer.md R330, R331): IN gets OUT below LEN_OUT, LEN_IN gets LEN_OUT, every other byte of memory is as
before, OUT's too, and nothing else changes; it has no error. -/
def Obligations.XferCopiesOutToIn : Prop :=
  encode .xfer = 0x0000000C ∧
  ∀ (s : State) (out : List Byte), s.params.wellFormed = true → out.length ≤ s.params.bufBytes → outputIs s out →
    ∃ mem, exec .xfer s = .next (afterSuccess { s with mem := mem, lenIn := s.lenOut }) ∧
      holdsBytes mem inBase out ∧
      (∀ o, (o < inBase ∨ inBase + out.length ≤ o) → mem.read? o = s.mem.read? o)

/-! ## Invariants -/

/-- Every invariant holds at reset. Memory's canonical form is the model's choice (log 11). -/
def Obligations.InvariantsHoldAtReset : Prop :=
  ParamsInv State.reset ∧ MemoryInv State.reset ∧ RangeInv State.reset ∧ OutputInv State.reset ∧
    TableInv State.reset ∧ KeyInv State.reset ∧ FlagsInv State.reset ∧ CommandInv State.reset

/-- A step changes no parameter, gives no draw twice, and takes arrivals only from the front of the port. The fields it
names are the model's own (log 1, log 5, log 7). -/
def Obligations.StepKeepsParamsAndOrder : Prop :=
  ∀ s t : State, step s = .next t →
    t.params = s.params ∧ s.draws ≤ t.draws ∧ (t.inputs = s.inputs ∨ ∃ ev, s.inputs = ev :: t.inputs) ∧
      (t.replies = s.replies ∨ ∃ v, t.replies = v :: s.replies)

/-- Every step keeps memory in its canonical form, with bytes of FWD, INV, IN and OUT only. Memory's canonical form is
the model's choice (log 11). -/
def Obligations.StepKeepsMemoryForm : Prop :=
  ∀ s t : State, ParamsInv s → OutputInv s → MemoryInv s → step s = .next t → MemoryInv t

/-- Every step keeps every big-number register below 2^NBITS (10_state.md R40). -/
def Obligations.StepKeepsRegisterRange : Prop :=
  ∀ s t : State, ParamsInv s → RangeInv s → step s = .next t → RangeInv t

/-- Every step keeps LEN_OUT at most BUF_BYTES and OUT defined below it (44_transfer.md R330: always ≤ BUF_BYTES). -/
def Obligations.StepKeepsOutputDefined : Prop :=
  ∀ s t : State, ParamsInv s → OutputInv s → step s = .next t → OutputInv t

/-- Every step keeps the tables a bijection and its inverse while TABLE_VALID = 1 (10_state.md R49). -/
def Obligations.StepKeepsTheTables : Prop :=
  ∀ s t : State, TableInv s → step s = .next t → TableInv t

/-- Every step keeps the invariants of the KeyPair while KEY_VALID = 1 (10_state.md R43). -/
def Obligations.StepKeepsTheKeyPair : Prop :=
  ∀ s t : State, ParamsInv s → KeyInv s → step s = .next t → KeyInv t

/-- Every step keeps ERR in agreement with ERRCODE, and no completion is reported while a command runs
(60_exceptions.md R341, R351; 70_reset_and_hazards.md R421). Every step keeps CMD the running command's word
(10_state.md R39, R51). -/
def Obligations.StepKeepsTheFlags : Prop :=
  (∀ s t : State, FlagsInv s → step s = .next t → FlagsInv t) ∧
  ∀ s t : State, CommandInv s → step s = .next t → CommandInv t

/-! ## Strings in the buffers -/

/-- Bit strings and byte strings (00_scope.md R13, R15, R16; 20_memory.md R84, R101, R102): the renderings run from the
most significant bit, the characters of a bit are 0x30 and 0x31, the input of a command is IN below LEN_IN, and a string
is written to a buffer from its first index up, changing no other byte. Of bytes that are read, each defined one is read
as it is, at its place (20_memory.md R89); that each undefined one takes a draw of its own, in their order, is the model's
choice (log 11, log 12). -/
def Obligations.StringsInTheBuffers : Prop :=
  (∀ w v : Nat, (binW w v).length = w ∧ (∀ i < w, (binW w v)[i]? = some (v.testBit (w - 1 - i))) ∧
    (v < 2 ^ w → bitsVal (binW w v) = v)) ∧
  (∀ v : Nat, v < 2 ^ bitlen v ∧ (v ≠ 0 → 2 ^ (bitlen v - 1) ≤ v) ∧ bitlen 0 = 0) ∧
  (∀ m : List Byte, (bytesToBits m).length = 8 * m.length ∧ bitsToBytes (bytesToBits m) = m ∧
    ∀ j (h : j < m.length), ∀ i < 8, (bytesToBits m)[8 * j + i]? = some (m[j].getLsbD (7 - i))) ∧
  (∀ (k c j : Nat) (b : List Bool), j < c → (pieces k c b)[j]? = some ((b.drop (j * k)).take k)) ∧
  bitChar false = 0x30 ∧ bitChar true = 0x31 ∧
  (∀ (s : State) (m : List Byte), inputIs s m → inBytes s = m ∧ undefinedCount (inCells s) = 0) ∧
  (∀ (k : Nat) (cells : List (Option Byte)), (settle k cells).length = cells.length ∧
    (∀ (i : Nat) (b : Byte), cells[i]? = some (some b) → (settle k cells)[i]? = some b) ∧
    (∀ i : Nat, cells[i]? = some none → (settle k cells)[i]? =
      some (BitVec.ofNat 8 (Config.draw (k + ((cells.take i).filter (fun c => c == none)).length)))) ∧
    undefinedCount cells = (cells.filter (fun c => c == none)).length) ∧
  (∀ s : State, inBytes s = settle s.draws (inCells s) ∧ (inCells s).length = s.lenIn.toNat ∧
    ∀ j < s.lenIn.toNat, (inCells s)[j]? = some (s.mem.read? (inBase + j))) ∧
  ∀ (m : Memory) (o a : Nat) (bs : List Byte), (m.writeMany o bs).read? a =
    if o ≤ a ∧ a < o + bs.length then bs[a - o]? else m.read? a
end

