-- ==== Sys2Proof/Laws/Arith.lean ====
section
/-! SUPPORT. The arithmetic algorithms compute what the spec's mathematics says. -/

namespace Sys2Proof.Machine

/-! ## Square-and-multiply -/

theorem powModLoop_eq (m fuel b e acc : Nat) (he : e < 2 ^ fuel) (hacc : acc % m = acc) :
    powModLoop m fuel b e acc = acc * b ^ e % m := by
  induction fuel generalizing b e acc with
  | zero =>
    have : e = 0 := by simpa using he
    simp [powModLoop, this, hacc]
  | succ fuel ih =>
    rw [powModLoop]
    by_cases h : e = 0
    · simp [h, hacc]
    · rw [if_neg h]
      have he2 : e / 2 < 2 ^ fuel := by rw [Nat.pow_succ] at he; omega
      have hsq : (b * b % m) ^ (e / 2) % m = b ^ (2 * (e / 2)) % m := by
        rw [← Nat.pow_mod, ← Nat.pow_two, ← Nat.pow_mul]
      by_cases ho : e % 2 = 1
      · rw [if_pos ho, ih _ _ _ he2 (Nat.mod_mod ..), Nat.mul_mod, hsq, Nat.mod_mod, ← Nat.mul_mod, Nat.mul_assoc,
          ← Nat.pow_succ', show (2 * (e / 2)).succ = e by omega]
      · rw [if_neg ho, ih _ _ _ he2 hacc, Nat.mul_mod, hsq, ← Nat.mul_mod, show 2 * (e / 2) = e by omega]

/-- Square-and-multiply computes the power residue. -/
theorem powMod_eq (b e m : Nat) : powMod b e m = b ^ e % m := by
  unfold powMod
  rw [powModLoop_eq _ _ _ _ _ Nat.lt_log2_self (Nat.mod_mod ..), Nat.mod_mul_mod, Nat.one_mul, ← Nat.pow_mod]

theorem powMod_lt (b e : Nat) {m : Nat} (hm : 0 < m) : powMod b e m < m := by
  rw [powMod_eq]
  exact Nat.mod_lt _ hm

/-! ## The extended Euclidean algorithm -/

theorem euclidLoop_spec (a m : Nat) (fuel r0 r1 : Nat) (t0 t1 : Int) (hf : r1 < fuel)
    (h0 : (a : Int) * t0 ≡ r0 [ZMOD m]) (h1 : (a : Int) * t1 ≡ r1 [ZMOD m]) :
    (euclidLoop fuel r0 r1 t0 t1).1 = Nat.gcd r0 r1 ∧
      (a : Int) * (euclidLoop fuel r0 r1 t0 t1).2 ≡ Nat.gcd r0 r1 [ZMOD m] := by
  induction fuel generalizing r0 r1 t0 t1 with
  | zero => omega
  | succ fuel ih =>
    rw [euclidLoop]
    by_cases h : r1 = 0
    · simp [h, h0]
    · rw [if_neg h, Nat.gcd_comm r0 r1, Nat.gcd_rec r1 r0, Nat.gcd_comm (r0 % r1) r1]
      refine ih _ _ _ _ (by have := Nat.mod_lt r0 (Nat.pos_of_ne_zero h); omega) h1 ?_
      have e : ((r0 % r1 : Nat) : Int) = r0 - r1 * (r0 / r1 : Nat) := by
        have := Nat.mod_add_div r0 r1
        have h2 : ((r0 % r1 : Nat) : Int) + r1 * (r0 / r1 : Nat) = r0 := by exact_mod_cast this
        linarith
      rw [e, show (a : Int) * (t0 - (r0 / r1 : Nat) * t1) = a * t0 - (a * t1) * (r0 / r1 : Nat) by ring]
      exact h0.sub (h1.mul_right _)

/-- The modular inverse, where there is one: the result is reduced and its product with `a` is 1 modulo `m`. -/
theorem modInv_spec {a m : Nat} (hm : 0 < m) (h : Nat.gcd (a % m) m = 1) :
    modInv a m < m ∧ a * modInv a m % m = 1 % m := by
  have hm' : (m : Int) ≠ 0 := by omega
  have key := (euclidLoop_spec a m (m + 1) m (a % m) 0 1
    (by have := Nat.mod_lt a hm; omega) (by simp [Int.ModEq]) (by simp [Int.ModEq])).2
  rw [Nat.gcd_comm, h] at key
  unfold modInv
  set t := (euclidLoop (m + 1) m (a % m) 0 1).2
  have h0 : 0 ≤ t % (m : Int) := Int.emod_nonneg t hm'
  have h1 : t % (m : Int) < m := Int.emod_lt_of_pos t (by omega)
  have ht : ((t % (m : Int)).toNat : Int) = t % m := Int.toNat_of_nonneg h0
  refine ⟨by omega, ?_⟩
  have : ((a * (t % (m : Int)).toNat : Nat) : Int) ≡ ((1 : Nat) : Int) [ZMOD m] := by
    push_cast
    rw [ht]
    exact ((Int.ModEq.refl (a : Int)).mul (Int.mod_modEq t m)).trans (by simpa using key)
  exact (Int.natCast_modEq_iff.1 this)

/-- A number coprime to the modulus has at most one inverse below it. -/
theorem inverse_unique {a m t u : Nat} (h : Nat.gcd (a % m) m = 1) (ht : t < m) (hu : u < m)
    (hat : a * t % m = 1 % m) (hau : a * u % m = 1 % m) : u = t := by
  have hc : Nat.gcd m a = 1 := by rw [Nat.gcd_rec]; exact h
  have : u ≡ t [MOD m] := Nat.ModEq.cancel_left_of_coprime hc (hau.trans hat.symm)
  rwa [Nat.ModEq, Nat.mod_eq_of_lt hu, Nat.mod_eq_of_lt ht] at this

/-! ## Primes -/

theorem noDivisorFrom_iff (fuel d v : Nat) (hf : v < fuel + d) (hd : 2 ≤ d) :
    noDivisorFrom fuel d v = true ↔ ∀ x, d ≤ x → x * x ≤ v → ¬ x ∣ v := by
  induction fuel generalizing d with
  | zero =>
    simp only [noDivisorFrom, true_iff]
    intro x hx hxv
    nlinarith
  | succ fuel ih =>
    rw [noDivisorFrom]
    by_cases h : v < d * d
    · rw [if_pos h]
      simp only [true_iff]
      intro x hx hxv
      nlinarith
    · rw [if_neg h]
      by_cases h' : v % d = 0
      · rw [if_pos h']
        simp only [Bool.false_eq_true, false_iff, not_forall]
        exact ⟨d, le_refl d, by omega, by simpa using Nat.dvd_of_mod_eq_zero h'⟩
      · rw [if_neg h', ih (d + 1) (by omega) (by omega)]
        constructor
        · intro H x hx
          rcases Nat.lt_or_eq_of_le hx with hx | rfl
          · exact H x hx
          · exact fun _ hdv => h' (Nat.mod_eq_zero_of_dvd hdv)
        · exact fun H x hx => H x (by omega)

/-- Trial division decides primality. -/
theorem isPrime_iff (v : Nat) : isPrime v = true ↔ Nat.Prime v := by
  rw [isPrime, Bool.and_eq_true, decide_eq_true_eq, noDivisorFrom_iff v 2 v (by omega) (le_refl 2),
    Nat.prime_def_le_sqrt]
  refine and_congr_right fun _ => forall_congr' fun x => imp_congr_right fun _ => ?_
  rw [Nat.le_sqrt]

/-! ## φ -/

/-- With `p, q ≥ 2`, φ is positive and below the modulus (40_modular.md R158). -/
theorem phiOf_pos {p q : Nat} (hp : 2 ≤ p) (hq : 2 ≤ q) : 2 ≤ phiOf p q ∧ phiOf p q < p * q := by
  unfold phiOf
  split
  · next h =>
    subst h
    have : p * 2 ≤ p * p := Nat.mul_le_mul_left p hp
    omega
  · next h =>
    obtain ⟨a, rfl⟩ := Nat.exists_eq_add_of_le' (show 1 ≤ p by omega)
    obtain ⟨b, rfl⟩ := Nat.exists_eq_add_of_le' (show 1 ≤ q by omega)
    simp only [Nat.add_sub_cancel]
    have hab : a ≠ b := fun e => h (by rw [e])
    constructor
    · rcases Nat.lt_or_gt_of_ne hab with hl | hl
      · nlinarith
      · nlinarith
    · nlinarith

end Sys2Proof.Machine
end

