-- ==== Sys2Proof/Laws/Bits.lean ====
section
/-! SUPPORT. Byte order, bit strings and their pieces. -/

namespace Sys2Proof.Machine

/-! ## Bytes of a word -/

theorem byteOfWord_toNat (w : Word) (i : Nat) : (byteOfWord w i).toNat = w.toNat / 256 ^ i % 256 := by
  simp only [byteOfWord, BitVec.toNat_setWidth, BitVec.toNat_ushiftRight, Nat.shiftRight_eq_div_pow]
  rw [Nat.pow_mul]

@[simp] theorem leBytes_length (n : Nat) (w : Word) : (leBytes n w).length = n := by simp [leBytes]

theorem leValue_append (bs cs : List Byte) : leValue (bs ++ cs) = leValue bs + 256 ^ bs.length * leValue cs := by
  induction bs with
  | nil => simp [leValue]
  | cons b bs ih =>
    simp only [List.cons_append, leValue, ih, List.length_cons, Nat.pow_succ]
    ring

/-- The bytes of a word, read back, are the word modulo their range. -/
theorem leValue_leBytes (n : Nat) (w : Word) : leValue (leBytes n w) = w.toNat % 256 ^ n := by
  induction n with
  | zero => simp [leBytes, leValue, Nat.mod_one]
  | succ n ih =>
    have h : leBytes (n + 1) w = leBytes n w ++ [byteOfWord w n] := by simp [leBytes, List.range_succ]
    rw [h, leValue_append, ih, leBytes_length, leValue, leValue, byteOfWord_toNat, Nat.mul_zero, Nat.add_zero,
      Nat.pow_succ, Nat.mod_mul]

theorem leBytes_getElem? (n : Nat) (w : Word) (i : Nat) (h : i < n) : (leBytes n w)[i]? = some (byteOfWord w i) := by
  simp [leBytes, h]

/-! ## Big-endian byte strings -/

@[simp] theorem beBytes_length (n v : Nat) : (beBytes n v).length = n := by simp [beBytes]

theorem beValue_append_singleton (bs : List Byte) (b : Byte) : beValue (bs ++ [b]) = 256 * beValue bs + b.toNat := by
  simp [beValue]

theorem beValue_lt (bs : List Byte) : beValue bs < 256 ^ bs.length := by
  induction bs using List.reverseRecOn with
  | nil => simp [beValue]
  | append_singleton bs b ih =>
    rw [beValue_append_singleton, List.length_append, List.length_singleton, Nat.pow_succ]
    have := b.isLt
    omega

theorem beBytes_succ (n v : Nat) : beBytes (n + 1) v = beBytes n (v / 256) ++ [BitVec.ofNat 8 v] := by
  rw [beBytes, beBytes, List.range_succ, List.map_append, List.map_singleton]
  congr 1
  · apply List.map_congr_left
    intro i hi
    have hi := List.mem_range.1 hi
    rw [show (256 : Nat) = 2 ^ 8 from rfl, ← Nat.shiftRight_eq_div_pow, ← Nat.shiftRight_add]
    congr 2
    omega
  · simp

/-- The bytes of a number, read back, are the number modulo their range. -/
theorem beValue_beBytes (n v : Nat) : beValue (beBytes n v) = v % 256 ^ n := by
  induction n generalizing v with
  | zero => simp [beBytes, beValue, Nat.mod_one]
  | succ n ih =>
    have h : v % 256 ^ (n + 1) = v % 256 + 256 * (v / 256 % 256 ^ n) := by rw [Nat.pow_succ', Nat.mod_mul]
    rw [beBytes_succ, beValue_append_singleton, ih, BitVec.toNat_ofNat, h]
    omega

/-- The number of a byte string has those bytes. -/
theorem beBytes_beValue (bs : List Byte) : beBytes bs.length (beValue bs) = bs := by
  induction bs using List.reverseRecOn with
  | nil => rfl
  | append_singleton bs b ih =>
    have hb := b.isLt
    rw [List.length_append, List.length_singleton, beBytes_succ, beValue_append_singleton,
      show (256 * beValue bs + b.toNat) / 256 = beValue bs by omega, ih]
    congr 2
    apply BitVec.eq_of_toNat_eq
    rw [BitVec.toNat_ofNat]
    omega

/-! ## Bit strings -/

@[simp] theorem binW_length (w v : Nat) : (binW w v).length = w := by simp [binW]

theorem bitsVal_append_singleton (s : List Bool) (b : Bool) : bitsVal (s ++ [b]) = 2 * bitsVal s + b.toNat := by
  simp [bitsVal]

theorem bitsVal_lt (s : List Bool) : bitsVal s < 2 ^ s.length := by
  induction s using List.reverseRecOn with
  | nil => simp [bitsVal]
  | append_singleton s b ih =>
    rw [bitsVal_append_singleton, List.length_append, List.length_singleton, Nat.pow_succ]
    cases b <;> simp only [Bool.toNat_false, Bool.toNat_true] <;> omega

theorem binW_succ (w v : Nat) : binW (w + 1) v = binW w (v / 2) ++ [v.testBit 0] := by
  rw [binW, binW, List.range_succ, List.map_append, List.map_singleton]
  congr 1
  · apply List.map_congr_left
    intro i hi
    have hi := List.mem_range.1 hi
    rw [← Nat.testBit_succ]
    congr 1
    omega
  · simp

/-- The rendering of a number, read back, is the number modulo its range. -/
theorem bitsVal_binW (w v : Nat) : bitsVal (binW w v) = v % 2 ^ w := by
  induction w generalizing v with
  | zero => simp [binW, bitsVal, Nat.mod_one]
  | succ w ih =>
    rw [binW_succ, bitsVal_append_singleton, ih, Nat.pow_succ, Nat.mul_comm (2 ^ w), Nat.mod_mul, Nat.testBit_zero]
    have := Nat.mod_two_eq_zero_or_one v
    rcases this with h | h <;> simp [h, Nat.add_comm]

/-- The number of a bit string renders as that bit string. -/
theorem binW_bitsVal (s : List Bool) : binW s.length (bitsVal s) = s := by
  induction s using List.reverseRecOn with
  | nil => rfl
  | append_singleton s b ih =>
    rw [List.length_append, List.length_singleton, binW_succ, bitsVal_append_singleton]
    cases b
    · rw [show (2 * bitsVal s + false.toNat) / 2 = bitsVal s by simp, ih]
      simp [Nat.testBit_zero]
    · rw [show (2 * bitsVal s + true.toNat) / 2 = bitsVal s by simp; omega, ih]
      simp [Nat.testBit_zero, Nat.add_mod]

@[simp] theorem bytesToBits_length (m : List Byte) : (bytesToBits m).length = 8 * m.length := by
  simp [bytesToBits, List.length_flatMap, Nat.mul_comm]

/-! ## Pieces -/

@[simp] theorem pieces_length {α : Type} (k c : Nat) (s : List α) : (pieces k c s).length = c := by simp [pieces]

theorem pieces_succ {α : Type} (k c : Nat) (s : List α) :
    pieces k (c + 1) s = s.take k :: pieces k c (s.drop k) := by
  simp [pieces, List.range_succ_eq_map, Function.comp_def, Nat.add_mul, Nat.add_comm]

theorem pieces_piece_length {α : Type} {k c : Nat} {s : List α} (h : c * k ≤ s.length) {p : List α}
    (hp : p ∈ pieces k c s) : p.length = k := by
  simp only [pieces, List.mem_map, List.mem_range] at hp
  obtain ⟨j, hj, rfl⟩ := hp
  have : (j + 1) * k ≤ c * k := Nat.mul_le_mul_right k hj
  rw [List.length_take, List.length_drop]
  rw [Nat.add_mul] at this
  omega

/-- The pieces of a list that they cover exactly, joined, are the list. -/
theorem flatMap_pieces {α : Type} (k c : Nat) (s : List α) (h : s.length = c * k) :
    (pieces k c s).flatMap (fun p => p) = s := by
  induction c generalizing s with
  | zero => simp [pieces, List.eq_nil_of_length_eq_zero (h.trans (Nat.zero_mul k))]
  | succ c ih =>
    rw [pieces_succ, List.flatMap_cons, ih, List.take_append_drop]
    rw [List.length_drop, h, Nat.add_mul]
    omega

/-- Pieces of equal length, joined, are cut at the same places. -/
theorem pieces_flatMap {α β : Type} (k : Nat) (f : β → List α) (l : List β) (h : ∀ x ∈ l, (f x).length = k) :
    pieces k l.length (l.flatMap f) = l.map f := by
  induction l with
  | nil => rfl
  | cons x l ih =>
    have hx := h x (List.mem_cons_self ..)
    rw [List.length_cons, pieces_succ, List.flatMap_cons, ← hx, List.take_left, List.drop_left, hx,
      ih fun y hy => h y (List.mem_cons_of_mem x hy), List.map_cons]

theorem flatMap_length_eq {α β : Type} (k : Nat) (f : β → List α) (l : List β) (h : ∀ x ∈ l, (f x).length = k) :
    (l.flatMap f).length = l.length * k := by
  induction l with
  | nil => simp
  | cons x l ih =>
    rw [List.flatMap_cons, List.length_append, h x (List.mem_cons_self ..),
      ih fun y hy => h y (List.mem_cons_of_mem x hy), List.length_cons, Nat.add_mul]
    omega

@[simp] theorem bitsToBytes_length (s : List Bool) : (bitsToBytes s).length = s.length / 8 := by simp [bitsToBytes]

/-- The bits of a byte string regroup into it. -/
theorem bitsToBytes_bytesToBits (m : List Byte) : bitsToBytes (bytesToBits m) = m := by
  rw [bitsToBytes, bytesToBits_length, Nat.mul_div_cancel_left _ (by decide), bytesToBits,
    pieces_flatMap 8 _ m fun b _ => binW_length 8 b.toNat, List.map_map]
  conv_rhs => rw [← List.map_id m]
  apply List.map_congr_left
  intro b _
  apply BitVec.eq_of_toNat_eq
  simp only [Function.comp_apply, BitVec.toNat_ofNat, bitsVal_binW]
  have := b.isLt
  simp only [id]
  omega

/-! ## Bit length and bit characters -/

/-- A number has no more digits than its bit length. -/
theorem lt_two_pow_bitlen (v : Nat) : v < 2 ^ bitlen v := by
  unfold bitlen
  by_cases h : v = 0
  · simp [h]
  · rw [if_neg h]
    exact Nat.lt_log2_self

/-- A power of two below a number has fewer digits. -/
theorem lt_bitlen {k v : Nat} (h : 2 ^ k < v) : k < bitlen v :=
  (Nat.pow_lt_pow_iff_right (by decide)).1 (h.trans (lt_two_pow_bitlen v))

@[simp] theorem charBit_bitChar (b : Bool) : charBit (bitChar b) = some b := by cases b <;> rfl

theorem mapM_charBit_bitChar (bits : List Bool) : (bits.map bitChar).mapM charBit = some bits := by
  induction bits with
  | nil => rfl
  | cons b bits ih => simp [List.mapM_cons, ih]

/-- Bytes that are all bit characters are the character form of a bit string, and only those. -/
theorem mapM_charBit_eq_some {bs : List Byte} {bits : List Bool} (h : bs.mapM charBit = some bits) :
    bs = bits.map bitChar := by
  induction bs generalizing bits with
  | nil => simp at h; simp [← h]
  | cons b bs ih =>
    rw [List.mapM_cons] at h
    simp only [Option.pure_def, Option.bind_eq_bind, Option.bind_eq_some_iff, Option.some.injEq] at h
    obtain ⟨c, hc, cs, hcs, rfl⟩ := h
    rw [List.map_cons, ← ih hcs]
    congr 1
    unfold charBit at hc
    split at hc
    · cases hc; assumption
    · split at hc
      · cases hc; assumption
      · cases hc

/-- Some byte is no bit character. -/
theorem mapM_charBit_eq_none {bs : List Byte} : bs.mapM charBit = none ↔ ∃ b ∈ bs, b ≠ 0x30 ∧ b ≠ 0x31 := by
  induction bs with
  | nil => simp
  | cons b bs ih =>
    rw [List.mapM_cons]
    have hb : charBit b = none ↔ b ≠ 0x30 ∧ b ≠ 0x31 := by
      unfold charBit
      by_cases h0 : b = 0x30
      · simp [h0]
      · by_cases h1 : b = 0x31
        · simp [h1]
        · rw [if_neg h0, if_neg h1]
          exact ⟨fun _ => ⟨h0, h1⟩, fun _ => rfl⟩
    cases hc : charBit b with
    | none =>
      simp only [Option.pure_def, Option.bind_eq_bind, Option.bind_none, List.mem_cons, true_iff]
      exact ⟨b, .inl rfl, hb.1 hc⟩
    | some c =>
      have hn : ¬ (b ≠ 0x30 ∧ b ≠ 0x31) := fun h => by simp [hb.2 h] at hc
      simp only [Option.pure_def, Option.bind_eq_bind, Option.bind_some, List.mem_cons, exists_eq_or_imp, hn,
        false_or, ← ih]
      cases bs.mapM charBit <;> simp

end Sys2Proof.Machine
end

