-- ==== Sys2Proof/Laws/BlockMode.lean ====
section
/-! SUPPORT. ECB mode and PKCS5 padding. -/

namespace Sys2Proof.Machine

@[simp] theorem padBytes_length (m : List Byte) : (padBytes m).length = m.length + (8 - m.length % 8) := by
  simp [padBytes]

/-- Unpadding succeeds exactly on a byte string that ends in one to eight bytes of that value
(43_block_cipher.md R294). -/
theorem unpadBytes_eq_some {c m : List Byte} (hc : 8 ≤ c.length) :
    unpadBytes c = some m ↔ ∃ n, 1 ≤ n ∧ n ≤ 8 ∧ c = m ++ List.replicate n (BitVec.ofNat 8 n) := by
  constructor
  · intro h
    simp only [unpadBytes] at h
    split at h
    · cases h
    · split at h
      · next h1 h2 =>
        obtain rfl := Option.some.inj h
        refine ⟨(c.getLastD 0).toNat, by omega, by omega, ?_⟩
        conv_lhs => rw [← List.take_append_drop (c.length - (c.getLastD 0).toNat) c]
        congr 1
        refine List.eq_replicate_iff.2 ⟨by rw [List.length_drop]; omega, fun b hb => ?_⟩
        have := List.all_eq_true.1 h2 b hb
        rw [← beq_iff_eq.1 this]
        simp
      · cases h
  · rintro ⟨n, h1, h8, rfl⟩
    have hlast : ((m ++ List.replicate n (BitVec.ofNat 8 n)).getLastD 0).toNat = n := by
      obtain ⟨k, rfl⟩ := Nat.exists_eq_add_of_le' h1
      rw [List.replicate_succ', ← List.append_assoc, List.getLastD_concat]
      simp
      omega
    simp only [unpadBytes, hlast]
    rw [if_neg (by omega), List.length_append, List.length_replicate, Nat.add_sub_cancel, List.drop_left,
      List.take_left, if_pos]
    rw [List.all_eq_true]
    intro b hb
    rw [List.eq_of_mem_replicate hb]
    simp
    omega

theorem bytesOfBlock_length (b : BitVec 64) : (bytesOfBlock b).length = 8 := by simp [bytesOfBlock]

/-- A block rendered as bytes and read again is the block (43_block_cipher.md R291). -/
theorem blockOfBytes_bytesOfBlock (b : BitVec 64) : blockOfBytes (bytesOfBlock b) = b := by
  rw [blockOfBytes, bytesOfBlock, beValue_beBytes, Nat.mod_eq_of_lt (by have := b.isLt; omega), BitVec.ofNat_toNat,
    BitVec.setWidth_eq]

/-- Eight bytes read as a block and rendered again are the bytes (43_block_cipher.md R291). -/
theorem bytesOfBlock_blockOfBytes {bs : List Byte} (h : bs.length = 8) : bytesOfBlock (blockOfBytes bs) = bs := by
  have hlt := beValue_lt bs
  rw [h] at hlt
  rw [blockOfBytes, bytesOfBlock, BitVec.toNat_ofNat, Nat.mod_eq_of_lt (by omega)]
  conv_rhs => rw [← beBytes_beValue bs, h]

theorem ecbMap_length (f : BitVec 64 → BitVec 64) (bs : List Byte) : (ecbMap f bs).length = bs.length / 8 * 8 := by
  rw [ecbMap, flatMap_length_eq 8 _ _ (fun _ _ => bytesOfBlock_length _), pieces_length]

/-- The blocks of ECB output are the transformed blocks of its input, at the same places (43_block_cipher.md R293). -/
theorem pieces_ecbMap (f : BitVec 64 → BitVec 64) (bs : List Byte) :
    pieces 8 (bs.length / 8) (ecbMap f bs) =
      (pieces 8 (bs.length / 8) bs).map fun p => bytesOfBlock (f (blockOfBytes p)) := by
  have h := pieces_flatMap 8 (fun p => bytesOfBlock (f (blockOfBytes p))) (pieces 8 (bs.length / 8) bs)
    (fun _ _ => bytesOfBlock_length _)
  rwa [pieces_length] at h

/-- Two transformations one after the other act on each block one after the other. -/
theorem ecbMap_ecbMap (f g : BitVec 64 → BitVec 64) (bs : List Byte) :
    ecbMap g (ecbMap f bs) = ecbMap (fun b => g (f b)) bs := by
  have e : (ecbMap f bs).length / 8 = bs.length / 8 := by rw [ecbMap_length]; omega
  rw [ecbMap, e, pieces_ecbMap, List.flatMap_def, List.map_map, ecbMap, List.flatMap_def]
  simp only [Function.comp_def, blockOfBytes_bytesOfBlock]

/-- ECB with the identity leaves whole blocks as they are. -/
theorem ecbMap_id {bs : List Byte} (h : bs.length % 8 = 0) : ecbMap (fun b => b) bs = bs := by
  conv_rhs => rw [← flatMap_pieces 8 (bs.length / 8) bs (by omega)]
  rw [ecbMap, List.flatMap_def, List.flatMap_def]
  congr 1
  refine List.map_congr_left fun p hp => bytesOfBlock_blockOfBytes ?_
  exact pieces_piece_length (by omega) hp

end Sys2Proof.Machine
end

