-- ==== Sys2Proof/Laws/Memory.lean ====
section
/-! SUPPORT. What every memory operation does to the read of one byte, and that each keeps the canonical form. -/

namespace Sys2Proof.Machine

/-! ## Reads through a filter -/

theorem read?_nil (a : Nat) : Memory.read? [] a = none := rfl

theorem read?_cons (c : Host.Cell) (m : Memory) (a : Nat) :
    Memory.read? (c :: m) a = if a = c.1 then some c.2 else Memory.read? m a := by
  unfold Memory.read?
  rw [List.lookup_cons]
  by_cases h : a = c.1
  · simp [h]
  · rw [if_neg h, beq_false_of_ne h]

theorem read?_append (m n : Memory) (a : Nat) :
    Memory.read? (m ++ n) a = (Memory.read? m a).or (Memory.read? n a) := by
  induction m with
  | nil => simp [read?_nil]
  | cons c m ih =>
    rw [List.cons_append, read?_cons, read?_cons, ih]
    by_cases h : a = c.1 <;> simp [h]

theorem read?_filter (m : Memory) (p : Nat → Bool) (a : Nat) :
    Memory.read? (m.filter fun c => p c.1) a = if p a then Memory.read? m a else none := by
  induction m with
  | nil => simp [read?_nil]
  | cons c m ih =>
    rw [List.filter_cons]
    by_cases hp : p c.1
    · rw [if_pos hp, read?_cons, read?_cons, ih]
      by_cases h : a = c.1
      · simp [h, hp]
      · simp [h]
    · rw [if_neg hp, ih, read?_cons]
      by_cases h : a = c.1
      · simp [h, hp]
      · simp [h]

theorem read?_cells (o : Nat) (bs : List Byte) (a : Nat) :
    Memory.read? (Memory.cells o bs) a = if o ≤ a then bs[a - o]? else none := by
  induction bs generalizing o with
  | nil => simp [Memory.cells, read?_nil]
  | cons b bs ih =>
    rw [Memory.cells, read?_cons, ih]
    by_cases h : a = o
    · simp [h]
    · by_cases h' : o ≤ a
      · have e : a - o = (a - (o + 1)) + 1 := by omega
        rw [if_neg h, if_pos (by omega), if_pos h', e, List.getElem?_cons_succ]
      · rw [if_neg h, if_neg (by omega), if_neg h']

/-! ## The two operations -/

/-- What clearing does: the bytes of the range become UNSPEC and every other byte reads as before. -/
theorem read?_clear (m : Memory) (o n a : Nat) :
    (m.clear o n).read? a = if o ≤ a ∧ a < o + n then none else m.read? a := by
  unfold Memory.clear
  rw [read?_append, read?_filter m (fun x => decide (x < o)), read?_filter m (fun x => decide (o + n ≤ x))]
  by_cases h1 : a < o
  · rw [if_pos (by simpa using h1), if_neg (by simp; omega), if_neg (by omega)]
    simp
  · by_cases h2 : o + n ≤ a
    · rw [if_neg (by simpa using h1), if_pos (by simpa using h2), if_neg (by omega)]
      simp
    · rw [if_neg (by simpa using h1), if_neg (by simpa using h2), if_pos (by omega)]
      simp

/-- What writing does: the bytes of the range read as written and every other byte as before. -/
theorem read?_writeMany (m : Memory) (o : Nat) (bs : List Byte) (a : Nat) :
    (m.writeMany o bs).read? a = if o ≤ a ∧ a < o + bs.length then bs[a - o]? else m.read? a := by
  unfold Memory.writeMany
  rw [read?_append, read?_append, read?_filter m (fun x => decide (x < o)),
    read?_filter m (fun x => decide (o + bs.length ≤ x)), read?_cells]
  by_cases h1 : a < o
  · rw [if_pos (by simpa using h1), if_neg (by omega), if_neg (by simp; omega), if_neg (by omega)]
    simp
  · by_cases h2 : o + bs.length ≤ a
    · rw [if_neg (by simpa using h1), if_pos (by omega), if_pos (by simpa using h2), if_neg (by omega),
        List.getElem?_eq_none (by omega)]
      simp
    · rw [if_neg (by simpa using h1), if_pos (by omega), if_neg (by simpa using h2), if_pos (by omega)]
      simp

theorem read?_writeMany_out (m : Memory) (o : Nat) (bs : List Byte) (a : Nat)
    (h : a < o ∨ o + bs.length ≤ a) : (m.writeMany o bs).read? a = m.read? a := by
  rw [read?_writeMany, if_neg (by omega)]

theorem read?_writeMany_in (m : Memory) (o : Nat) (bs : List Byte) (j : Nat) (h : j < bs.length) :
    (m.writeMany o bs).read? (o + j) = bs[j]? := by
  rw [read?_writeMany, if_pos (by omega), Nat.add_sub_cancel_left]

/-- After a write, memory holds what was written. -/
theorem holdsBytes_writeMany (m : Memory) (o : Nat) (bs : List Byte) : holdsBytes (m.writeMany o bs) o bs :=
  fun j h => read?_writeMany_in m o bs j h

/-! ## Membership -/

theorem mem_clear {m : Memory} {o n : Nat} {c : Host.Cell} (h : c ∈ m.clear o n) : c ∈ m := by
  simp only [Memory.clear, List.mem_append, List.mem_filter] at h
  tauto

theorem mem_cells {o : Nat} {bs : List Byte} {c : Host.Cell} (h : c ∈ Memory.cells o bs) :
    o ≤ c.1 ∧ c.1 < o + bs.length := by
  induction bs generalizing o with
  | nil => simp [Memory.cells] at h
  | cons b bs ih =>
    simp only [Memory.cells, List.mem_cons] at h
    rcases h with rfl | h
    · simp
    · have := ih h
      simp only [List.length_cons]
      omega

theorem mem_writeMany {m : Memory} {o : Nat} {bs : List Byte} {c : Host.Cell} (h : c ∈ m.writeMany o bs) :
    c ∈ m ∨ (o ≤ c.1 ∧ c.1 < o + bs.length) := by
  simp only [Memory.writeMany, List.mem_append, List.mem_filter] at h
  rcases h with (h | h) | h
  · exact .inl h.1
  · exact .inr (mem_cells h)
  · exact .inl h.1

/-! ## The canonical form -/

theorem wf_iff_pairwise (m : Memory) : m.wf = true ↔ m.Pairwise (fun c d => c.1 < d.1) := by
  induction m with
  | nil => simp [Memory.wf]
  | cons c m ih =>
    cases m with
    | nil => simp [Memory.wf]
    | cons d rest =>
      rw [Memory.wf, Bool.and_eq_true, ih, decide_eq_true_eq, List.pairwise_cons (a := c)]
      constructor
      · rintro ⟨h, hp⟩
        refine ⟨fun x hx => ?_, hp⟩
        rcases List.mem_cons.1 hx with rfl | hx
        · exact h
        · exact h.trans (List.rel_of_pairwise_cons hp hx)
      · rintro ⟨h, hp⟩
        exact ⟨h d (List.mem_cons_self ..), hp⟩

theorem cells_pairwise (o : Nat) (bs : List Byte) : (Memory.cells o bs).Pairwise (fun c d => c.1 < d.1) := by
  induction bs generalizing o with
  | nil => simp [Memory.cells]
  | cons b bs ih =>
    rw [Memory.cells, List.pairwise_cons]
    exact ⟨fun c hc => by have := mem_cells hc; omega, ih (o + 1)⟩

theorem clear_wf {m : Memory} (h : m.wf = true) (o n : Nat) : (m.clear o n).wf = true := by
  rw [wf_iff_pairwise] at h ⊢
  rw [Memory.clear, List.pairwise_append]
  refine ⟨h.filter _, h.filter _, fun c hc d hd => ?_⟩
  simp only [List.mem_filter, decide_eq_true_eq] at hc hd
  omega

theorem writeMany_wf {m : Memory} (h : m.wf = true) (o : Nat) (bs : List Byte) :
    (m.writeMany o bs).wf = true := by
  rw [wf_iff_pairwise] at h ⊢
  rw [Memory.writeMany, List.pairwise_append, List.pairwise_append]
  refine ⟨⟨h.filter _, cells_pairwise o bs, fun c hc d hd => ?_⟩, h.filter _, fun c hc d hd => ?_⟩
  · simp only [List.mem_filter, decide_eq_true_eq] at hc
    have := mem_cells hd
    omega
  · simp only [List.mem_append, List.mem_filter, decide_eq_true_eq] at hc hd
    rcases hc with hc | hc
    · omega
    · have := mem_cells hc
      omega

theorem reset_wf : State.reset.mem.wf = true := rfl

/-! ## Reading many bytes, and draws -/

@[simp] theorem readMany_length (m : Memory) (o n : Nat) : (m.readMany o n).length = n := by
  simp [Memory.readMany]

@[simp] theorem settle_length (k : Nat) (cells : List (Option Byte)) : (settle k cells).length = cells.length := by
  induction cells generalizing k with
  | nil => rfl
  | cons c rest ih => cases c <;> simp [settle, ih]

@[simp] theorem settle_map_some (k : Nat) (bs : List Byte) : settle k (bs.map some) = bs := by
  induction bs generalizing k with
  | nil => rfl
  | cons b bs ih => simp [settle, ih]

@[simp] theorem undefinedCount_map_some (bs : List Byte) : undefinedCount (bs.map some) = 0 := by
  induction bs with
  | nil => rfl
  | cons b bs ih => simp [undefinedCount]

theorem settle_replicate_none (k n : Nat) :
    settle k (List.replicate n none) = (List.range n).map fun i => drawByte (k + i) := by
  induction n generalizing k with
  | zero => rfl
  | succ n ih =>
    rw [List.replicate_succ, settle, ih, List.range_succ_eq_map]
    simp [Function.comp_def, Nat.add_comm, Nat.add_left_comm]

theorem undefinedCount_replicate_none (n : Nat) : undefinedCount (List.replicate n none) = n := by
  simp [undefinedCount, List.countP_replicate]

@[simp] theorem undefinedCount_nil : undefinedCount [] = 0 := rfl

@[simp] theorem undefinedCount_some (b : Byte) (rest : List (Option Byte)) :
    undefinedCount (some b :: rest) = undefinedCount rest := by simp [undefinedCount]

@[simp] theorem undefinedCount_none (rest : List (Option Byte)) :
    undefinedCount (none :: rest) = undefinedCount rest + 1 := by simp [undefinedCount]

/-- What is read at each place: a defined byte itself, an undefined one the draw after those of the undefined bytes before
it (20_memory.md R89). -/
theorem settle_getElem? (k : Nat) (cells : List (Option Byte)) (i : Nat) :
    (settle k cells)[i]? = cells[i]?.map fun c => c.getD (drawByte (k + undefinedCount (cells.take i))) := by
  induction cells generalizing k i with
  | nil => rfl
  | cons c rest ih =>
    cases c <;> cases i <;> simp [settle, ih, Nat.add_assoc, Nat.add_comm 1]

/-- Bytes that memory holds are read as they are, without a draw. -/
theorem readMany_of_holds {m : Memory} {o : Nat} {bs : List Byte} (h : holdsBytes m o bs) :
    m.readMany o bs.length = bs.map some := by
  apply List.ext_getElem?
  intro j
  by_cases hj : j < bs.length
  · simp [Memory.readMany, hj, h j hj]
  · simp [Memory.readMany, hj]

/-- Holding bytes depends only on the reads in their range. -/
theorem holdsBytes_congr {m n : Memory} {o : Nat} {bs : List Byte}
    (h : ∀ a, o ≤ a → a < o + bs.length → n.read? a = m.read? a) (hm : holdsBytes m o bs) : holdsBytes n o bs :=
  fun j hj => (h (o + j) (by omega) (by omega)).trans (hm j hj)

end Sys2Proof.Machine
end

