-- ==== Sys2Proof/Laws/State.lean ====
section
/-! SUPPORT. One lemma for each field under each named update of the state. -/

namespace Sys2Proof.Machine

variable (s : State)

/-! ### drawn -/

@[simp] theorem drawn_params (n : Nat) : (s.drawn n).params = s.params := rfl
@[simp] theorem drawn_irqEn (n : Nat) : (s.drawn n).irqEn = s.irqEn := rfl
@[simp] theorem drawn_status (n : Nat) : (s.drawn n).status = s.status := rfl
@[simp] theorem drawn_phase (n : Nat) : (s.drawn n).phase = s.phase := rfl
@[simp] theorem drawn_cmd (n : Nat) : (s.drawn n).cmd = s.cmd := rfl
@[simp] theorem drawn_chunkBits (n : Nat) : (s.drawn n).chunkBits = s.chunkBits := rfl
@[simp] theorem drawn_lenIn (n : Nat) : (s.drawn n).lenIn = s.lenIn := rfl
@[simp] theorem drawn_lenOut (n : Nat) : (s.drawn n).lenOut = s.lenOut := rfl
@[simp] theorem drawn_plo (n : Nat) : (s.drawn n).plo = s.plo := rfl
@[simp] theorem drawn_phi (n : Nat) : (s.drawn n).phi = s.phi := rfl
@[simp] theorem drawn_skeyLo (n : Nat) : (s.drawn n).skeyLo = s.skeyLo := rfl
@[simp] theorem drawn_skeyHi (n : Nat) : (s.drawn n).skeyHi = s.skeyHi := rfl
@[simp] theorem drawn_a (n : Nat) : (s.drawn n).a = s.a := rfl
@[simp] theorem drawn_e (n : Nat) : (s.drawn n).e = s.e := rfl
@[simp] theorem drawn_m (n : Nat) : (s.drawn n).m = s.m := rfl
@[simp] theorem drawn_r (n : Nat) : (s.drawn n).r = s.r := rfl
@[simp] theorem drawn_kp (n : Nat) : (s.drawn n).kp = s.kp := rfl
@[simp] theorem drawn_kq (n : Nat) : (s.drawn n).kq = s.kq := rfl
@[simp] theorem drawn_ke (n : Nat) : (s.drawn n).ke = s.ke := rfl
@[simp] theorem drawn_kn (n : Nat) : (s.drawn n).kn = s.kn := rfl
@[simp] theorem drawn_kd (n : Nat) : (s.drawn n).kd = s.kd := rfl
@[simp] theorem drawn_kdp (n : Nat) : (s.drawn n).kdp = s.kdp := rfl
@[simp] theorem drawn_kdq (n : Nat) : (s.drawn n).kdq = s.kdq := rfl
@[simp] theorem drawn_kqinv (n : Nat) : (s.drawn n).kqinv = s.kqinv := rfl
@[simp] theorem drawn_pe (n : Nat) : (s.drawn n).pe = s.pe := rfl
@[simp] theorem drawn_pn (n : Nat) : (s.drawn n).pn = s.pn := rfl
@[simp] theorem drawn_mem (n : Nat) : (s.drawn n).mem = s.mem := rfl
@[simp] theorem drawn_draws (n : Nat) : (s.drawn n).draws = s.draws + n := rfl
@[simp] theorem drawn_inputs (n : Nat) : (s.drawn n).inputs = s.inputs := rfl
@[simp] theorem drawn_replies (n : Nat) : (s.drawn n).replies = s.replies := rfl

/-! ### withR -/

@[simp] theorem withR_params (v : Big) : (s.withR v).params = s.params := rfl
@[simp] theorem withR_irqEn (v : Big) : (s.withR v).irqEn = s.irqEn := rfl
@[simp] theorem withR_status (v : Big) : (s.withR v).status = s.status := rfl
@[simp] theorem withR_phase (v : Big) : (s.withR v).phase = s.phase := rfl
@[simp] theorem withR_cmd (v : Big) : (s.withR v).cmd = s.cmd := rfl
@[simp] theorem withR_chunkBits (v : Big) : (s.withR v).chunkBits = s.chunkBits := rfl
@[simp] theorem withR_lenIn (v : Big) : (s.withR v).lenIn = s.lenIn := rfl
@[simp] theorem withR_lenOut (v : Big) : (s.withR v).lenOut = s.lenOut := rfl
@[simp] theorem withR_plo (v : Big) : (s.withR v).plo = s.plo := rfl
@[simp] theorem withR_phi (v : Big) : (s.withR v).phi = s.phi := rfl
@[simp] theorem withR_skeyLo (v : Big) : (s.withR v).skeyLo = s.skeyLo := rfl
@[simp] theorem withR_skeyHi (v : Big) : (s.withR v).skeyHi = s.skeyHi := rfl
@[simp] theorem withR_a (v : Big) : (s.withR v).a = s.a := rfl
@[simp] theorem withR_e (v : Big) : (s.withR v).e = s.e := rfl
@[simp] theorem withR_m (v : Big) : (s.withR v).m = s.m := rfl
@[simp] theorem withR_r (v : Big) : (s.withR v).r = v := rfl
@[simp] theorem withR_kp (v : Big) : (s.withR v).kp = s.kp := rfl
@[simp] theorem withR_kq (v : Big) : (s.withR v).kq = s.kq := rfl
@[simp] theorem withR_ke (v : Big) : (s.withR v).ke = s.ke := rfl
@[simp] theorem withR_kn (v : Big) : (s.withR v).kn = s.kn := rfl
@[simp] theorem withR_kd (v : Big) : (s.withR v).kd = s.kd := rfl
@[simp] theorem withR_kdp (v : Big) : (s.withR v).kdp = s.kdp := rfl
@[simp] theorem withR_kdq (v : Big) : (s.withR v).kdq = s.kdq := rfl
@[simp] theorem withR_kqinv (v : Big) : (s.withR v).kqinv = s.kqinv := rfl
@[simp] theorem withR_pe (v : Big) : (s.withR v).pe = s.pe := rfl
@[simp] theorem withR_pn (v : Big) : (s.withR v).pn = s.pn := rfl
@[simp] theorem withR_mem (v : Big) : (s.withR v).mem = s.mem := rfl
@[simp] theorem withR_draws (v : Big) : (s.withR v).draws = s.draws := rfl
@[simp] theorem withR_inputs (v : Big) : (s.withR v).inputs = s.inputs := rfl
@[simp] theorem withR_replies (v : Big) : (s.withR v).replies = s.replies := rfl

/-! ### withPrimes -/

@[simp] theorem withPrimes_params (p q x : Big) : (s.withPrimes p q x).params = s.params := rfl
@[simp] theorem withPrimes_irqEn (p q x : Big) : (s.withPrimes p q x).irqEn = s.irqEn := rfl
@[simp] theorem withPrimes_status (p q x : Big) : (s.withPrimes p q x).status = s.status := rfl
@[simp] theorem withPrimes_phase (p q x : Big) : (s.withPrimes p q x).phase = s.phase := rfl
@[simp] theorem withPrimes_cmd (p q x : Big) : (s.withPrimes p q x).cmd = s.cmd := rfl
@[simp] theorem withPrimes_chunkBits (p q x : Big) : (s.withPrimes p q x).chunkBits = s.chunkBits := rfl
@[simp] theorem withPrimes_lenIn (p q x : Big) : (s.withPrimes p q x).lenIn = s.lenIn := rfl
@[simp] theorem withPrimes_lenOut (p q x : Big) : (s.withPrimes p q x).lenOut = s.lenOut := rfl
@[simp] theorem withPrimes_plo (p q x : Big) : (s.withPrimes p q x).plo = s.plo := rfl
@[simp] theorem withPrimes_phi (p q x : Big) : (s.withPrimes p q x).phi = s.phi := rfl
@[simp] theorem withPrimes_skeyLo (p q x : Big) : (s.withPrimes p q x).skeyLo = s.skeyLo := rfl
@[simp] theorem withPrimes_skeyHi (p q x : Big) : (s.withPrimes p q x).skeyHi = s.skeyHi := rfl
@[simp] theorem withPrimes_a (p q x : Big) : (s.withPrimes p q x).a = s.a := rfl
@[simp] theorem withPrimes_e (p q x : Big) : (s.withPrimes p q x).e = s.e := rfl
@[simp] theorem withPrimes_m (p q x : Big) : (s.withPrimes p q x).m = s.m := rfl
@[simp] theorem withPrimes_r (p q x : Big) : (s.withPrimes p q x).r = s.r := rfl
@[simp] theorem withPrimes_kp (p q x : Big) : (s.withPrimes p q x).kp = p := rfl
@[simp] theorem withPrimes_kq (p q x : Big) : (s.withPrimes p q x).kq = q := rfl
@[simp] theorem withPrimes_ke (p q x : Big) : (s.withPrimes p q x).ke = x := rfl
@[simp] theorem withPrimes_kn (p q x : Big) : (s.withPrimes p q x).kn = s.kn := rfl
@[simp] theorem withPrimes_kd (p q x : Big) : (s.withPrimes p q x).kd = s.kd := rfl
@[simp] theorem withPrimes_kdp (p q x : Big) : (s.withPrimes p q x).kdp = s.kdp := rfl
@[simp] theorem withPrimes_kdq (p q x : Big) : (s.withPrimes p q x).kdq = s.kdq := rfl
@[simp] theorem withPrimes_kqinv (p q x : Big) : (s.withPrimes p q x).kqinv = s.kqinv := rfl
@[simp] theorem withPrimes_pe (p q x : Big) : (s.withPrimes p q x).pe = s.pe := rfl
@[simp] theorem withPrimes_pn (p q x : Big) : (s.withPrimes p q x).pn = s.pn := rfl
@[simp] theorem withPrimes_mem (p q x : Big) : (s.withPrimes p q x).mem = s.mem := rfl
@[simp] theorem withPrimes_draws (p q x : Big) : (s.withPrimes p q x).draws = s.draws := rfl
@[simp] theorem withPrimes_inputs (p q x : Big) : (s.withPrimes p q x).inputs = s.inputs := rfl
@[simp] theorem withPrimes_replies (p q x : Big) : (s.withPrimes p q x).replies = s.replies := rfl

/-! ### withDerived -/

@[simp] theorem withDerived_params (n d dp dq qi : Big) (b : Bool) : (s.withDerived n d dp dq qi b).params =
    s.params := rfl
@[simp] theorem withDerived_irqEn (n d dp dq qi : Big) (b : Bool) : (s.withDerived n d dp dq qi b).irqEn =
    s.irqEn := rfl
@[simp] theorem withDerived_status (n d dp dq qi : Big) (b : Bool) : (s.withDerived n d dp dq qi b).status =
    { s.status with keyValid := true, qinvNone := b } := rfl
@[simp] theorem withDerived_phase (n d dp dq qi : Big) (b : Bool) : (s.withDerived n d dp dq qi b).phase =
    s.phase := rfl
@[simp] theorem withDerived_cmd (n d dp dq qi : Big) (b : Bool) : (s.withDerived n d dp dq qi b).cmd = s.cmd := rfl
@[simp] theorem withDerived_chunkBits (n d dp dq qi : Big) (b : Bool) : (s.withDerived n d dp dq qi b).chunkBits =
    s.chunkBits := rfl
@[simp] theorem withDerived_lenIn (n d dp dq qi : Big) (b : Bool) : (s.withDerived n d dp dq qi b).lenIn =
    s.lenIn := rfl
@[simp] theorem withDerived_lenOut (n d dp dq qi : Big) (b : Bool) : (s.withDerived n d dp dq qi b).lenOut =
    s.lenOut := rfl
@[simp] theorem withDerived_plo (n d dp dq qi : Big) (b : Bool) : (s.withDerived n d dp dq qi b).plo = s.plo := rfl
@[simp] theorem withDerived_phi (n d dp dq qi : Big) (b : Bool) : (s.withDerived n d dp dq qi b).phi = s.phi := rfl
@[simp] theorem withDerived_skeyLo (n d dp dq qi : Big) (b : Bool) : (s.withDerived n d dp dq qi b).skeyLo =
    s.skeyLo := rfl
@[simp] theorem withDerived_skeyHi (n d dp dq qi : Big) (b : Bool) : (s.withDerived n d dp dq qi b).skeyHi =
    s.skeyHi := rfl
@[simp] theorem withDerived_a (n d dp dq qi : Big) (b : Bool) : (s.withDerived n d dp dq qi b).a = s.a := rfl
@[simp] theorem withDerived_e (n d dp dq qi : Big) (b : Bool) : (s.withDerived n d dp dq qi b).e = s.e := rfl
@[simp] theorem withDerived_m (n d dp dq qi : Big) (b : Bool) : (s.withDerived n d dp dq qi b).m = s.m := rfl
@[simp] theorem withDerived_r (n d dp dq qi : Big) (b : Bool) : (s.withDerived n d dp dq qi b).r = s.r := rfl
@[simp] theorem withDerived_kp (n d dp dq qi : Big) (b : Bool) : (s.withDerived n d dp dq qi b).kp = s.kp := rfl
@[simp] theorem withDerived_kq (n d dp dq qi : Big) (b : Bool) : (s.withDerived n d dp dq qi b).kq = s.kq := rfl
@[simp] theorem withDerived_ke (n d dp dq qi : Big) (b : Bool) : (s.withDerived n d dp dq qi b).ke = s.ke := rfl
@[simp] theorem withDerived_kn (n d dp dq qi : Big) (b : Bool) : (s.withDerived n d dp dq qi b).kn = n := rfl
@[simp] theorem withDerived_kd (n d dp dq qi : Big) (b : Bool) : (s.withDerived n d dp dq qi b).kd = d := rfl
@[simp] theorem withDerived_kdp (n d dp dq qi : Big) (b : Bool) : (s.withDerived n d dp dq qi b).kdp = dp := rfl
@[simp] theorem withDerived_kdq (n d dp dq qi : Big) (b : Bool) : (s.withDerived n d dp dq qi b).kdq = dq := rfl
@[simp] theorem withDerived_kqinv (n d dp dq qi : Big) (b : Bool) : (s.withDerived n d dp dq qi b).kqinv =
    qi := rfl
@[simp] theorem withDerived_pe (n d dp dq qi : Big) (b : Bool) : (s.withDerived n d dp dq qi b).pe = s.pe := rfl
@[simp] theorem withDerived_pn (n d dp dq qi : Big) (b : Bool) : (s.withDerived n d dp dq qi b).pn = s.pn := rfl
@[simp] theorem withDerived_mem (n d dp dq qi : Big) (b : Bool) : (s.withDerived n d dp dq qi b).mem = s.mem := rfl
@[simp] theorem withDerived_draws (n d dp dq qi : Big) (b : Bool) : (s.withDerived n d dp dq qi b).draws =
    s.draws := rfl
@[simp] theorem withDerived_inputs (n d dp dq qi : Big) (b : Bool) : (s.withDerived n d dp dq qi b).inputs =
    s.inputs := rfl
@[simp] theorem withDerived_replies (n d dp dq qi : Big) (b : Bool) : (s.withDerived n d dp dq qi b).replies =
    s.replies := rfl

/-! ### withOut -/

@[simp] theorem withOut_params (bs : List Byte) : (s.withOut bs).params = s.params := rfl
@[simp] theorem withOut_irqEn (bs : List Byte) : (s.withOut bs).irqEn = s.irqEn := rfl
@[simp] theorem withOut_status (bs : List Byte) : (s.withOut bs).status = s.status := rfl
@[simp] theorem withOut_phase (bs : List Byte) : (s.withOut bs).phase = s.phase := rfl
@[simp] theorem withOut_cmd (bs : List Byte) : (s.withOut bs).cmd = s.cmd := rfl
@[simp] theorem withOut_chunkBits (bs : List Byte) : (s.withOut bs).chunkBits = s.chunkBits := rfl
@[simp] theorem withOut_lenIn (bs : List Byte) : (s.withOut bs).lenIn = s.lenIn := rfl
@[simp] theorem withOut_lenOut (bs : List Byte) : (s.withOut bs).lenOut = BitVec.ofNat 16 bs.length := rfl
@[simp] theorem withOut_plo (bs : List Byte) : (s.withOut bs).plo = s.plo := rfl
@[simp] theorem withOut_phi (bs : List Byte) : (s.withOut bs).phi = s.phi := rfl
@[simp] theorem withOut_skeyLo (bs : List Byte) : (s.withOut bs).skeyLo = s.skeyLo := rfl
@[simp] theorem withOut_skeyHi (bs : List Byte) : (s.withOut bs).skeyHi = s.skeyHi := rfl
@[simp] theorem withOut_a (bs : List Byte) : (s.withOut bs).a = s.a := rfl
@[simp] theorem withOut_e (bs : List Byte) : (s.withOut bs).e = s.e := rfl
@[simp] theorem withOut_m (bs : List Byte) : (s.withOut bs).m = s.m := rfl
@[simp] theorem withOut_r (bs : List Byte) : (s.withOut bs).r = s.r := rfl
@[simp] theorem withOut_kp (bs : List Byte) : (s.withOut bs).kp = s.kp := rfl
@[simp] theorem withOut_kq (bs : List Byte) : (s.withOut bs).kq = s.kq := rfl
@[simp] theorem withOut_ke (bs : List Byte) : (s.withOut bs).ke = s.ke := rfl
@[simp] theorem withOut_kn (bs : List Byte) : (s.withOut bs).kn = s.kn := rfl
@[simp] theorem withOut_kd (bs : List Byte) : (s.withOut bs).kd = s.kd := rfl
@[simp] theorem withOut_kdp (bs : List Byte) : (s.withOut bs).kdp = s.kdp := rfl
@[simp] theorem withOut_kdq (bs : List Byte) : (s.withOut bs).kdq = s.kdq := rfl
@[simp] theorem withOut_kqinv (bs : List Byte) : (s.withOut bs).kqinv = s.kqinv := rfl
@[simp] theorem withOut_pe (bs : List Byte) : (s.withOut bs).pe = s.pe := rfl
@[simp] theorem withOut_pn (bs : List Byte) : (s.withOut bs).pn = s.pn := rfl
@[simp] theorem withOut_mem (bs : List Byte) : (s.withOut bs).mem = s.mem.writeMany outBase bs := rfl
@[simp] theorem withOut_draws (bs : List Byte) : (s.withOut bs).draws = s.draws := rfl
@[simp] theorem withOut_inputs (bs : List Byte) : (s.withOut bs).inputs = s.inputs := rfl
@[simp] theorem withOut_replies (bs : List Byte) : (s.withOut bs).replies = s.replies := rfl

/-! ### withIn -/

@[simp] theorem withIn_params (bs : List Byte) (n : BitVec 16) : (s.withIn bs n).params = s.params := rfl
@[simp] theorem withIn_irqEn (bs : List Byte) (n : BitVec 16) : (s.withIn bs n).irqEn = s.irqEn := rfl
@[simp] theorem withIn_status (bs : List Byte) (n : BitVec 16) : (s.withIn bs n).status = s.status := rfl
@[simp] theorem withIn_phase (bs : List Byte) (n : BitVec 16) : (s.withIn bs n).phase = s.phase := rfl
@[simp] theorem withIn_cmd (bs : List Byte) (n : BitVec 16) : (s.withIn bs n).cmd = s.cmd := rfl
@[simp] theorem withIn_chunkBits (bs : List Byte) (n : BitVec 16) : (s.withIn bs n).chunkBits = s.chunkBits := rfl
@[simp] theorem withIn_lenIn (bs : List Byte) (n : BitVec 16) : (s.withIn bs n).lenIn = n := rfl
@[simp] theorem withIn_lenOut (bs : List Byte) (n : BitVec 16) : (s.withIn bs n).lenOut = s.lenOut := rfl
@[simp] theorem withIn_plo (bs : List Byte) (n : BitVec 16) : (s.withIn bs n).plo = s.plo := rfl
@[simp] theorem withIn_phi (bs : List Byte) (n : BitVec 16) : (s.withIn bs n).phi = s.phi := rfl
@[simp] theorem withIn_skeyLo (bs : List Byte) (n : BitVec 16) : (s.withIn bs n).skeyLo = s.skeyLo := rfl
@[simp] theorem withIn_skeyHi (bs : List Byte) (n : BitVec 16) : (s.withIn bs n).skeyHi = s.skeyHi := rfl
@[simp] theorem withIn_a (bs : List Byte) (n : BitVec 16) : (s.withIn bs n).a = s.a := rfl
@[simp] theorem withIn_e (bs : List Byte) (n : BitVec 16) : (s.withIn bs n).e = s.e := rfl
@[simp] theorem withIn_m (bs : List Byte) (n : BitVec 16) : (s.withIn bs n).m = s.m := rfl
@[simp] theorem withIn_r (bs : List Byte) (n : BitVec 16) : (s.withIn bs n).r = s.r := rfl
@[simp] theorem withIn_kp (bs : List Byte) (n : BitVec 16) : (s.withIn bs n).kp = s.kp := rfl
@[simp] theorem withIn_kq (bs : List Byte) (n : BitVec 16) : (s.withIn bs n).kq = s.kq := rfl
@[simp] theorem withIn_ke (bs : List Byte) (n : BitVec 16) : (s.withIn bs n).ke = s.ke := rfl
@[simp] theorem withIn_kn (bs : List Byte) (n : BitVec 16) : (s.withIn bs n).kn = s.kn := rfl
@[simp] theorem withIn_kd (bs : List Byte) (n : BitVec 16) : (s.withIn bs n).kd = s.kd := rfl
@[simp] theorem withIn_kdp (bs : List Byte) (n : BitVec 16) : (s.withIn bs n).kdp = s.kdp := rfl
@[simp] theorem withIn_kdq (bs : List Byte) (n : BitVec 16) : (s.withIn bs n).kdq = s.kdq := rfl
@[simp] theorem withIn_kqinv (bs : List Byte) (n : BitVec 16) : (s.withIn bs n).kqinv = s.kqinv := rfl
@[simp] theorem withIn_pe (bs : List Byte) (n : BitVec 16) : (s.withIn bs n).pe = s.pe := rfl
@[simp] theorem withIn_pn (bs : List Byte) (n : BitVec 16) : (s.withIn bs n).pn = s.pn := rfl
@[simp] theorem withIn_mem (bs : List Byte) (n : BitVec 16) : (s.withIn bs n).mem =
    s.mem.writeMany inBase bs := rfl
@[simp] theorem withIn_draws (bs : List Byte) (n : BitVec 16) : (s.withIn bs n).draws = s.draws := rfl
@[simp] theorem withIn_inputs (bs : List Byte) (n : BitVec 16) : (s.withIn bs n).inputs = s.inputs := rfl
@[simp] theorem withIn_replies (bs : List Byte) (n : BitVec 16) : (s.withIn bs n).replies = s.replies := rfl

/-! ### withTables -/

@[simp] theorem withTables_params (f g : List Byte) : (s.withTables f g).params = s.params := rfl
@[simp] theorem withTables_irqEn (f g : List Byte) : (s.withTables f g).irqEn = s.irqEn := rfl
@[simp] theorem withTables_status (f g : List Byte) : (s.withTables f g).status =
    { s.status with tableValid := true } := rfl
@[simp] theorem withTables_phase (f g : List Byte) : (s.withTables f g).phase = s.phase := rfl
@[simp] theorem withTables_cmd (f g : List Byte) : (s.withTables f g).cmd = s.cmd := rfl
@[simp] theorem withTables_chunkBits (f g : List Byte) : (s.withTables f g).chunkBits = s.chunkBits := rfl
@[simp] theorem withTables_lenIn (f g : List Byte) : (s.withTables f g).lenIn = s.lenIn := rfl
@[simp] theorem withTables_lenOut (f g : List Byte) : (s.withTables f g).lenOut = s.lenOut := rfl
@[simp] theorem withTables_plo (f g : List Byte) : (s.withTables f g).plo = s.plo := rfl
@[simp] theorem withTables_phi (f g : List Byte) : (s.withTables f g).phi = s.phi := rfl
@[simp] theorem withTables_skeyLo (f g : List Byte) : (s.withTables f g).skeyLo = s.skeyLo := rfl
@[simp] theorem withTables_skeyHi (f g : List Byte) : (s.withTables f g).skeyHi = s.skeyHi := rfl
@[simp] theorem withTables_a (f g : List Byte) : (s.withTables f g).a = s.a := rfl
@[simp] theorem withTables_e (f g : List Byte) : (s.withTables f g).e = s.e := rfl
@[simp] theorem withTables_m (f g : List Byte) : (s.withTables f g).m = s.m := rfl
@[simp] theorem withTables_r (f g : List Byte) : (s.withTables f g).r = s.r := rfl
@[simp] theorem withTables_kp (f g : List Byte) : (s.withTables f g).kp = s.kp := rfl
@[simp] theorem withTables_kq (f g : List Byte) : (s.withTables f g).kq = s.kq := rfl
@[simp] theorem withTables_ke (f g : List Byte) : (s.withTables f g).ke = s.ke := rfl
@[simp] theorem withTables_kn (f g : List Byte) : (s.withTables f g).kn = s.kn := rfl
@[simp] theorem withTables_kd (f g : List Byte) : (s.withTables f g).kd = s.kd := rfl
@[simp] theorem withTables_kdp (f g : List Byte) : (s.withTables f g).kdp = s.kdp := rfl
@[simp] theorem withTables_kdq (f g : List Byte) : (s.withTables f g).kdq = s.kdq := rfl
@[simp] theorem withTables_kqinv (f g : List Byte) : (s.withTables f g).kqinv = s.kqinv := rfl
@[simp] theorem withTables_pe (f g : List Byte) : (s.withTables f g).pe = s.pe := rfl
@[simp] theorem withTables_pn (f g : List Byte) : (s.withTables f g).pn = s.pn := rfl
@[simp] theorem withTables_mem (f g : List Byte) : (s.withTables f g).mem =
    (s.mem.writeMany fwdBase f).writeMany invBase g := rfl
@[simp] theorem withTables_draws (f g : List Byte) : (s.withTables f g).draws = s.draws := rfl
@[simp] theorem withTables_inputs (f g : List Byte) : (s.withTables f g).inputs = s.inputs := rfl
@[simp] theorem withTables_replies (f g : List Byte) : (s.withTables f g).replies = s.replies := rfl

/-! ### accept -/

@[simp] theorem accept_params (w : Word) (n : Nat) : (s.accept w n).params = s.params := rfl
@[simp] theorem accept_irqEn (w : Word) (n : Nat) : (s.accept w n).irqEn = s.irqEn := rfl
@[simp] theorem accept_status (w : Word) (n : Nat) : (s.accept w n).status = s.status.accepted := rfl
@[simp] theorem accept_phase (w : Word) (n : Nat) : (s.accept w n).phase = .busy w n := rfl
@[simp] theorem accept_cmd (w : Word) (n : Nat) : (s.accept w n).cmd = w := rfl
@[simp] theorem accept_chunkBits (w : Word) (n : Nat) : (s.accept w n).chunkBits = s.chunkBits := rfl
@[simp] theorem accept_lenIn (w : Word) (n : Nat) : (s.accept w n).lenIn = s.lenIn := rfl
@[simp] theorem accept_lenOut (w : Word) (n : Nat) : (s.accept w n).lenOut = s.lenOut := rfl
@[simp] theorem accept_plo (w : Word) (n : Nat) : (s.accept w n).plo = s.plo := rfl
@[simp] theorem accept_phi (w : Word) (n : Nat) : (s.accept w n).phi = s.phi := rfl
@[simp] theorem accept_skeyLo (w : Word) (n : Nat) : (s.accept w n).skeyLo = s.skeyLo := rfl
@[simp] theorem accept_skeyHi (w : Word) (n : Nat) : (s.accept w n).skeyHi = s.skeyHi := rfl
@[simp] theorem accept_a (w : Word) (n : Nat) : (s.accept w n).a = s.a := rfl
@[simp] theorem accept_e (w : Word) (n : Nat) : (s.accept w n).e = s.e := rfl
@[simp] theorem accept_m (w : Word) (n : Nat) : (s.accept w n).m = s.m := rfl
@[simp] theorem accept_r (w : Word) (n : Nat) : (s.accept w n).r = s.r := rfl
@[simp] theorem accept_kp (w : Word) (n : Nat) : (s.accept w n).kp = s.kp := rfl
@[simp] theorem accept_kq (w : Word) (n : Nat) : (s.accept w n).kq = s.kq := rfl
@[simp] theorem accept_ke (w : Word) (n : Nat) : (s.accept w n).ke = s.ke := rfl
@[simp] theorem accept_kn (w : Word) (n : Nat) : (s.accept w n).kn = s.kn := rfl
@[simp] theorem accept_kd (w : Word) (n : Nat) : (s.accept w n).kd = s.kd := rfl
@[simp] theorem accept_kdp (w : Word) (n : Nat) : (s.accept w n).kdp = s.kdp := rfl
@[simp] theorem accept_kdq (w : Word) (n : Nat) : (s.accept w n).kdq = s.kdq := rfl
@[simp] theorem accept_kqinv (w : Word) (n : Nat) : (s.accept w n).kqinv = s.kqinv := rfl
@[simp] theorem accept_pe (w : Word) (n : Nat) : (s.accept w n).pe = s.pe := rfl
@[simp] theorem accept_pn (w : Word) (n : Nat) : (s.accept w n).pn = s.pn := rfl
@[simp] theorem accept_mem (w : Word) (n : Nat) : (s.accept w n).mem = s.mem := rfl
@[simp] theorem accept_draws (w : Word) (n : Nat) : (s.accept w n).draws = s.draws := rfl
@[simp] theorem accept_inputs (w : Word) (n : Nat) : (s.accept w n).inputs = s.inputs := rfl
@[simp] theorem accept_replies (w : Word) (n : Nat) : (s.accept w n).replies = s.replies := rfl

/-! ### completeOk -/

@[simp] theorem completeOk_params : (completeOk s).params = s.params := rfl
@[simp] theorem completeOk_irqEn : (completeOk s).irqEn = s.irqEn := rfl
@[simp] theorem completeOk_status : (completeOk s).status =
    { s.status with done := true, err := false, errcode := .none } := rfl
@[simp] theorem completeOk_phase : (completeOk s).phase = .idle := rfl
@[simp] theorem completeOk_cmd : (completeOk s).cmd = s.cmd := rfl
@[simp] theorem completeOk_chunkBits : (completeOk s).chunkBits = s.chunkBits := rfl
@[simp] theorem completeOk_lenIn : (completeOk s).lenIn = s.lenIn := rfl
@[simp] theorem completeOk_lenOut : (completeOk s).lenOut = s.lenOut := rfl
@[simp] theorem completeOk_plo : (completeOk s).plo = s.plo := rfl
@[simp] theorem completeOk_phi : (completeOk s).phi = s.phi := rfl
@[simp] theorem completeOk_skeyLo : (completeOk s).skeyLo = s.skeyLo := rfl
@[simp] theorem completeOk_skeyHi : (completeOk s).skeyHi = s.skeyHi := rfl
@[simp] theorem completeOk_a : (completeOk s).a = s.a := rfl
@[simp] theorem completeOk_e : (completeOk s).e = s.e := rfl
@[simp] theorem completeOk_m : (completeOk s).m = s.m := rfl
@[simp] theorem completeOk_r : (completeOk s).r = s.r := rfl
@[simp] theorem completeOk_kp : (completeOk s).kp = s.kp := rfl
@[simp] theorem completeOk_kq : (completeOk s).kq = s.kq := rfl
@[simp] theorem completeOk_ke : (completeOk s).ke = s.ke := rfl
@[simp] theorem completeOk_kn : (completeOk s).kn = s.kn := rfl
@[simp] theorem completeOk_kd : (completeOk s).kd = s.kd := rfl
@[simp] theorem completeOk_kdp : (completeOk s).kdp = s.kdp := rfl
@[simp] theorem completeOk_kdq : (completeOk s).kdq = s.kdq := rfl
@[simp] theorem completeOk_kqinv : (completeOk s).kqinv = s.kqinv := rfl
@[simp] theorem completeOk_pe : (completeOk s).pe = s.pe := rfl
@[simp] theorem completeOk_pn : (completeOk s).pn = s.pn := rfl
@[simp] theorem completeOk_mem : (completeOk s).mem = s.mem := rfl
@[simp] theorem completeOk_draws : (completeOk s).draws = s.draws := rfl
@[simp] theorem completeOk_inputs : (completeOk s).inputs = s.inputs := rfl
@[simp] theorem completeOk_replies : (completeOk s).replies = s.replies := rfl

/-! ### raiseError -/

@[simp] theorem raiseError_params (i : Option Instr) (c : ErrCode) : (raiseError i c s).params = s.params := rfl
@[simp] theorem raiseError_irqEn (i : Option Instr) (c : ErrCode) : (raiseError i c s).irqEn = s.irqEn := rfl
@[simp] theorem raiseError_status (i : Option Instr) (c : ErrCode) : (raiseError i c s).status =
    { s.status with
        done := true, err := true, errcode := c
        keyValid := s.status.keyValid && !(isKeyCommand i && isConstructCode c)
        qinvNone := s.status.qinvNone && !(isKeyCommand i && isConstructCode c) } := rfl
@[simp] theorem raiseError_phase (i : Option Instr) (c : ErrCode) : (raiseError i c s).phase = .idle := rfl
@[simp] theorem raiseError_cmd (i : Option Instr) (c : ErrCode) : (raiseError i c s).cmd = s.cmd := rfl
@[simp] theorem raiseError_chunkBits (i : Option Instr) (c : ErrCode) : (raiseError i c s).chunkBits =
    s.chunkBits := rfl
@[simp] theorem raiseError_lenIn (i : Option Instr) (c : ErrCode) : (raiseError i c s).lenIn = s.lenIn := rfl
@[simp] theorem raiseError_lenOut (i : Option Instr) (c : ErrCode) : (raiseError i c s).lenOut = 0 := rfl
@[simp] theorem raiseError_plo (i : Option Instr) (c : ErrCode) : (raiseError i c s).plo = s.plo := rfl
@[simp] theorem raiseError_phi (i : Option Instr) (c : ErrCode) : (raiseError i c s).phi = s.phi := rfl
@[simp] theorem raiseError_skeyLo (i : Option Instr) (c : ErrCode) : (raiseError i c s).skeyLo = s.skeyLo := rfl
@[simp] theorem raiseError_skeyHi (i : Option Instr) (c : ErrCode) : (raiseError i c s).skeyHi = s.skeyHi := rfl
@[simp] theorem raiseError_a (i : Option Instr) (c : ErrCode) : (raiseError i c s).a = s.a := rfl
@[simp] theorem raiseError_e (i : Option Instr) (c : ErrCode) : (raiseError i c s).e = s.e := rfl
@[simp] theorem raiseError_m (i : Option Instr) (c : ErrCode) : (raiseError i c s).m = s.m := rfl
@[simp] theorem raiseError_r (i : Option Instr) (c : ErrCode) : (raiseError i c s).r = s.r := rfl
@[simp] theorem raiseError_kp (i : Option Instr) (c : ErrCode) : (raiseError i c s).kp = s.kp := rfl
@[simp] theorem raiseError_kq (i : Option Instr) (c : ErrCode) : (raiseError i c s).kq = s.kq := rfl
@[simp] theorem raiseError_ke (i : Option Instr) (c : ErrCode) : (raiseError i c s).ke = s.ke := rfl
@[simp] theorem raiseError_kn (i : Option Instr) (c : ErrCode) : (raiseError i c s).kn = s.kn := rfl
@[simp] theorem raiseError_kd (i : Option Instr) (c : ErrCode) : (raiseError i c s).kd = s.kd := rfl
@[simp] theorem raiseError_kdp (i : Option Instr) (c : ErrCode) : (raiseError i c s).kdp = s.kdp := rfl
@[simp] theorem raiseError_kdq (i : Option Instr) (c : ErrCode) : (raiseError i c s).kdq = s.kdq := rfl
@[simp] theorem raiseError_kqinv (i : Option Instr) (c : ErrCode) : (raiseError i c s).kqinv = s.kqinv := rfl
@[simp] theorem raiseError_pe (i : Option Instr) (c : ErrCode) : (raiseError i c s).pe = s.pe := rfl
@[simp] theorem raiseError_pn (i : Option Instr) (c : ErrCode) : (raiseError i c s).pn = s.pn := rfl
@[simp] theorem raiseError_mem (i : Option Instr) (c : ErrCode) : (raiseError i c s).mem =
    s.mem.clear outBase s.params.bufBytes := rfl
@[simp] theorem raiseError_draws (i : Option Instr) (c : ErrCode) : (raiseError i c s).draws = s.draws := rfl
@[simp] theorem raiseError_inputs (i : Option Instr) (c : ErrCode) : (raiseError i c s).inputs = s.inputs := rfl
@[simp] theorem raiseError_replies (i : Option Instr) (c : ErrCode) : (raiseError i c s).replies = s.replies := rfl

/-! ### reply -/

@[simp] theorem reply_params (v : Word) : (s.reply v).params = s.params := rfl
@[simp] theorem reply_irqEn (v : Word) : (s.reply v).irqEn = s.irqEn := rfl
@[simp] theorem reply_status (v : Word) : (s.reply v).status = s.status := rfl
@[simp] theorem reply_phase (v : Word) : (s.reply v).phase = s.phase := rfl
@[simp] theorem reply_cmd (v : Word) : (s.reply v).cmd = s.cmd := rfl
@[simp] theorem reply_chunkBits (v : Word) : (s.reply v).chunkBits = s.chunkBits := rfl
@[simp] theorem reply_lenIn (v : Word) : (s.reply v).lenIn = s.lenIn := rfl
@[simp] theorem reply_lenOut (v : Word) : (s.reply v).lenOut = s.lenOut := rfl
@[simp] theorem reply_plo (v : Word) : (s.reply v).plo = s.plo := rfl
@[simp] theorem reply_phi (v : Word) : (s.reply v).phi = s.phi := rfl
@[simp] theorem reply_skeyLo (v : Word) : (s.reply v).skeyLo = s.skeyLo := rfl
@[simp] theorem reply_skeyHi (v : Word) : (s.reply v).skeyHi = s.skeyHi := rfl
@[simp] theorem reply_a (v : Word) : (s.reply v).a = s.a := rfl
@[simp] theorem reply_e (v : Word) : (s.reply v).e = s.e := rfl
@[simp] theorem reply_m (v : Word) : (s.reply v).m = s.m := rfl
@[simp] theorem reply_r (v : Word) : (s.reply v).r = s.r := rfl
@[simp] theorem reply_kp (v : Word) : (s.reply v).kp = s.kp := rfl
@[simp] theorem reply_kq (v : Word) : (s.reply v).kq = s.kq := rfl
@[simp] theorem reply_ke (v : Word) : (s.reply v).ke = s.ke := rfl
@[simp] theorem reply_kn (v : Word) : (s.reply v).kn = s.kn := rfl
@[simp] theorem reply_kd (v : Word) : (s.reply v).kd = s.kd := rfl
@[simp] theorem reply_kdp (v : Word) : (s.reply v).kdp = s.kdp := rfl
@[simp] theorem reply_kdq (v : Word) : (s.reply v).kdq = s.kdq := rfl
@[simp] theorem reply_kqinv (v : Word) : (s.reply v).kqinv = s.kqinv := rfl
@[simp] theorem reply_pe (v : Word) : (s.reply v).pe = s.pe := rfl
@[simp] theorem reply_pn (v : Word) : (s.reply v).pn = s.pn := rfl
@[simp] theorem reply_mem (v : Word) : (s.reply v).mem = s.mem := rfl
@[simp] theorem reply_draws (v : Word) : (s.reply v).draws = s.draws := rfl
@[simp] theorem reply_inputs (v : Word) : (s.reply v).inputs = s.inputs := rfl
@[simp] theorem reply_replies (v : Word) : (s.reply v).replies = v :: s.replies := rfl

/-! ### setAccErr -/

@[simp] theorem setAccErr_params : (setAccErr s).params = s.params := rfl
@[simp] theorem setAccErr_irqEn : (setAccErr s).irqEn = s.irqEn := rfl
@[simp] theorem setAccErr_status : (setAccErr s).status = { s.status with accErr := true } := rfl
@[simp] theorem setAccErr_phase : (setAccErr s).phase = s.phase := rfl
@[simp] theorem setAccErr_cmd : (setAccErr s).cmd = s.cmd := rfl
@[simp] theorem setAccErr_chunkBits : (setAccErr s).chunkBits = s.chunkBits := rfl
@[simp] theorem setAccErr_lenIn : (setAccErr s).lenIn = s.lenIn := rfl
@[simp] theorem setAccErr_lenOut : (setAccErr s).lenOut = s.lenOut := rfl
@[simp] theorem setAccErr_plo : (setAccErr s).plo = s.plo := rfl
@[simp] theorem setAccErr_phi : (setAccErr s).phi = s.phi := rfl
@[simp] theorem setAccErr_skeyLo : (setAccErr s).skeyLo = s.skeyLo := rfl
@[simp] theorem setAccErr_skeyHi : (setAccErr s).skeyHi = s.skeyHi := rfl
@[simp] theorem setAccErr_a : (setAccErr s).a = s.a := rfl
@[simp] theorem setAccErr_e : (setAccErr s).e = s.e := rfl
@[simp] theorem setAccErr_m : (setAccErr s).m = s.m := rfl
@[simp] theorem setAccErr_r : (setAccErr s).r = s.r := rfl
@[simp] theorem setAccErr_kp : (setAccErr s).kp = s.kp := rfl
@[simp] theorem setAccErr_kq : (setAccErr s).kq = s.kq := rfl
@[simp] theorem setAccErr_ke : (setAccErr s).ke = s.ke := rfl
@[simp] theorem setAccErr_kn : (setAccErr s).kn = s.kn := rfl
@[simp] theorem setAccErr_kd : (setAccErr s).kd = s.kd := rfl
@[simp] theorem setAccErr_kdp : (setAccErr s).kdp = s.kdp := rfl
@[simp] theorem setAccErr_kdq : (setAccErr s).kdq = s.kdq := rfl
@[simp] theorem setAccErr_kqinv : (setAccErr s).kqinv = s.kqinv := rfl
@[simp] theorem setAccErr_pe : (setAccErr s).pe = s.pe := rfl
@[simp] theorem setAccErr_pn : (setAccErr s).pn = s.pn := rfl
@[simp] theorem setAccErr_mem : (setAccErr s).mem = s.mem := rfl
@[simp] theorem setAccErr_draws : (setAccErr s).draws = s.draws := rfl
@[simp] theorem setAccErr_inputs : (setAccErr s).inputs = s.inputs := rfl
@[simp] theorem setAccErr_replies : (setAccErr s).replies = s.replies := rfl

/-! ### setCmdOvr -/

@[simp] theorem setCmdOvr_params : (setCmdOvr s).params = s.params := rfl
@[simp] theorem setCmdOvr_irqEn : (setCmdOvr s).irqEn = s.irqEn := rfl
@[simp] theorem setCmdOvr_status : (setCmdOvr s).status = { s.status with cmdOvr := true } := rfl
@[simp] theorem setCmdOvr_phase : (setCmdOvr s).phase = s.phase := rfl
@[simp] theorem setCmdOvr_cmd : (setCmdOvr s).cmd = s.cmd := rfl
@[simp] theorem setCmdOvr_chunkBits : (setCmdOvr s).chunkBits = s.chunkBits := rfl
@[simp] theorem setCmdOvr_lenIn : (setCmdOvr s).lenIn = s.lenIn := rfl
@[simp] theorem setCmdOvr_lenOut : (setCmdOvr s).lenOut = s.lenOut := rfl
@[simp] theorem setCmdOvr_plo : (setCmdOvr s).plo = s.plo := rfl
@[simp] theorem setCmdOvr_phi : (setCmdOvr s).phi = s.phi := rfl
@[simp] theorem setCmdOvr_skeyLo : (setCmdOvr s).skeyLo = s.skeyLo := rfl
@[simp] theorem setCmdOvr_skeyHi : (setCmdOvr s).skeyHi = s.skeyHi := rfl
@[simp] theorem setCmdOvr_a : (setCmdOvr s).a = s.a := rfl
@[simp] theorem setCmdOvr_e : (setCmdOvr s).e = s.e := rfl
@[simp] theorem setCmdOvr_m : (setCmdOvr s).m = s.m := rfl
@[simp] theorem setCmdOvr_r : (setCmdOvr s).r = s.r := rfl
@[simp] theorem setCmdOvr_kp : (setCmdOvr s).kp = s.kp := rfl
@[simp] theorem setCmdOvr_kq : (setCmdOvr s).kq = s.kq := rfl
@[simp] theorem setCmdOvr_ke : (setCmdOvr s).ke = s.ke := rfl
@[simp] theorem setCmdOvr_kn : (setCmdOvr s).kn = s.kn := rfl
@[simp] theorem setCmdOvr_kd : (setCmdOvr s).kd = s.kd := rfl
@[simp] theorem setCmdOvr_kdp : (setCmdOvr s).kdp = s.kdp := rfl
@[simp] theorem setCmdOvr_kdq : (setCmdOvr s).kdq = s.kdq := rfl
@[simp] theorem setCmdOvr_kqinv : (setCmdOvr s).kqinv = s.kqinv := rfl
@[simp] theorem setCmdOvr_pe : (setCmdOvr s).pe = s.pe := rfl
@[simp] theorem setCmdOvr_pn : (setCmdOvr s).pn = s.pn := rfl
@[simp] theorem setCmdOvr_mem : (setCmdOvr s).mem = s.mem := rfl
@[simp] theorem setCmdOvr_draws : (setCmdOvr s).draws = s.draws := rfl
@[simp] theorem setCmdOvr_inputs : (setCmdOvr s).inputs = s.inputs := rfl
@[simp] theorem setCmdOvr_replies : (setCmdOvr s).replies = s.replies := rfl

/-! ### setBusyWr -/

@[simp] theorem setBusyWr_params : (setBusyWr s).params = s.params := rfl
@[simp] theorem setBusyWr_irqEn : (setBusyWr s).irqEn = s.irqEn := rfl
@[simp] theorem setBusyWr_status : (setBusyWr s).status = { s.status with busyWr := true } := rfl
@[simp] theorem setBusyWr_phase : (setBusyWr s).phase = s.phase := rfl
@[simp] theorem setBusyWr_cmd : (setBusyWr s).cmd = s.cmd := rfl
@[simp] theorem setBusyWr_chunkBits : (setBusyWr s).chunkBits = s.chunkBits := rfl
@[simp] theorem setBusyWr_lenIn : (setBusyWr s).lenIn = s.lenIn := rfl
@[simp] theorem setBusyWr_lenOut : (setBusyWr s).lenOut = s.lenOut := rfl
@[simp] theorem setBusyWr_plo : (setBusyWr s).plo = s.plo := rfl
@[simp] theorem setBusyWr_phi : (setBusyWr s).phi = s.phi := rfl
@[simp] theorem setBusyWr_skeyLo : (setBusyWr s).skeyLo = s.skeyLo := rfl
@[simp] theorem setBusyWr_skeyHi : (setBusyWr s).skeyHi = s.skeyHi := rfl
@[simp] theorem setBusyWr_a : (setBusyWr s).a = s.a := rfl
@[simp] theorem setBusyWr_e : (setBusyWr s).e = s.e := rfl
@[simp] theorem setBusyWr_m : (setBusyWr s).m = s.m := rfl
@[simp] theorem setBusyWr_r : (setBusyWr s).r = s.r := rfl
@[simp] theorem setBusyWr_kp : (setBusyWr s).kp = s.kp := rfl
@[simp] theorem setBusyWr_kq : (setBusyWr s).kq = s.kq := rfl
@[simp] theorem setBusyWr_ke : (setBusyWr s).ke = s.ke := rfl
@[simp] theorem setBusyWr_kn : (setBusyWr s).kn = s.kn := rfl
@[simp] theorem setBusyWr_kd : (setBusyWr s).kd = s.kd := rfl
@[simp] theorem setBusyWr_kdp : (setBusyWr s).kdp = s.kdp := rfl
@[simp] theorem setBusyWr_kdq : (setBusyWr s).kdq = s.kdq := rfl
@[simp] theorem setBusyWr_kqinv : (setBusyWr s).kqinv = s.kqinv := rfl
@[simp] theorem setBusyWr_pe : (setBusyWr s).pe = s.pe := rfl
@[simp] theorem setBusyWr_pn : (setBusyWr s).pn = s.pn := rfl
@[simp] theorem setBusyWr_mem : (setBusyWr s).mem = s.mem := rfl
@[simp] theorem setBusyWr_draws : (setBusyWr s).draws = s.draws := rfl
@[simp] theorem setBusyWr_inputs : (setBusyWr s).inputs = s.inputs := rfl
@[simp] theorem setBusyWr_replies : (setBusyWr s).replies = s.replies := rfl

/-! ### dropKey -/

@[simp] theorem dropKey_params : (dropKey s).params = s.params := rfl
@[simp] theorem dropKey_irqEn : (dropKey s).irqEn = s.irqEn := rfl
@[simp] theorem dropKey_status : (dropKey s).status = { s.status with keyValid := false, qinvNone := false } := rfl
@[simp] theorem dropKey_phase : (dropKey s).phase = s.phase := rfl
@[simp] theorem dropKey_cmd : (dropKey s).cmd = s.cmd := rfl
@[simp] theorem dropKey_chunkBits : (dropKey s).chunkBits = s.chunkBits := rfl
@[simp] theorem dropKey_lenIn : (dropKey s).lenIn = s.lenIn := rfl
@[simp] theorem dropKey_lenOut : (dropKey s).lenOut = s.lenOut := rfl
@[simp] theorem dropKey_plo : (dropKey s).plo = s.plo := rfl
@[simp] theorem dropKey_phi : (dropKey s).phi = s.phi := rfl
@[simp] theorem dropKey_skeyLo : (dropKey s).skeyLo = s.skeyLo := rfl
@[simp] theorem dropKey_skeyHi : (dropKey s).skeyHi = s.skeyHi := rfl
@[simp] theorem dropKey_a : (dropKey s).a = s.a := rfl
@[simp] theorem dropKey_e : (dropKey s).e = s.e := rfl
@[simp] theorem dropKey_m : (dropKey s).m = s.m := rfl
@[simp] theorem dropKey_r : (dropKey s).r = s.r := rfl
@[simp] theorem dropKey_kp : (dropKey s).kp = s.kp := rfl
@[simp] theorem dropKey_kq : (dropKey s).kq = s.kq := rfl
@[simp] theorem dropKey_ke : (dropKey s).ke = s.ke := rfl
@[simp] theorem dropKey_kn : (dropKey s).kn = s.kn := rfl
@[simp] theorem dropKey_kd : (dropKey s).kd = s.kd := rfl
@[simp] theorem dropKey_kdp : (dropKey s).kdp = s.kdp := rfl
@[simp] theorem dropKey_kdq : (dropKey s).kdq = s.kdq := rfl
@[simp] theorem dropKey_kqinv : (dropKey s).kqinv = s.kqinv := rfl
@[simp] theorem dropKey_pe : (dropKey s).pe = s.pe := rfl
@[simp] theorem dropKey_pn : (dropKey s).pn = s.pn := rfl
@[simp] theorem dropKey_mem : (dropKey s).mem = s.mem := rfl
@[simp] theorem dropKey_draws : (dropKey s).draws = s.draws := rfl
@[simp] theorem dropKey_inputs : (dropKey s).inputs = s.inputs := rfl
@[simp] theorem dropKey_replies : (dropKey s).replies = s.replies := rfl

/-! ### writeStatus -/

@[simp] theorem writeStatus_params (v : Word) : (writeStatus v s).params = s.params := rfl
@[simp] theorem writeStatus_irqEn (v : Word) : (writeStatus v s).irqEn = s.irqEn := rfl
@[simp] theorem writeStatus_status (v : Word) : (writeStatus v s).status =
    { s.status with
        done := s.status.done && !v.getLsbD 1, cmdOvr := s.status.cmdOvr && !v.getLsbD 6
        accErr := s.status.accErr && !v.getLsbD 7, busyWr := s.status.busyWr && !v.getLsbD 8 } := rfl
@[simp] theorem writeStatus_phase (v : Word) : (writeStatus v s).phase = s.phase := rfl
@[simp] theorem writeStatus_cmd (v : Word) : (writeStatus v s).cmd = s.cmd := rfl
@[simp] theorem writeStatus_chunkBits (v : Word) : (writeStatus v s).chunkBits = s.chunkBits := rfl
@[simp] theorem writeStatus_lenIn (v : Word) : (writeStatus v s).lenIn = s.lenIn := rfl
@[simp] theorem writeStatus_lenOut (v : Word) : (writeStatus v s).lenOut = s.lenOut := rfl
@[simp] theorem writeStatus_plo (v : Word) : (writeStatus v s).plo = s.plo := rfl
@[simp] theorem writeStatus_phi (v : Word) : (writeStatus v s).phi = s.phi := rfl
@[simp] theorem writeStatus_skeyLo (v : Word) : (writeStatus v s).skeyLo = s.skeyLo := rfl
@[simp] theorem writeStatus_skeyHi (v : Word) : (writeStatus v s).skeyHi = s.skeyHi := rfl
@[simp] theorem writeStatus_a (v : Word) : (writeStatus v s).a = s.a := rfl
@[simp] theorem writeStatus_e (v : Word) : (writeStatus v s).e = s.e := rfl
@[simp] theorem writeStatus_m (v : Word) : (writeStatus v s).m = s.m := rfl
@[simp] theorem writeStatus_r (v : Word) : (writeStatus v s).r = s.r := rfl
@[simp] theorem writeStatus_kp (v : Word) : (writeStatus v s).kp = s.kp := rfl
@[simp] theorem writeStatus_kq (v : Word) : (writeStatus v s).kq = s.kq := rfl
@[simp] theorem writeStatus_ke (v : Word) : (writeStatus v s).ke = s.ke := rfl
@[simp] theorem writeStatus_kn (v : Word) : (writeStatus v s).kn = s.kn := rfl
@[simp] theorem writeStatus_kd (v : Word) : (writeStatus v s).kd = s.kd := rfl
@[simp] theorem writeStatus_kdp (v : Word) : (writeStatus v s).kdp = s.kdp := rfl
@[simp] theorem writeStatus_kdq (v : Word) : (writeStatus v s).kdq = s.kdq := rfl
@[simp] theorem writeStatus_kqinv (v : Word) : (writeStatus v s).kqinv = s.kqinv := rfl
@[simp] theorem writeStatus_pe (v : Word) : (writeStatus v s).pe = s.pe := rfl
@[simp] theorem writeStatus_pn (v : Word) : (writeStatus v s).pn = s.pn := rfl
@[simp] theorem writeStatus_mem (v : Word) : (writeStatus v s).mem = s.mem := rfl
@[simp] theorem writeStatus_draws (v : Word) : (writeStatus v s).draws = s.draws := rfl
@[simp] theorem writeStatus_inputs (v : Word) : (writeStatus v s).inputs = s.inputs := rfl
@[simp] theorem writeStatus_replies (v : Word) : (writeStatus v s).replies = s.replies := rfl

/-! ### hardwareReset -/

@[simp] theorem hardwareReset_params : (s.hardwareReset).params = s.params := rfl
@[simp] theorem hardwareReset_irqEn : (s.hardwareReset).irqEn = State.reset.irqEn := rfl
@[simp] theorem hardwareReset_status : (s.hardwareReset).status = State.reset.status := rfl
@[simp] theorem hardwareReset_phase : (s.hardwareReset).phase = State.reset.phase := rfl
@[simp] theorem hardwareReset_cmd : (s.hardwareReset).cmd = State.reset.cmd := rfl
@[simp] theorem hardwareReset_chunkBits : (s.hardwareReset).chunkBits = State.reset.chunkBits := rfl
@[simp] theorem hardwareReset_lenIn : (s.hardwareReset).lenIn = State.reset.lenIn := rfl
@[simp] theorem hardwareReset_lenOut : (s.hardwareReset).lenOut = State.reset.lenOut := rfl
@[simp] theorem hardwareReset_plo : (s.hardwareReset).plo = State.reset.plo := rfl
@[simp] theorem hardwareReset_phi : (s.hardwareReset).phi = State.reset.phi := rfl
@[simp] theorem hardwareReset_skeyLo : (s.hardwareReset).skeyLo = State.reset.skeyLo := rfl
@[simp] theorem hardwareReset_skeyHi : (s.hardwareReset).skeyHi = State.reset.skeyHi := rfl
@[simp] theorem hardwareReset_a : (s.hardwareReset).a = State.reset.a := rfl
@[simp] theorem hardwareReset_e : (s.hardwareReset).e = State.reset.e := rfl
@[simp] theorem hardwareReset_m : (s.hardwareReset).m = State.reset.m := rfl
@[simp] theorem hardwareReset_r : (s.hardwareReset).r = State.reset.r := rfl
@[simp] theorem hardwareReset_kp : (s.hardwareReset).kp = State.reset.kp := rfl
@[simp] theorem hardwareReset_kq : (s.hardwareReset).kq = State.reset.kq := rfl
@[simp] theorem hardwareReset_ke : (s.hardwareReset).ke = State.reset.ke := rfl
@[simp] theorem hardwareReset_kn : (s.hardwareReset).kn = State.reset.kn := rfl
@[simp] theorem hardwareReset_kd : (s.hardwareReset).kd = State.reset.kd := rfl
@[simp] theorem hardwareReset_kdp : (s.hardwareReset).kdp = State.reset.kdp := rfl
@[simp] theorem hardwareReset_kdq : (s.hardwareReset).kdq = State.reset.kdq := rfl
@[simp] theorem hardwareReset_kqinv : (s.hardwareReset).kqinv = State.reset.kqinv := rfl
@[simp] theorem hardwareReset_pe : (s.hardwareReset).pe = State.reset.pe := rfl
@[simp] theorem hardwareReset_pn : (s.hardwareReset).pn = State.reset.pn := rfl
@[simp] theorem hardwareReset_mem : (s.hardwareReset).mem = State.reset.mem := rfl
@[simp] theorem hardwareReset_draws : (s.hardwareReset).draws = s.draws := rfl
@[simp] theorem hardwareReset_inputs : (s.hardwareReset).inputs = s.inputs := rfl
@[simp] theorem hardwareReset_replies : (s.hardwareReset).replies = s.replies := rfl

end Sys2Proof.Machine
end

