-- ==== Sys2Proof/Laws/Bus.lean ====
section
/-! SUPPORT. What a host access and a step can do, said once. -/

namespace Sys2Proof.Machine

/-! ## Bounds of the parameters, places in the window -/

/-- The legal ranges of the parameters as numbers (00_scope.md R10). -/
theorem params_bounds {p : Params} (h : p.wellFormed = true) :
    p.nbits % 32 = 0 ∧ 64 ≤ p.nbits ∧ p.nbits ≤ 512 ∧ p.bufBytes % 4 = 0 ∧ 1024 ≤ p.bufBytes ∧
      p.bufBytes ≤ 16384 := by
  simp only [Params.wellFormed, Params.nbitsOk, Params.bufOk, Bool.and_eq_true, beq_iff_eq, decide_eq_true_eq] at h
  omega

/-- The places of the four memories (10_state.md R56). -/
theorem memory_places : fwdBase = 0x800 ∧ invBase = 0x900 ∧ inBase = 0x4000 ∧ outBase = 0x8000 :=
  ⟨rfl, rfl, rfl, rfl⟩

/-- The offsets of IN are the buffer's, all of them and no others. -/
theorem itemAt_inBuf {p : Params} {o : Nat} : itemAt p o = some .inBuf ↔ inBase ≤ o ∧ o < inBase + p.bufBytes := by
  have e : inBase = 0x4000 := rfl
  unfold itemAt
  constructor
  · intro h
    split at h
    · cases hc : ctlMap[o / 4]? <;> simp [hc] at h
    split at h
    · cases hc : bigMap[(o - 0x100) / 64]? <;> simp [hc] at h
    split at h
    · cases h
    split at h
    · cases h
    split at h
    · assumption
    · split at h <;> cases h
  · intro h
    rw [if_neg (by omega), if_neg (by omega), if_neg (by omega), if_neg (by omega), if_pos h]

/-! ## Big-number slots -/

/-- The bits of a slot after the write of a word: the word's 32 bits are the written ones (10_state.md R40). -/
theorem setSlotWord_getLsbD (p : Params) (x : Big) (j : Nat) (v : Word) (i : Nat) (hj : j < p.nbits / 32)
    (hi : i < 512) : (setSlotWord p x j v).getLsbD i =
      if 32 * j ≤ i ∧ i < 32 * j + 32 then v.getLsbD (i - 32 * j) else x.getLsbD i := by
  have hF : ∀ k, (0xFFFFFFFF : Big).getLsbD k = decide (k < 32) := by
    intro k
    have : (0xFFFFFFFF : Big) = BitVec.ofNat 512 (2 ^ 32 - 1) := rfl
    rw [this, BitVec.getLsbD_ofNat, Nat.testBit_two_pow_sub_one]
    by_cases h : k < 32 <;> simp [h]; omega
  unfold setSlotWord
  rw [if_pos hj, BitVec.getLsbD_or, BitVec.getLsbD_and, BitVec.getLsbD_not, BitVec.getLsbD_shiftLeft,
    BitVec.getLsbD_shiftLeft, BitVec.getLsbD_setWidth, hF]
  by_cases h1 : i < 32 * j
  · have : ¬ 32 * j ≤ i := by omega
    simp [h1, hi, this]
  · by_cases h2 : i < 32 * j + 32
    · have a : i - 32 * j < 32 := by omega
      have b : i - 32 * j < 512 := by omega
      have c : 32 * j ≤ i := by omega
      simp [h1, h2, hi, a, b, c]
    · have a : ¬ i - 32 * j < 32 := by omega
      have b : v.getLsbD (i - 32 * j) = false := BitVec.getLsbD_of_ge _ _ (by omega)
      simp [h1, h2, hi, a, b]

/-- A big-number register after the write of one. -/
theorem bigReg_setBigReg (s : State) (reg reg' : BigReg) (v : Big) :
    (s.setBigReg reg v).bigReg reg' = if reg' = reg then v else s.bigReg reg' := by
  cases reg <;> cases reg' <;> rfl

theorem storeBig_bigReg (reg reg' : BigReg) (j : Nat) (v : Word) (s : State) :
    (storeBig reg j v s).bigReg reg' =
      if reg' = reg then setSlotWord s.params (s.bigReg reg) j v else s.bigReg reg' := by
  cases reg <;> cases reg' <;> rfl

/-- A write to a reserved word stores nothing (10_state.md R40). -/
theorem setSlotWord_reserved {p : Params} {j : Nat} (hj : p.nbits / 32 ≤ j) (x : Big) (v : Word) :
    setSlotWord p x j v = x := if_neg (by omega)

theorem setBigReg_bigReg (s : State) (reg : BigReg) : s.setBigReg reg (s.bigReg reg) = s := by cases reg <;> rfl

/-- A write to a reserved word does nothing but what R44 has a write to KP, KQ or KE do. -/
theorem storeBig_reserved {reg : BigReg} {j : Nat} {s : State} (hj : s.params.nbits / 32 ≤ j) (v : Word) :
    storeBig reg j v s = if reg.isKeySource then dropKey s else s := by
  rw [storeBig, setSlotWord_reserved hj, setBigReg_bigReg]

/-! ## Admission -/

/-- What an admitted access satisfies (20_memory.md R85, R86, R88). -/
theorem admitted_eq_some {p : Params} {o n : Nat} {isWrite : Bool} {item : Item} :
    admitted p o n isWrite = some item ↔
      itemAt p o = some item ∧ (item.wordOnly = true → n = 4) ∧ o % n = 0 ∧ itemAt p (o + n - 1) = some item ∧
        (isWrite = true → item.writable p = true) := by
  unfold admitted
  split
  · next h => simp [h]
  · next it h =>
    rw [h]
    constructor
    · intro hh
      split at hh
      · next hc =>
        obtain rfl := Option.some.inj hh
        simp only [Bool.and_eq_true, Bool.or_eq_true, Bool.not_eq_true', beq_iff_eq] at hc
        obtain ⟨⟨⟨h1, h2⟩, h3⟩, h4⟩ := hc
        refine ⟨rfl, fun hw => ?_, h2, h3, fun hw => ?_⟩
        · rcases h1 with h1 | h1
          · rw [h1] at hw
            cases hw
          · exact h1
        · rcases h4 with h4 | h4
          · rw [h4] at hw
            cases hw
          · exact h4
      · cases hh
    · rintro ⟨h0, h1, h2, h3, h4⟩
      obtain rfl := Option.some.inj h0
      rw [if_pos]
      simp only [Bool.and_eq_true, Bool.or_eq_true, Bool.not_eq_true', beq_iff_eq]
      refine ⟨⟨⟨?_, h2⟩, h3⟩, ?_⟩
      · cases hw : it.wordOnly
        · exact .inl rfl
        · exact .inr (h1 hw)
      · cases hw : isWrite
        · exact .inl rfl
        · exact .inr (h4 hw)

/-- A word of a big-number slot is admitted, for a write if the register is writable or the word is reserved
(10_state.md R40, 20_memory.md R88). -/
theorem admitted_bigWord {p : Params} {reg : BigReg} {k j : Nat} {isWrite : Bool} (hk : bigMap[k]? = some reg)
    (hw : isWrite = true → reg.writable = true ∨ p.nbits / 32 ≤ j) (hj : j < 16) :
    admitted p (0x100 + 64 * k + 4 * j) 4 isWrite = some (.bigWord reg j) := by
  have hk14 : k < 14 := by
    by_contra h
    rw [List.getElem?_eq_none (by simp only [bigMap, List.length_cons, List.length_nil]; omega)] at hk
    cases hk
  have hitem : ∀ d < 4, itemAt p (0x100 + 64 * k + 4 * j + d) = some (.bigWord reg j) := by
    intro d hd
    unfold itemAt
    rw [if_neg (by omega), if_pos (by omega), show (0x100 + 64 * k + 4 * j + d - 0x100) / 64 = k by omega, hk,
      Option.map_some, show (0x100 + 64 * k + 4 * j + d - 0x100) % 64 / 4 = j by omega]
  refine admitted_eq_some.2 ⟨hitem 0 (by omega), fun _ => rfl, by omega, hitem 3 (by omega), fun h => ?_⟩
  simpa only [Item.writable, Bool.or_eq_true, decide_eq_true_eq] using hw h

/-! ## Host accesses -/

/-- A read changes nothing but ACC_ERR, the draws and the answers (20_memory.md R90). -/
theorem hostRead_cases (o : Nat) (n : Width) (s : State) :
    ∃ k v acc, hostRead o n s =
      { s with
        status := { s.status with accErr := s.status.accErr || acc }
        draws := s.draws + k
        replies := v :: s.replies } := by
  unfold hostRead
  split
  · exact ⟨0, 0, true, by simp [setAccErr, State.reply]⟩
  · exact ⟨_, _, false, by simp only [State.drawn, State.reply, Bool.or_false]; rfl⟩

/-- A 32-bit read whose four bytes are those of a word answers the word and changes nothing else. -/
theorem hostRead_word {s : State} {o : Nat} {w : Word} {item : Item}
    (ha : admitted s.params o 4 false = some item) (hb : s.isBusy = false ∨ item.busyReadable = true)
    (hi : ∀ i < 4, itemByte s item (o + i) = some (byteOfWord w i)) :
    hostRead o .w4 s = { s with replies := w :: s.replies } := by
  have hb : (s.isBusy && !item.busyReadable) = false := by rcases hb with h | h <;> simp [h]
  have hcells : (List.range 4).map (fun i => itemByte s item (o + i)) = (leBytes 4 w).map some := by
    simp only [leBytes, List.map_map]
    exact List.map_congr_left fun i h => hi i (List.mem_range.1 h)
  have hw : BitVec.ofNat 32 (w.toNat % 256 ^ 4) = w := by
    rw [Nat.mod_eq_of_lt (by have := w.isLt; omega), BitVec.ofNat_toNat, BitVec.setWidth_eq]
  simp only [hostRead, Width.bytes, ha, readCells, hb, Bool.false_eq_true, if_false, hcells, settle_map_some,
    undefinedCount_map_some, leValue_leBytes, hw]
  rfl

/-- A read of a control register answers its word. -/
theorem hostRead_ctl {s : State} {o : Nat} {reg : CtlReg} (ha : admitted s.params o 4 false = some (.ctl reg))
    (hb : s.isBusy = false ∨ Item.busyReadable (.ctl reg) = true) (ho : o % 4 = 0) :
    hostRead o .w4 s = { s with replies := ctlWord s reg :: s.replies } :=
  hostRead_word ha hb fun i hi => by simp only [itemByte]; rw [show (o + i) % 4 = i by omega]

/-- Everything a write can do (20_memory.md R82). -/
theorem hostWrite_cases (o : Nat) (n : Width) (v : Word) (s : State) :
    hostWrite o n v s = setAccErr s ∨ hostWrite o n v s = writeCtrl v s ∨ hostWrite o n v s = writeStatus v s ∨
      (s.isBusy = true ∧ (hostWrite o n v s = setCmdOvr s ∨ hostWrite o n v s = setBusyWr s)) ∨
      (s.isBusy = false ∧ ∃ item, admitted s.params o n.bytes true = some item ∧
        hostWrite o n v s = storeItem item o n.bytes v s) := by
  unfold hostWrite
  split
  · exact .inl rfl
  · exact .inr (.inl rfl)
  · exact .inr (.inr (.inl rfl))
  · next item _ _ h =>
    by_cases hb : s.isBusy = true
    · rw [if_pos hb]
      split
      · exact .inr (.inr (.inr (.inl ⟨hb, .inl rfl⟩)))
      · exact .inr (.inr (.inr (.inl ⟨hb, .inr rfl⟩)))
    · rw [if_neg hb]
      exact .inr (.inr (.inr (.inr ⟨by simpa using hb, _, h, rfl⟩)))

/-- The memory after an admitted write while idle: only a write of IN changes it. -/
theorem storeItem_mem (item : Item) (o n : Nat) (v : Word) (s : State) :
    (storeItem item o n v s).mem = if item = .inBuf then s.mem.writeMany o (leBytes n v) else s.mem := by
  cases item with
  | ctl reg => cases reg <;> rfl
  | bigWord reg j => cases reg <;> rfl
  | inBuf => rfl
  | fwd => rfl
  | inv => rfl
  | outBuf => rfl

/-- What no admitted write while idle changes. -/
theorem storeItem_keeps (item : Item) (o n : Nat) (v : Word) (s : State) :
    (storeItem item o n v s).params = s.params ∧ (storeItem item o n v s).inputs = s.inputs ∧
      (storeItem item o n v s).replies = s.replies ∧ (storeItem item o n v s).irqEn = s.irqEn ∧
      (storeItem item o n v s).lenOut = s.lenOut ∧ s.draws ≤ (storeItem item o n v s).draws ∧
      (storeItem item o n v s).status.tableValid = s.status.tableValid := by
  cases item with
  | ctl reg =>
    cases reg <;>
      first
      | exact ⟨rfl, rfl, rfl, rfl, rfl, Nat.le_refl s.draws, rfl⟩
      | exact ⟨rfl, rfl, rfl, rfl, rfl, Nat.le_succ s.draws, rfl⟩
  | bigWord reg j => cases reg <;> exact ⟨rfl, rfl, rfl, rfl, rfl, Nat.le_refl s.draws, rfl⟩
  | inBuf => exact ⟨rfl, rfl, rfl, rfl, rfl, Nat.le_refl s.draws, rfl⟩
  | fwd => exact ⟨rfl, rfl, rfl, rfl, rfl, Nat.le_refl s.draws, rfl⟩
  | inv => exact ⟨rfl, rfl, rfl, rfl, rfl, Nat.le_refl s.draws, rfl⟩
  | outBuf => exact ⟨rfl, rfl, rfl, rfl, rfl, Nat.le_refl s.draws, rfl⟩

/-- Everything an arrival that is handled can do. -/
theorem handleEvent_cases {ev : Event} {s t : State} (h : handleEvent ev s = .next t) :
    t = s.hardwareReset ∨ (∃ o n, t = hostRead o n s) ∨ ∃ o n v, t = hostWrite o n v s := by
  cases ev with
  | read addr n =>
    simp only [handleEvent] at h
    split at h
    · cases h
    · exact .inr (.inl ⟨_, _, (Host.Outcome.next.inj h).symm⟩)
  | write addr n v =>
    simp only [handleEvent] at h
    split at h
    · cases h
    · exact .inr (.inr ⟨_, _, _, (Host.Outcome.next.inj h).symm⟩)
  | reset => exact .inl (Host.Outcome.next.inj h).symm

/-! ## The step -/

/-- Everything a step can do: a completion, a reset, a read, a write, or nothing but the passing of time. -/
theorem step_cases {s t : State} (h : step s = .next t) :
    (∃ w, s.phase = .busy w 0 ∧ completeWord w s = .next t) ∨
      ∃ ph, (ph = s.phase ∨ ∃ w n, s.phase = .busy w (n + 1) ∧ ph = .busy w n) ∧
        ((s.inputs = [] ∧ t = { s with phase := ph }) ∨
          ∃ ev rest, s.inputs = ev :: rest ∧ handleEvent ev { s with phase := ph, inputs := rest } = .next t) := by
  have take : ∀ ph, takeInput { s with phase := ph } = .next t →
      (s.inputs = [] ∧ t = { s with phase := ph }) ∨
        ∃ ev rest, s.inputs = ev :: rest ∧ handleEvent ev { s with phase := ph, inputs := rest } = .next t := by
    intro ph h
    unfold takeInput at h
    split at h
    · next hi => exact .inl ⟨hi, (Host.Outcome.next.inj h).symm⟩
    · next ev rest hi => exact .inr ⟨ev, rest, hi, h⟩
  unfold step advance at h
  split at h
  · next hp => exact .inr ⟨s.phase, .inl rfl, take _ h⟩
  · next w hp => exact .inl ⟨w, hp, h⟩
  · next w n hp => exact .inr ⟨_, .inr ⟨w, n, hp, rfl⟩, take _ h⟩

end Sys2Proof.Machine
end

