-- ==== Sys2Proof/Laws/Cipher.lean ====
section
/-! SUPPORT. The bit permutations of the block cipher, and one Feistel round undone. -/

namespace Sys2Proof.Machine

/-- Bit `i` of a permuted number is the bit of the argument that the table names at that place. -/
theorem permuteBits_testBit (n : Nat) (table : List Nat) (x i : Nat) :
    (permuteBits n table x).testBit i =
      if h : i < table.length then x.testBit (n - table[table.length - 1 - i]) else false := by
  induction table using List.reverseRecOn generalizing i with
  | nil => simp [permuteBits]
  | append_singleton table t ih =>
    have hstep : permuteBits n (table ++ [t]) x = 2 * permuteBits n table x + (x.testBit (n - t)).toNat := by
      simp [permuteBits, List.foldl_append]
    rw [hstep]
    cases i with
    | zero =>
      simp only [List.length_append, List.length_singleton, Nat.add_sub_cancel, Nat.sub_zero]
      rw [dif_pos (by omega), List.getElem_concat_length rfl, Nat.testBit_zero]
      cases x.testBit (n - t) <;> simp
    | succ i =>
      rw [Nat.testBit_succ, show (2 * permuteBits n table x + (x.testBit (n - t)).toNat) / 2 = permuteBits n table x by
        cases x.testBit (n - t)
        · simp
        · simp; omega, ih]
      by_cases h : i < table.length
      · rw [dif_pos h, dif_pos (by simpa using h)]
        congr 2
        rw [List.getElem_append_left (by simp; omega)]
        congr 1
        simp
        omega
      · rw [dif_neg h, dif_neg (by simpa using h)]

theorem permuteBits_lt (n : Nat) (table : List Nat) (x : Nat) : permuteBits n table x < 2 ^ table.length :=
  Nat.lt_pow_two_of_testBit _ fun i hi => by rw [permuteBits_testBit, dif_neg (by omega)]

/-- Two permutations in a row that name every place restore a 64-bit number. -/
theorem permuteBits_inverse {t u : List Nat} (ht : t.length = 64) (hu : u.length = 64)
    (h : ∀ i, (hi : i < 64) → 64 - (u[63 - i]'(by omega)) < 64 ∧
      64 - t.getD (63 - (64 - (u[63 - i]'(by omega)))) 0 = i) {x : Nat} (hx : x < 2 ^ 64) :
    permuteBits 64 u (permuteBits 64 t x) = x := by
  refine Nat.eq_of_testBit_eq fun i => ?_
  rw [permuteBits_testBit]
  by_cases hi : i < 64
  · rw [dif_pos (by omega), permuteBits_testBit]
    obtain ⟨h1, h2⟩ := h i hi
    have e : u.length - 1 - i = 63 - i := by omega
    simp only [e, ht]
    rw [dif_pos h1]
    rw [List.getD_eq_getElem _ _ (by omega)] at h2
    rw [h2]
  · rw [dif_neg (by omega)]
    exact (Nat.testBit_lt_two_pow (hx.trans_le (Nat.pow_le_pow_right (by omega) (by omega)))).symm

/-- The final permutation undoes the initial one. -/
theorem desFP_desIP {x : Nat} (hx : x < 2 ^ 64) : permuteBits 64 desFP (permuteBits 64 desIP x) = x :=
  permuteBits_inverse rfl rfl (by decide) hx

/-- The initial permutation undoes the final one. -/
theorem desIP_desFP {x : Nat} (hx : x < 2 ^ 64) : permuteBits 64 desIP (permuteBits 64 desFP x) = x :=
  permuteBits_inverse rfl rfl (by decide) hx

/-- A round, on the exchanged halves, is its own inverse. -/
theorem desRound_swap (h : BitVec 32 × BitVec 32) (k : BitVec 48) :
    desRound (desRound h k).swap k = h.swap := by
  obtain ⟨l, r⟩ := h
  simp only [desRound, Prod.swap]
  rw [BitVec.xor_assoc, BitVec.xor_self, BitVec.xor_zero]

end Sys2Proof.Machine
end

