-- ==== Sys2Proof/Laws/Codec.lean ====
section
/-! SUPPORT. Padding and stripping of bit strings, and the two directions of the codec on them. -/

namespace Sys2Proof.Machine

/-! ## Padding -/

/-- The padding loop appends the least number of sentinels that reaches a multiple of `k`, if its fuel allows. -/
theorem padLoop_eq (k : Nat) (c : Bool) (fuel : Nat) (p : List Bool) (hk : 1 ≤ k)
    (hf : (k - p.length % k) % k ≤ fuel) :
    padLoop k c fuel p = p ++ List.replicate ((k - p.length % k) % k) c := by
  induction fuel generalizing p with
  | zero =>
    rw [Nat.le_zero.1 hf]
    simp [padLoop]
  | succ fuel ih =>
    rw [padLoop]
    have hlt := Nat.mod_lt p.length hk
    by_cases h : p.length % k = 0
    · simp [h]
    · rw [if_neg h]
      have h1 : (k - p.length % k) % k = k - p.length % k := Nat.mod_eq_of_lt (by omega)
      have h2 : (k - (p ++ [c]).length % k) % k = k - p.length % k - 1 := by
        rw [List.length_append, List.length_singleton, Nat.add_mod]
        rcases Nat.eq_or_lt_of_le (show 1 ≤ k from hk) with rfl | hk2
        · omega
        rw [Nat.mod_eq_of_lt hk2]
        rcases Nat.eq_or_lt_of_le (show p.length % k + 1 ≤ k by omega) with e | hl
        · rw [e, Nat.mod_self, Nat.sub_zero, Nat.mod_self]
          omega
        · rw [Nat.mod_eq_of_lt hl, Nat.mod_eq_of_lt (by omega)]
          omega
      rw [ih _ (by omega), h2, h1, List.append_assoc, List.singleton_append, ← List.replicate_succ,
        show k - p.length % k - 1 + 1 = k - p.length % k by omega]

/-- Padding of a bit string with last bit `c` (41_bitcodec.md R205). -/
theorem padBits_append (b : List Bool) (c : Bool) (k : Nat) (hk : 1 ≤ k) :
    padBits (b ++ [c]) k = b ++ [c] ++ List.replicate (k - (b.length + 1) % k) (!c) := by
  have hlt := Nat.mod_lt (b.length + 1) hk
  have hlast : (b ++ [c]).getLastD false = c := by simp
  rw [padBits, hlast, padLoop_eq k (!c) k _ hk (by have := Nat.mod_lt (k - (b ++ [c] ++ [!c]).length % k) hk; omega),
    List.append_assoc, List.singleton_append, ← List.replicate_succ]
  congr 2
  have hlen : (b ++ [c] ++ [!c]).length = b.length + 1 + 1 := by simp
  rw [hlen]
  rcases Nat.eq_or_lt_of_le hk with rfl | hk2
  · omega
  · rw [Nat.add_mod, Nat.mod_eq_of_lt hk2]
    rcases Nat.eq_or_lt_of_le (show (b.length + 1) % k + 1 ≤ k by omega) with e | hl
    · rw [e, Nat.mod_self, Nat.sub_zero, Nat.mod_self]
      omega
    · rw [Nat.mod_eq_of_lt hl, Nat.mod_eq_of_lt (by omega)]
      omega

/-- The padded length is the next multiple of `k` above the length (41_bitcodec.md R205). -/
theorem padBits_length {b : List Bool} (hb : b ≠ []) {k : Nat} (hk : 1 ≤ k) :
    (padBits b k).length = (b.length / k + 1) * k := by
  obtain ⟨b, c, rfl⟩ : ∃ b' c, b = b' ++ [c] := ⟨b.dropLast, b.getLast hb, (List.dropLast_append_getLast hb).symm⟩
  have hlt := Nat.mod_lt (b.length + 1) hk
  have hd := Nat.div_add_mod (b.length + 1) k
  rw [padBits_append b c k hk, Nat.succ_mul, Nat.mul_comm]
  simp only [List.length_append, List.length_singleton, List.length_replicate]
  omega

/-! ## Stripping -/

theorem stripReversed_replicate (n : Nat) (c : Bool) (rest : List Bool) :
    stripReversed (List.replicate (n + 1) (!c) ++ c :: rest) = c :: rest := by
  induction n with
  | zero => cases c <;> simp [stripReversed]
  | succ n ih =>
    rw [List.replicate_succ, List.replicate_succ, List.cons_append, List.cons_append, stripReversed, if_pos rfl,
      ← List.cons_append, ← List.replicate_succ, ih]

/-- Stripping takes off a run of sentinels down to the bit that differs (41_bitcodec.md R206). -/
theorem stripBits_run (b : List Bool) (c : Bool) (n : Nat) :
    stripBits (b ++ [c] ++ List.replicate (n + 1) (!c)) = b ++ [c] := by
  rw [stripBits, List.reverse_append, List.reverse_append, List.reverse_replicate, List.reverse_singleton,
    List.singleton_append, stripReversed_replicate]
  simp

/-- Stripping undoes padding (41_bitcodec.md R225). -/
theorem stripBits_padBits {b : List Bool} (hb : b ≠ []) {k : Nat} (hk : 1 ≤ k) : stripBits (padBits b k) = b := by
  obtain ⟨b, c, rfl⟩ : ∃ b' c, b = b' ++ [c] := ⟨b.dropLast, b.getLast hb, (List.dropLast_append_getLast hb).symm⟩
  have hlt := Nat.mod_lt (b.length + 1) hk
  rw [padBits_append b c k hk, show k - (b.length + 1) % k = k - (b.length + 1) % k - 1 + 1 by omega, stripBits_run]

/-! ## Chunks -/

@[simp] theorem encodeChunks_length (ex md k : Nat) (p : List Bool) :
    (encodeChunks ex md k p).length = p.length / k * bitlen md := by
  rw [encodeChunks, flatMap_length_eq (bitlen md) _ _ (fun _ _ => binW_length _ _), pieces_length]

/-- The exponent is applied chunk by chunk in both directions (41_bitcodec.md R210, R220). -/
theorem decodeValues_encodeChunks {ex₁ ex₂ md k : Nat} (hmd : 1 < md) (p : List Bool) :
    decodeValues ex₂ md (encodeChunks ex₁ md k p) =
      (pieces k (p.length / k) p).map fun ch => powMod (powMod (bitsVal ch) ex₁ md) ex₂ md := by
  have hw : 0 < bitlen md := lt_of_le_of_lt (Nat.zero_le 0) (lt_bitlen (k := 0) (by simpa using hmd))
  rw [decodeValues, encodeChunks_length, Nat.mul_div_cancel _ hw]
  have h := pieces_flatMap (bitlen md) (fun ch : List Bool => binW (bitlen md) (powMod (bitsVal ch) ex₁ md))
    (pieces k (p.length / k) p) (fun _ _ => binW_length _ _)
  rw [pieces_length] at h
  rw [encodeChunks, h, List.map_map]
  refine List.map_congr_left fun ch _ => ?_
  simp only [Function.comp, bitsVal_binW]
  rw [Nat.mod_eq_of_lt ((powMod_lt _ _ (by omega)).trans (lt_two_pow_bitlen md))]

/-- The chunk values rendered again are the bit string (41_bitcodec.md R225). -/
theorem flatMap_binW_pieces (k c : Nat) (p : List Bool) (h : p.length = c * k) :
    (pieces k c p).flatMap (fun ch => binW k (bitsVal ch)) = p := by
  conv_rhs => rw [← flatMap_pieces k c p h]
  rw [List.flatMap_def, List.flatMap_def]
  congr 1
  refine List.map_congr_left fun ch hch => ?_
  have := pieces_piece_length (le_of_eq h.symm) hch
  conv_lhs => rw [← this]
  exact binW_bitsVal ch

end Sys2Proof.Machine
end

