-- ==== Sys2Proof/Laws/Decode.lean ====
section
/-! SUPPORT. The decoder on the bytes of a word. -/

namespace Sys2Proof.Machine

/-- Decoding the bytes of a word is decoding the word (30_encoding.md R121, 20_memory.md R83). -/
theorem decodeBytes_leBytes (w : Word) : decodeBytes (leBytes 4 w) = decodeWord w := by
  have h : wordOfBytes (byteOfWord w 0) (byteOfWord w 1) (byteOfWord w 2) (byteOfWord w 3) = w := by
    refine BitVec.eq_of_getLsbD_eq fun i hi => ?_
    simp only [wordOfBytes, byteOfWord, BitVec.getLsbD_append, BitVec.getLsbD_setWidth, BitVec.getLsbD_ushiftRight]
    split
    · simp [*]
    split
    · have : i - 8 < 8 := by omega
      simp [this, show 8 + (i - 8) = i by omega]
    split
    · have : i - 8 - 8 < 8 := by omega
      simp [this, show 16 + (i - 8 - 8) = i by omega]
    · have : i - 8 - 8 - 8 < 8 := by omega
      simp [this, show 24 + (i - 8 - 8 - 8) = i by omega]
  exact congrArg decodeWord h

/-- The fields of a word: its reserved bits, its key select and its operation code make it up (30_encoding.md R120). -/
theorem word_fields (w : Word) : rsvOf w ++ kselOf w ++ opcOf w = w := by
  refine BitVec.eq_of_getLsbD_eq fun i hi => ?_
  simp only [rsvOf, kselOf, opcOf, BitVec.getLsbD_append, BitVec.getLsbD_extractLsb']
  split
  · simp [*]
  split
  · have : i - 8 < 2 := by omega
    simp [this, show 8 + (i - 8) = i by omega]
  · have : i - 8 - 2 < 22 := by omega
    simp [this, show 10 + (i - 8 - 2) = i by omega]

end Sys2Proof.Machine
end

