-- ==== Sys2Proof/Laws/Exec.lean ====
section
/-! SUPPORT. What the shared operations and the commands can do, said once. -/

namespace Sys2Proof.Machine

/-! ## Completions -/

/-- A successful completion, spelled out. -/
theorem completeOk_eq (s : State) : completeOk s = afterSuccess s := rfl

/-- An error completion clears the key flags for a failed construction only (60_exceptions.md R350). -/
theorem raiseError_eq (i : Option Instr) (code : ErrCode) (s : State) :
    raiseError i code s =
      if isKeyCommand i && isConstructCode code then afterKeyError code s else afterError code s := by
  unfold raiseError
  cases isKeyCommand i && isConstructCode code <;> simp [afterKeyError, afterError]

theorem raiseError_plain {i : Option Instr} {code : ErrCode} (h : (isKeyCommand i && isConstructCode code) = false)
    (s : State) : raiseError i code s = afterError code s := by rw [raiseError_eq, h]; rfl

theorem raiseError_key {i : Option Instr} {code : ErrCode} (h : (isKeyCommand i && isConstructCode code) = true)
    (s : State) : raiseError i code s = afterKeyError code s := by rw [raiseError_eq, h]; rfl

/-! ## Operands -/

/-- Draws add up. -/
theorem drawn_drawn (s : State) (m n : Nat) : (s.drawn m).drawn n = s.drawn (m + n) := by
  simp [State.drawn, Nat.add_assoc]

theorem tookInput_eq (s : State) : tookInput s = { s with draws := s.draws + undefinedCount (inCells s) } := rfl

@[simp] theorem inBytes_length (s : State) : (inBytes s).length = s.lenIn.toNat := by simp [inBytes, inCells]

/-- An input that is defined is taken as it is, with no draw. -/
theorem inBytes_of_inputIs {s : State} {bs : List Byte} (h : inputIs s bs) :
    inBytes s = bs ∧ undefinedCount (inCells s) = 0 := by
  have hc : inCells s = bs.map some := by rw [inCells, h.1, readMany_of_holds h.2]
  exact ⟨by rw [inBytes, hc, settle_map_some], by rw [hc, undefinedCount_map_some]⟩

theorem inputTooLong_iff (s : State) : inputTooLong s = true ↔ s.params.bufBytes < s.lenIn.toNat := by
  simp [inputTooLong]

/-- KSEL 1 and 2 need a key, and the two others always give a pair (41_bitcodec.md R201). -/
theorem keySelect_error {ks : KSel} {s : State} {code : ErrCode} (h : keySelect ks s = .error code) :
    code = .noKey ∧ s.status.keyValid = false ∧ (ks = .priv ∨ ks = .pub) := by
  cases ks with
  | x => simp [keySelect] at h
  | peer => simp [keySelect] at h
  | priv =>
    simp only [keySelect] at h
    split at h
    · cases h
    · next hkv => exact ⟨(Except.error.inj h).symm, by simpa using hkv, .inl rfl⟩
  | pub =>
    simp only [keySelect] at h
    split at h
    · cases h
    · next hkv => exact ⟨(Except.error.inj h).symm, by simpa using hkv, .inr rfl⟩

theorem codecCheck_none {md k : Nat} : codecCheck md k = none ↔ 1 ≤ k ∧ 2 ^ k < md := by
  unfold codecCheck
  split
  · next h => subst h; simp
  · split
    · next h => simp; omega
    · next h => simp; omega

theorem codecCheck_some {md k : Nat} {code : ErrCode} (h : codecCheck md k = some code) :
    (code = .domain ∧ md = 0) ∨ (code = .config ∧ md ≠ 0 ∧ (k = 0 ∨ md ≤ 2 ^ k)) := by
  unfold codecCheck at h
  split at h
  · next hm => exact .inl ⟨(Option.some.inj h).symm, hm⟩
  · split at h
    · next hm hk => exact .inr ⟨(Option.some.inj h).symm, hm, by omega⟩
    · cases h

/-! ## Construction -/

theorem big_toNat (x : Big) : big x.toNat = x := (BitVec.ofNat_toNat 512 x).trans (BitVec.setWidth_eq x)

/-- A number below 2^NBITS keeps its value in a big-number register (10_state.md R40). -/
theorem big_toNat_of_lt {v n : Nat} (h : v < 2 ^ n) (hn : n ≤ 512) : (big v).toNat = v := by
  rw [big, BitVec.toNat_ofNat, Nat.mod_eq_of_lt (h.trans_le (Nat.pow_le_pow_right (by omega) hn))]

/-- A construction that succeeds makes a KeyPair, and its modulus is above 2^k (40_modular.md R157 to R161). -/
theorem construct_ok {p q e k : Nat} {key : KeyParts} (hp : 2 ≤ p) (hq : 2 ≤ q) (h : construct p q e k = .ok key) :
    2 ^ k < key.n ∧ IsKey p q e key.n key.d key.dP key.dQ key.qinv key.noQinv := by
  simp only [construct] at h
  split at h
  · cases h
  split at h
  · cases h
  next hk hg =>
  obtain rfl := Except.ok.inj h
  obtain ⟨h2, -⟩ := phiOf_pos hp hq
  obtain ⟨hlt, hinv⟩ := modInv_spec (a := e) (m := phiOf p q) (by omega) (by omega)
  refine ⟨by simpa using hk, ⟨rfl, hinv, hlt, rfl, rfl, by simp, fun hno => ?_, fun hno => ?_⟩⟩
  · have hg' : Nat.gcd (q % p) p = 1 := by simpa using hno
    obtain ⟨h3, h4⟩ := modInv_spec (a := q) (m := p) (by omega) hg'
    simp only [hg', if_true]
    exact ⟨h4, h3⟩
  · have hg' : ¬ Nat.gcd (q % p) p = 1 := by simpa using hno
    simp [hg']

theorem construct_error {p q e k : Nat} {code : ErrCode} (h : construct p q e k = .error code) :
    (code = .config ∧ p * q ≤ 2 ^ k) ∨
      (code = .keygen ∧ 2 ^ k < p * q ∧ Nat.gcd (e % phiOf p q) (phiOf p q) ≠ 1) := by
  simp only [construct] at h
  split at h
  · exact .inl ⟨(Except.error.inj h).symm, by omega⟩
  split at h
  · exact .inr ⟨(Except.error.inj h).symm, by omega, ‹_›⟩
  · cases h

/-! ## The lengths of the outputs -/

/-- DECODE's output is no longer than its input (41_bitcodec.md R220: `1 ≤ k < w`). -/
theorem stripBits_length_le (p : List Bool) : (stripBits p).length ≤ p.length := by
  have h : ∀ r : List Bool, (stripReversed r).length ≤ r.length := by
    intro r
    induction r with
    | nil => simp [stripReversed]
    | cons b r ih =>
      cases r with
      | nil => simp [stripReversed]
      | cons c r =>
        rw [stripReversed]
        split
        · exact ih.trans (Nat.le_succ _)
        · simp
  simpa [stripBits] using h p.reverse

theorem decoded_length_le {ex md k : Nat} (hk : 2 ^ k < md) (bits : List Bool) :
    (stripBits ((decodeValues ex md bits).flatMap (binW k))).length ≤ bits.length := by
  refine (stripBits_length_le _).trans ?_
  rw [flatMap_length_eq k _ _ (fun _ _ => binW_length _ _)]
  simp only [decodeValues, List.length_map, pieces_length]
  exact (Nat.mul_le_mul_left _ (lt_bitlen hk).le).trans (Nat.div_mul_le_self _ _)

theorem unpadBytes_length_le {c m : List Byte} (h : unpadBytes c = some m) : m.length ≤ c.length := by
  simp only [unpadBytes] at h
  split at h
  · cases h
  · split at h
    · obtain rfl := Option.some.inj h
      simp
    · cases h

/-! ## The commands -/

/-- What a successful command did to the state before its completion. -/
def Effect (i : Instr) (s u : State) : Prop :=
  ((i = .powmod ∨ i = .invert) ∧ ∃ v < s.m.toNat, u = s.withR (big v)) ∨
  ((i = .keygen ∨ i = .keyset) ∧ ∃ (n p q e : Nat) (key : KeyParts),
    2 ≤ p ∧ 2 ≤ q ∧ (p * q < 2 ^ 64 ∧ e < 2 ^ 32 ∨ p * q < 2 ^ s.params.nbits ∧ p = s.kp.toNat ∧ q = s.kq.toNat ∧ e = s.ke.toNat) ∧
    construct p q e (chunkSize s) = .ok key ∧
    u = (storeKey key (s.drawn n)).withPrimes (big p) (big q) (big e)) ∨
  (i = .tderive ∧ ∃ n a, u = (s.drawn n).withTables ((deriveTable s.params.tableRounds a).map (BitVec.ofNat 8))
    ((invertTable (deriveTable s.params.tableRounds a)).map (BitVec.ofNat 8))) ∨
  (∃ n bs, bs.length ≤ s.params.bufBytes ∧ u = (s.drawn n).withOut bs) ∨
  (i = .xfer ∧ ∃ n bs, bs.length = s.lenOut.toNat ∧ u = (s.drawn n).withIn bs s.lenOut)

/-- Every command completes: with one error code, or with its effect and success (60_exceptions.md R340). -/
theorem exec_cases (i : Instr) (s : State) :
    (∃ n code, code ≠ .none ∧ exec i s = .next (raiseError (some i) code (s.drawn n))) ∨
      ∃ u, Effect i s u ∧ exec i s = .next (completeOk u) := by
  cases i with
  | powmod =>
    simp only [exec, execPowmod]
    split
    · exact .inl ⟨0, .domain, by simp, rfl⟩
    · next hm =>
      refine .inr ⟨_, .inl ⟨.inl rfl, _, powMod_lt _ _ ?_, rfl⟩, rfl⟩
      exact Nat.pos_of_ne_zero fun h => hm (by rw [← big_toNat s.m, h]; rfl)
  | invert =>
    simp only [exec, execInvert]
    split
    · exact .inl ⟨0, .domain, by simp, rfl⟩
    split
    · exact .inl ⟨0, .notInvertible, by simp, rfl⟩
    · next hm hg =>
      refine .inr ⟨_, .inl ⟨.inr rfl, _, (modInv_spec ?_ (by omega)).1, rfl⟩, rfl⟩
      exact Nat.pos_of_ne_zero fun h => hm (by rw [← big_toNat s.m, h]; rfl)
  | keygen =>
    simp only [exec, execKeygen]
    split
    · exact .inl ⟨0, .noPrimes, by simp, rfl⟩
    next hc =>
    have hmem : ∀ j, (primes s.plo.toNat s.phi.toNat).getD (j % (primes s.plo.toNat s.phi.toNat).length) 0 ∈
        primes s.plo.toNat s.phi.toNat := fun j => by
      rw [List.getD_eq_getElem _ _ (Nat.mod_lt _ (Nat.pos_of_ne_zero hc))]
      exact List.getElem_mem _
    have hpr : ∀ v ∈ primes s.plo.toNat s.phi.toNat, 2 ≤ v ∧ v < 2 ^ 32 := fun v hv => by
      simp only [primes, List.mem_filter, List.mem_range', isPrime, Bool.and_eq_true, decide_eq_true_eq] at hv
      obtain ⟨⟨j, hj, rfl⟩, h2, -⟩ := hv
      have := s.phi.isLt
      omega
    simp only [keygenWith]
    have hp := hpr _ (hmem (Config.draw s.draws))
    have hq := hpr _ (hmem (Config.draw (s.draws + 1)))
    have he := hpr _ (hmem (Config.draw (s.draws + 2)))
    split
    · next code hcons =>
      refine .inl ⟨3, code, ?_, rfl⟩
      rcases construct_error hcons with ⟨rfl, -⟩ | ⟨rfl, -⟩ <;> simp
    · next key hcons =>
      refine .inr ⟨_, .inr (.inl ⟨.inl rfl, 3, _, _, _, key, hp.1, hq.1, .inl ⟨?_, he.2⟩, hcons, rfl⟩), rfl⟩
      exact (Nat.mul_lt_mul'' hp.2 hq.2).trans_le (by norm_num)
  | keyset =>
    simp only [exec, execKeyset]
    split
    · exact .inl ⟨0, .config, by simp, rfl⟩
    split
    · exact .inl ⟨0, .config, by simp, rfl⟩
    split
    · next code hcons =>
      refine .inl ⟨0, code, ?_, rfl⟩
      rcases construct_error hcons with ⟨rfl, -⟩ | ⟨rfl, -⟩ <;> simp
    · next hpq hn _ key hcons =>
      refine .inr ⟨_, .inr (.inl ⟨.inr rfl, 0, _, _, _, key, by omega, by omega, .inr ⟨by omega, rfl, rfl, rfl⟩, hcons, ?_⟩),
        rfl⟩
      simp [State.withPrimes, storeKey, State.withDerived, big_toNat, State.drawn]
  | encode k =>
    simp only [exec, execEncode]
    split
    · exact .inl ⟨0, .length, by simp, rfl⟩
    split
    · next hks => exact .inl ⟨0, _, by rw [(keySelect_error hks).1]; simp, rfl⟩
    split
    · next hcc =>
      refine .inl ⟨0, _, ?_, rfl⟩
      rcases codecCheck_some hcc with ⟨rfl, -⟩ | ⟨rfl, -⟩ <;> simp
    · next hcc =>
      simp only [encodeWith]
      split
      · exact .inl ⟨0, .emptyInput, by simp, rfl⟩
      split
      · exact .inl ⟨_, .length, by simp, rfl⟩
      · next hlen =>
        refine .inr ⟨_, .inr (.inr (.inr (.inl ⟨_, _, ?_, rfl⟩))), rfl⟩
        rw [List.length_map, encodeChunks_length]
        omega
  | decode k =>
    simp only [exec, execDecode]
    split
    · exact .inl ⟨0, .length, by simp, rfl⟩
    next hlen =>
    split
    · next hks => exact .inl ⟨0, _, by rw [(keySelect_error hks).1]; simp, rfl⟩
    split
    · next hcc =>
      refine .inl ⟨0, _, ?_, rfl⟩
      rcases codecCheck_some hcc with ⟨rfl, -⟩ | ⟨rfl, -⟩ <;> simp
    · next hcc =>
      simp only [decodeWith]
      split
      · exact .inl ⟨0, .decUnderflow, by simp, rfl⟩
      split
      · exact .inl ⟨_, .decFormat, by simp, rfl⟩
      next bits hbits =>
      split
      · exact .inl ⟨_, .decFormat, by simp, rfl⟩
      simp only [decodeBits]
      split
      · exact .inl ⟨_, .decOverflow, by simp, rfl⟩
      split
      · exact .inl ⟨_, .decUnderflow, by simp, rfl⟩
      split
      · exact .inl ⟨_, .decFormat, by simp, rfl⟩
      · refine .inr ⟨_, .inr (.inr (.inr (.inl ⟨_, _, ?_, rfl⟩))), rfl⟩
        have h1 := fun ex => decoded_length_le (ex := ex) (codecCheck_none.1 hcc).2 bits
        have h2 : bits.length = s.lenIn.toNat := by
          rw [← inBytes_length, mapM_charBit_eq_some hbits, List.length_map]
        rw [inputTooLong_iff] at hlen
        rw [bitsToBytes_length]
        exact (Nat.div_le_self _ _).trans ((h1 _).trans (by omega))
  | tderive =>
    simp only [exec, execTderive]
    split
    · exact .inl ⟨0, .length, by simp, rfl⟩
    · exact .inr ⟨_, .inr (.inr (.inl ⟨rfl, _, _, rfl⟩)), rfl⟩
  | subenc =>
    simp only [exec, execSubenc, substitute]
    split
    · exact .inl ⟨0, .length, by simp, rfl⟩
    split
    · exact .inl ⟨0, .noTable, by simp, rfl⟩
    · next hlen _ =>
      rw [inputTooLong_iff] at hlen
      refine .inr ⟨_, .inr (.inr (.inr (.inl ⟨_, _, ?_, congrArg (State.withOut · _) (drawn_drawn ..)⟩))), rfl⟩
      simp [lookupCells]
      omega
  | subdec =>
    simp only [exec, execSubdec, substitute]
    split
    · exact .inl ⟨0, .length, by simp, rfl⟩
    split
    · exact .inl ⟨0, .noTable, by simp, rfl⟩
    · next hlen _ =>
      rw [inputTooLong_iff] at hlen
      refine .inr ⟨_, .inr (.inr (.inr (.inl ⟨_, _, ?_, congrArg (State.withOut · _) (drawn_drawn ..)⟩))), rfl⟩
      simp [lookupCells]
      omega
  | ecbenc =>
    simp only [exec, execEcbenc]
    split
    · exact .inl ⟨0, .length, by simp, rfl⟩
    split
    · exact .inl ⟨_, .length, by simp, rfl⟩
    · refine .inr ⟨_, .inr (.inr (.inr (.inl ⟨_, _, ?_, rfl⟩))), rfl⟩
      rw [ecbMap_length]
      omega
  | ecbdec =>
    simp only [exec, execEcbdec]
    split
    · exact .inl ⟨0, .length, by simp, rfl⟩
    next hlen =>
    split
    · exact .inl ⟨0, .blockLen, by simp, rfl⟩
    split
    · exact .inl ⟨_, .padError, by simp, rfl⟩
    · next hm =>
      refine .inr ⟨_, .inr (.inr (.inr (.inl ⟨_, _, ?_, rfl⟩))), rfl⟩
      have := unpadBytes_length_le hm
      rw [ecbMap_length, inBytes_length] at this
      rw [inputTooLong_iff] at hlen
      omega
  | xfer =>
    exact .inr ⟨_, .inr (.inr (.inr (.inr ⟨rfl, _, _, by simp [outCells], rfl⟩))), rfl⟩

end Sys2Proof.Machine
end

