-- ==== Sys2Proof/Laws/PerInstr.lean ====
section
/-! SUPPORT. A statement for all commands, proved command by command. -/

namespace Sys2Proof.Laws.DecodeEncode

/-- The decoder reads a command back from its word (30_encoding.md R125, R128). -/
def Statement (i : Instr) : Prop := i.wellFormed = true ∧ decodeWord (Sys2Proof.encode i) = .ok i

theorem powmod : Statement .powmod := ⟨rfl, rfl⟩
theorem invert : Statement .invert := ⟨rfl, rfl⟩
theorem keygen : Statement .keygen := ⟨rfl, rfl⟩
theorem keyset : Statement .keyset := ⟨rfl, rfl⟩
theorem encode (ksel : KSel) : Statement (.encode ksel) := ⟨rfl, by cases ksel <;> rfl⟩
theorem decode (ksel : KSel) : Statement (.decode ksel) := ⟨rfl, by cases ksel <;> rfl⟩
theorem tderive : Statement .tderive := ⟨rfl, rfl⟩
theorem subenc : Statement .subenc := ⟨rfl, rfl⟩
theorem subdec : Statement .subdec := ⟨rfl, rfl⟩
theorem ecbenc : Statement .ecbenc := ⟨rfl, rfl⟩
theorem ecbdec : Statement .ecbdec := ⟨rfl, rfl⟩
theorem xfer : Statement .xfer := ⟨rfl, rfl⟩

end Sys2Proof.Laws.DecodeEncode
end

