-- ==== Sys2Proof/Laws/Substitution.lean ====
section
/-! SUPPORT. Insertion into a list sorted by a key, and the inverse of a permutation table. -/

namespace Sys2Proof.Machine

theorem insertByKey_perm (key : Nat → Nat) (x : Nat) (t : List Nat) : (insertByKey key x t).Perm (x :: t) := by
  induction t with
  | nil => exact List.Perm.refl _
  | cons y ys ih =>
    rw [insertByKey]
    split
    · exact List.Perm.refl _
    · exact (List.Perm.cons y ih).trans (List.Perm.swap x y ys)

theorem insertByKey_sorted (key : Nat → Nat) (x : Nat) (t : List Nat)
    (h : t.Pairwise fun a b => key a ≤ key b) : (insertByKey key x t).Pairwise fun a b => key a ≤ key b := by
  induction t with
  | nil => simp [insertByKey]
  | cons y ys ih =>
    obtain ⟨hy, hys⟩ := List.pairwise_cons.1 h
    rw [insertByKey]
    split
    · next hle =>
      refine List.pairwise_cons.2 ⟨fun z hz => ?_, h⟩
      rcases List.mem_cons.1 hz with rfl | hz
      · exact hle
      · exact hle.trans (hy z hz)
    · next hlt =>
      refine List.pairwise_cons.2 ⟨fun z hz => ?_, ih hys⟩
      rcases List.mem_cons.1 ((insertByKey_perm key x ys).mem_iff.1 hz) with rfl | hz
      · omega
      · exact hy z hz

/-- Insertion leaves the order of the elements with one key as consing does: the element goes before its equals. -/
theorem insertByKey_filter (key : Nat → Nat) (x v : Nat) (t : List Nat) :
    (insertByKey key x t).filter (fun z => key z == v) = (x :: t).filter (fun z => key z == v) := by
  induction t with
  | nil => rfl
  | cons y ys ih =>
    rw [insertByKey]
    split
    · rfl
    · next hlt =>
      rw [List.filter_cons, ih, List.filter_cons, List.filter_cons, List.filter_cons]
      by_cases hy : key y = v
      · have hx : ¬ key x = v := by omega
        simp [hy, hx]
      · simp [hy]

/-- Under a key that is constant on the list, insertion is consing. -/
theorem insertByKey_const (key : Nat → Nat) (x c : Nat) (t : List Nat) (hx : key x = c) (h : ∀ y ∈ t, key y = c) :
    insertByKey key x t = x :: t := by
  cases t with
  | nil => rfl
  | cons y ys => rw [insertByKey, if_pos (by rw [hx, h y (List.mem_cons_self ..)])]

@[simp] theorem invertTable_length (t : List Nat) : (invertTable t).length = 256 := by simp [invertTable]

/-- The inverse table leads from an entry back to its place. -/
theorem invertTable_getElem? {t : List Nat} (hp : t.Perm (List.range 256)) {x : Nat} (hx : x < 256) :
    ∃ y, t[x]? = some y ∧ y < 256 ∧ (invertTable t)[y]? = some x := by
  have hlen : t.length = 256 := by simpa using hp.length_eq
  have hnd : t.Nodup := hp.nodup_iff.2 List.nodup_range
  have hmem : t[x] < 256 := List.mem_range.1 (hp.mem_iff.1 (List.getElem_mem (by omega)))
  refine ⟨t[x], List.getElem?_eq_getElem (by omega), hmem, ?_⟩
  rw [invertTable, List.getElem?_map, List.getElem?_range hmem, Option.map_some]
  exact congrArg some (hnd.idxOf_getElem x (by omega))

end Sys2Proof.Machine
end

