-- ==== Sys2Proof/Machine/HostLines.lean ====
section
/-! DEFINITION. The assembler's lines as host accesses (30_encoding.md R127 to R129). Labels and the branches `bnz` and
`bz` are the host's control flow and no part of the engine (00_scope.md R28). -/

namespace Sys2Proof.Machine

/-- `wr OFF, V` (30_encoding.md R127). -/
def lineWr (p : Params) (off : Nat) (v : Word) : Event := .write (p.base + off) .w4 v

/-- `wrh OFF, V` (30_encoding.md R127). -/
def lineWrh (p : Params) (off : Nat) (v : BitVec 16) : Event := .write (p.base + off) .w2 (v.setWidth 32)

/-- `wrb OFF, V` (30_encoding.md R127). -/
def lineWrb (p : Params) (off : Nat) (v : Byte) : Event := .write (p.base + off) .w1 (v.setWidth 32)

/-- `rd OFF -> t` (30_encoding.md R127). -/
def lineRd (p : Params) (off : Nat) : Event := .read (p.base + off) .w4

/-- `rdb OFF -> t` (30_encoding.md R127). -/
def lineRdb (p : Params) (off : Nat) : Event := .read (p.base + off) .w1

/-- The offsets the lines name CMD, STATUS, LEN_IN and LEN_OUT by (10_state.md R56). -/
def cmdOffset : Nat := 0x010

/-- The offset of STATUS. -/
def statusOffset : Nat := 0x00C

/-- The offset of LEN_IN. -/
def lenInOffset : Nat := 0x018

/-- The offset of LEN_OUT. -/
def lenOutOffset : Nat := 0x01C

/-- A line holding a mnemonic: `wr CMD, w` (30_encoding.md R128). -/
def lineCommand (p : Params) (i : Instr) : Event := lineWr p cmdOffset (encode i)

/-- SIGN: encode under the own private key (30_encoding.md R129). -/
def pseudoSign : Instr := .encode .priv

/-- SEAL: encode under the peer's public key (30_encoding.md R129). -/
def pseudoSeal : Instr := .encode .peer

/-- UNSEAL: decode with the own private key (30_encoding.md R129). -/
def pseudoUnseal : Instr := .decode .priv

/-- VERIFY: decode with the peer's public key (30_encoding.md R129). -/
def pseudoVerify : Instr := .decode .peer

/-- `ldbig SLOT, V` (30_encoding.md R129). -/
def linesLdbig (p : Params) (slot v : Nat) : List Event :=
  (List.range (p.nbits / 32)).map fun j => lineWr p (slot + 4 * j) (BitVec.ofNat 32 (v / 2 ^ (32 * j)))

/-- `rdbig SLOT` (30_encoding.md R129). -/
def linesRdbig (p : Params) (slot : Nat) : List Event :=
  (List.range (p.nbits / 32)).map fun j => lineRd p (slot + 4 * j)

/-- `ldbuf "s"` (30_encoding.md R129). -/
def linesLdbuf (p : Params) (bs : List Byte) : List Event :=
  (List.range bs.length).map (fun j => lineWrb p (inBase + j) (bs.getD j 0)) ++
    [lineWr p lenInOffset (BitVec.ofNat 32 bs.length)]

/-- `rdbuf`, for the length `n` that its first line, `rd LEN_OUT`, was answered (30_encoding.md R129). -/
def linesRdbuf (p : Params) (n : Nat) : List Event :=
  lineRd p lenOutOffset :: (List.range n).map fun j => lineRdb p (outBase + j)

/-- `run CMD` with the polls of STATUS that `wait` made (30_encoding.md R129). -/
def linesRun (p : Params) (i : Instr) (polls : Nat) : List Event :=
  lineCommand p i :: (List.replicate polls (lineRd p statusOffset) ++ [lineRd p statusOffset])

end Sys2Proof.Machine
end

