-- ==== Sys2Proof/Tests/Slice0.lean ====
section
/-! SUPPORT. Tests: ill-formed terms are refused, the words of every command, the spec's vectors on single steps, and a
concrete case for the hypotheses of every statement. The expected values are those of spec/95_test_vectors.md and of
the examples in the rules. -/

namespace Sys2Proof.Tests

set_option Elab.async false

open Sys2Proof Sys2Proof.Machine

/-! ## Helpers -/

/-- R10's defaults with the window at address 0. -/
def tp : Params := { Params.default with base := 0 }

/-- The reset state with these parameters. -/
def s0 : State := { State.reset with params := tp }

/-- The state a result leads to, if it is a next state. -/
def nextOf : Result → Option State
  | .next t => some t
  | .fault _ => none
  | .refused _ => none

/-- The state a command leads to. -/
def did (i : Instr) (s : State) : Option State := nextOf (exec i s)

/-- The number of the error code a command ends with. -/
def codeOf (i : Instr) (s : State) : Option (BitVec 8) := (did i s).map fun t => t.status.errcode.number

/-- A state with a byte string in IN. -/
def withInput (bs : List Byte) (s : State) : State := s.withIn bs (BitVec.ofNat 16 bs.length)

/-- The bytes of OUT below LEN_OUT, where all are defined. -/
def outOf (t : State) : Option (List Byte) := (outCells t).mapM fun c => c

/-- The characters of a bit string. -/
def chars (s : String) : List Byte := s.toList.map fun c => if c = '1' then 0x31 else 0x30

/-- A command runs: the word `w` was accepted, and `n` steps pass before the completion. -/
def running (w : Word) (n : Nat) (s : State) : State := s.accept w n

/-! ## Ill-formed terms -/

theorem test_wf_default : tp.wellFormed = true := by decide
theorem test_wf_nbits_not_32 : ({ tp with nbits := 100 } : Params).wellFormed = false := by decide
theorem test_wf_nbits_low : ({ tp with nbits := 32 } : Params).wellFormed = false := by decide
theorem test_wf_nbits_high : ({ tp with nbits := 544 } : Params).wellFormed = false := by decide
theorem test_wf_buf_not_4 : ({ tp with bufBytes := 1026 } : Params).wellFormed = false := by decide
theorem test_wf_buf_low : ({ tp with bufBytes := 1020 } : Params).wellFormed = false := by decide
theorem test_wf_buf_high : ({ tp with bufBytes := 16388 } : Params).wellFormed = false := by decide
theorem test_wf_rounds : ({ tp with tableRounds := 0 } : Params).wellFormed = false := by decide
theorem test_wf_base : ({ tp with base := 0x8000 } : Params).wellFormed = false := by decide
theorem test_wf_read_outside : (Event.read 0x10000 .w4).wellFormed tp = false := by decide
theorem test_wf_write_outside : (Event.write 0x10000 .w4 0).wellFormed tp = false := by decide
theorem test_wf_write_too_wide : (Event.write 0x4000 .w1 0x100).wellFormed tp = false := by decide
theorem test_wf_write : (Event.write 0x4000 .w1 0xFF).wellFormed tp = true := by decide

/-- The one fault: an access outside the window (log 10). -/
theorem test_fault_outside : handleEvent (.read 0x10000 .w4) s0 = .fault .outsideWindow := by rfl

/-! ## The words of the commands, field by field: RSV = w[31:10], KSEL = w[9:8], OPC = w[7:0] (30_encoding.md R120) -/

theorem test_decode_powmod : decodeTableWord 32 0b00000000000000000000000000000001 = some .powmod := by decide
theorem test_decode_invert : decodeTableWord 32 0b00000000000000000000000000000010 = some .invert := by decide
theorem test_decode_keygen : decodeTableWord 32 0b00000000000000000000000000000011 = some .keygen := by decide
theorem test_decode_keyset : decodeTableWord 32 0b00000000000000000000000000000100 = some .keyset := by decide
theorem test_decode_encode_x : decodeTableWord 32 0b00000000000000000000000000000101 = some (.encode .x) := by decide
theorem test_decode_encode_priv : decodeTableWord 32 0b00000000000000000000000100000101 = some (.encode .priv) := by
  decide
theorem test_decode_encode_pub : decodeTableWord 32 0b00000000000000000000001000000101 = some (.encode .pub) := by
  decide
theorem test_decode_encode_peer : decodeTableWord 32 0b00000000000000000000001100000101 = some (.encode .peer) := by
  decide
theorem test_decode_decode_x : decodeTableWord 32 0b00000000000000000000000000000110 = some (.decode .x) := by decide
theorem test_decode_decode_priv : decodeTableWord 32 0b00000000000000000000000100000110 = some (.decode .priv) := by
  decide
theorem test_decode_decode_pub : decodeTableWord 32 0b00000000000000000000001000000110 = some (.decode .pub) := by
  decide
theorem test_decode_decode_peer : decodeTableWord 32 0b00000000000000000000001100000110 = some (.decode .peer) := by
  decide
theorem test_decode_tderive : decodeTableWord 32 0b00000000000000000000000000000111 = some .tderive := by decide
theorem test_decode_subenc : decodeTableWord 32 0b00000000000000000000000000001000 = some .subenc := by decide
theorem test_decode_subdec : decodeTableWord 32 0b00000000000000000000000000001001 = some .subdec := by decide
theorem test_decode_ecbenc : decodeTableWord 32 0b00000000000000000000000000001010 = some .ecbenc := by decide
theorem test_decode_ecbdec : decodeTableWord 32 0b00000000000000000000000000001011 = some .ecbdec := by decide
theorem test_decode_xfer : decodeTableWord 32 0b00000000000000000000000000001100 = some .xfer := by decide
theorem test_decode_reserved_bit : decodeTableWord 32 0b00000000000000000000010000000001 = none := by decide
theorem test_decode_top_bit : decodeTableWord 32 0b10000000000000000000000000000101 = none := by decide
theorem test_decode_ksel : decodeTableWord 32 0b00000000000000000000000100000001 = none := by decide
theorem test_decode_opc_zero : decodeTableWord 32 0 = none := by decide
theorem test_decode_opc_13 : decodeTableWord 32 0x0D = none := by decide
theorem test_decode_bytes_short : decodeBytes [0x01, 0, 0] = .error .length := by decide
theorem test_decode_bytes_order : decodeBytes [0x05, 0x03, 0, 0] = .ok (.encode .peer) := by rfl

/-- The first step after reset runs the word it is given. -/
theorem test_fetch : (nextOf (step (State.reset.withFetchWord 32 0x0C))).map (fun t => (t.cmd, t.lenIn)) =
    some (0x0C, 0) := by decide +kernel

/-! ## POWMOD, INVERT (V-POW-10, V-POW-7, V-INV-2, V-INV-6) -/

theorem test_powmod_wide : (did .powmod { s0 with a := 2, e := 255, m := BitVec.ofNat 512 (2 ^ 255 - 19) }).map
    (fun t => t.r.toNat) = some 19 := by decide +kernel
theorem test_powmod_zero_zero : (did .powmod { s0 with m := 7 }).map (fun t => t.r.toNat) = some 1 := by
  decide +kernel
theorem test_invert : (did .invert { s0 with a := 10, m := 17 }).map (fun t => t.r.toNat) = some 12 := by
  decide +kernel
theorem test_invert_zero : codeOf .invert { s0 with m := 9 } = some 0x07 := by decide +kernel

/-! ## KEYSET, KEYGEN (V-KEY-1, V-KEY-8, V-KEY-12, V-KEY-13) -/

/-- The operands of the key KI. -/
def keyIn : State := { s0 with kp := 9787, kq := 9791, ke := 65537, chunkBits := 20 }

theorem test_keyset : (did .keyset keyIn).map
    (fun t => (t.kn.toNat, t.kd.toNat, t.kdp.toNat, t.kdq.toNat, t.kqinv.toNat, statusWord t)) =
    some (95824517, 28390493, 1307, 9283, 2447, 0x12) := by decide +kernel
theorem test_keyset_square : (did .keyset { keyIn with kq := 9787 }).map
    (fun t => (t.kn.toNat, t.kd.toNat, t.kqinv.toNat, statusWord t)) = some (95785369, 29065727, 0, 0x32) := by
  decide +kernel
theorem test_keygen_draws :
    let t := keygenWith (primes 9780 9800) 2 1 0 keyIn
    (t.kp.toNat, t.kq.toNat, t.ke.toNat, t.kd.toNat, t.kqinv.toNat) = (9791, 9787, 9781, 65998741, 7343) := by
  decide +kernel
theorem test_keygen_none : codeOf .keygen { s0 with plo := 24, phi := 29 } = some 0x09 := by decide +kernel

/-! ## ENCODE, DECODE (V-CODEC-11, V-CODEC-7, V-CODEC-2, V-CODEC-20): each key select once -/

/-- The pair E = 5, M = 35 of V-CODEC-11, with k = 5. -/
def smallKey : State := { s0 with e := 5, m := 35, chunkBits := 5 }

/-- The own key KI, whose two exponents differ, with k = 20. -/
def ownKey : State :=
  { s0 with
    ke := 65537, kd := 28390493, kn := 95824517, chunkBits := 20
    status := { Status.reset with keyValid := true } }

/-- KI's private pair as the peer's pair, with k = 20. -/
def peerKey : State := { s0 with pe := 28390493, pn := 95824517, chunkBits := 20 }

theorem test_encode : (did (.encode .x) (withInput [0x41] smallKey)).bind outOf = some (chars "001000001001") := by
  decide +kernel
theorem test_encode_pub : (did (.encode .pub) (withInput [0xFF, 0xFF] ownKey)).bind outOf =
    some (chars "000011101001101001010101100") := by decide +kernel
theorem test_decode_priv : (did (.decode .priv) (withInput (chars "000001100001011001010001100") ownKey)).bind outOf =
    some [0x48, 0x69] := by decide +kernel
theorem test_decode_remainder : codeOf (.decode .peer)
    (withInput (chars "100001101111110010000011011") peerKey) = some 0x0C := by decide +kernel

/-! ## TDERIVE, SUBENC, SUBDEC (V-TAB-5, V-TAB-4 and the rules' own lookups) -/

/-- The password "foobar!". -/
def password : List Byte := [0x66, 0x6F, 0x6F, 0x62, 0x61, 0x72, 0x21]

theorem test_tderive_hash : keyWords (md5 password) = (0x1DB3B7E52FD5C3BB, 0x808CB909DEB16360) := by decide +kernel
theorem test_tderive_table : (deriveTable 1 0x1DB3B7E52FD5C3BB).take 16 =
    [0, 6, 1, 22, 45, 2, 4, 8, 14, 44, 3, 7, 10, 21, 43, 87] ∧
    (deriveTable 2 5).take 8 = [3, 0, 2, 1, 4, 5, 6, 7] := by decide +kernel

/-- Exchanges the bytes below 16 with their complements modulo 16, and leaves the others. -/
def swapByte (x : Nat) : Byte := BitVec.ofNat 8 (if x < 16 then 15 - x else x)

/-- The table of `swapByte`. -/
def swapTable : List Byte := (List.range 256).map swapByte

/-- A state with these tables, each its own inverse. -/
def tabled : State := s0.withTables swapTable swapTable

theorem test_subenc : (did .subenc (withInput [0x00, 0x0E, 0x41] tabled)).bind outOf = some [0x0F, 0x01, 0x41] := by
  decide +kernel
theorem test_subdec_order : codeOf .subdec { s0 with lenIn := 4097 } = some 0x02 ∧ codeOf .subdec s0 = some 0x04 := by
  decide +kernel

/-! ## ECBENC, ECBDEC, XFER (V-ECB-3, V-ECB-6, V-ECB-2, V-ECB-5, V-XFER-1's shape) -/

/-- The session key "ABCDEFGH". -/
def keyed : State := { s0 with skeyLo := 0x44434241, skeyHi := 0x48474645 }

theorem test_ecbenc : (did .ecbenc (withInput [0x41, 0x42, 0x43, 0x44, 0x45, 0x46, 0x47, 0x48] keyed)).bind outOf =
    some [0xD4, 0x6E, 0xB4, 0xC9, 0x22, 0x80, 0x13, 0xB7, 0x05, 0x5F, 0x3B, 0xC8, 0x3B, 0x9D, 0xF8, 0xEE] := by
  decide +kernel
theorem test_ecbenc_full : codeOf .ecbenc { keyed with lenIn := 4096, params := { tp with bufBytes := 4096 } } =
    some 0x02 := by decide +kernel
theorem test_ecbdec : (did .ecbdec (withInput [0x05, 0x5F, 0x3B, 0xC8, 0x3B, 0x9D, 0xF8, 0xEE] keyed)).map
    (fun t => (t.lenOut, statusWord t)) = some (0, 0x2) := by decide +kernel
theorem test_ecbdec_partial : codeOf .ecbdec (withInput (List.replicate 12 0) keyed) = some 0x0E := by decide +kernel
theorem test_xfer : (did .xfer ((withInput [1, 2, 3] s0).withOut [7, 8])).map
    (fun t => (t.lenIn, t.lenOut, t.mem.readMany inBase 3, t.mem.readMany outBase 2)) =
    some (2, 2, [some 7, some 8, some 3], [some 7, some 8]) := by decide +kernel

/-! ## The port (program P5's accesses) -/

theorem test_misaligned : (hostRead 0x002 .w4 s0).replies = [0] ∧ statusWord (hostRead 0x002 .w4 s0) = 0x80 := by
  decide +kernel
theorem test_status_clear :
    statusWord (hostWrite 0x00C .w4 0x82 (hostRead 0x002 .w4 (raiseError none .illegalCmd s0))) = 0x00010004 := by
  decide +kernel
theorem test_little_endian : (hostRead 0x4000 .w4 (withInput [0x41, 0x42, 0x43, 0x44] s0)).replies = [0x44434241] := by
  decide +kernel
theorem test_sign_word : lineCommand tp pseudoSign = .write 0x010 .w4 0x00000105 := by decide

/-! ## Witnesses: for every statement with hypotheses, a case that meets them, clause by clause -/

/-- The key 5 · 11 with public exponent 3 and private exponent 27, as KEYSET leaves it. -/
def keyState : State :=
  { s0 with
    kp := 5, kq := 11, ke := 3, kn := 55, kd := 27, kdp := 3, kdq := 7, kqinv := 1, chunkBits := 2
    status := { Status.reset with keyValid := true } }

/-- A running command with one access waiting. -/
def waiting (n : Nat) : State := { running 0x0C n s0 with inputs := [.read 0x0C .w4] }

theorem witness_DecodeInvertsEncode :
    decodeWord 0x0000000C = .ok .xfer ∧ decodeWord 0x00000305 = .ok (.encode .peer) := ⟨rfl, rfl⟩
theorem witness_StepRunsTheDecodedCommand :
    (State.reset.withFetchWord 32 0x305).phase = .busy 0x305 0 ∧ decodeWord 0x305 = .ok (.encode .peer) := ⟨rfl, rfl⟩
theorem witness_IllegalWordCompletesWithIllegalCmd :
    (State.reset.withFetchWord 32 0x101).phase = .busy 0x101 0 ∧ ∀ i, decodeWord 0x101 ≠ .ok i :=
  ⟨rfl, fun _ h => by cases h⟩
theorem witness_StepTakesOneArrival :
    (running 0x0C 1 s0).phase = .busy 0x0C (0 + 1) ∧ (running 0x0C 1 s0).inputs = [] ∧
    s0.phase = .idle ∧ s0.inputs = [] ∧
    (waiting 1).phase = .busy 0x0C (0 + 1) ∧ (waiting 1).inputs = .read 0x0C .w4 :: [] ∧
    ({ s0 with inputs := [.reset] } : State).phase = .idle := ⟨rfl, rfl, rfl, rfl, rfl, rfl, rfl⟩

/-- An engine whose window starts at 0x20000: both ends of the window, and the addresses next to them. -/
theorem witness_window : let p := { tp with base := 0x20000 }
    p.base ≤ 0x20000 ∧ 0x20000 < p.base + 0x10000 ∧ p.base ≤ 0x2FFFF ∧ 0x2FFFF < p.base + 0x10000 ∧
    0x1FFFF < p.base ∧ p.base + 0x10000 ≤ 0x30000 ∧ offsetOf p 0x20000 = some 0 ∧ offsetOf p 0x2FFFF = some 0xFFFF ∧
    offsetOf p 0x1FFFF = none ∧ offsetOf p 0x30000 = none := by decide

/-- A reset that arrives after the waiting time shuts nothing out. -/
theorem witness_AcceptedCommandCompletes :
    let s := { waiting 1 with inputs := [.read 0x0C .w4, .reset] }
    s.phase = .busy 0x0C 1 ∧
      ∀ ev ∈ s.inputs.take 1, ev.wellFormed s.params = true ∧ resets s.params ev = false := by decide
theorem witness_WellFormedArrivalsNeverStop :
    PortInv { s0 with inputs := [.read 0 .w1, .write 0xFFFF .w1 0xFF, .write 0x8 .w4 2, .reset] } := by
  unfold PortInv; decide

/-- Both ends of every clause of the statement, and the offsets next to them. -/
theorem witness_AdmittedAccesses : tp.wellFormed = true ∧
    (admitted tp 0x034 4 false).isSome = true ∧ admitted tp 0x038 4 false = none ∧
    admitted tp 0x034 4 true = none ∧ (admitted tp 0x02C 4 true).isSome = true ∧
    admitted tp 0x000 4 true = none ∧ admitted tp 0x00C 1 false = none ∧
    (admitted tp 0x1BC 4 true).isSome = true ∧ admitted tp 0x1C0 4 true = none ∧
    admitted tp 0x1DC 4 true = none ∧ (admitted tp 0x1E0 4 true).isSome = true ∧
    (admitted tp 0x200 4 true).isSome = true ∧ admitted tp 0x2C0 4 true = none ∧ admitted tp 0x3DC 4 true = none ∧
    (admitted tp 0x3FC 4 true).isSome = true ∧ admitted { tp with nbits := 512 } 0x3FC 4 true = none ∧
    (admitted tp 0x400 4 true).isSome = true ∧ (admitted tp 0x47C 4 true).isSome = true ∧
    admitted tp 0x480 4 false = none ∧ (admitted tp 0x800 1 false).isSome = true ∧
    (admitted tp 0x9FC 4 false).isSome = true ∧ admitted tp 0xA00 1 false = none ∧
    admitted tp 0x3FFC 4 true = none ∧ (admitted tp 0x4000 4 true).isSome = true ∧
    (admitted tp 0x4FFF 1 true).isSome = true ∧ admitted tp 0x4FFF 2 true = none ∧ admitted tp 0x5000 1 true = none ∧
    (admitted tp 0x8FFE 2 false).isSome = true ∧ admitted tp 0x8FFE 2 true = none := by decide +kernel
theorem witness_UnadmittedAccessSetsAccErr :
    admitted s0.params 0x002 Width.w4.bytes false = none ∧ admitted s0.params 0x000 Width.w4.bytes true = none := by decide +kernel
theorem witness_ReadsOnlyAnswer :
    admitted s0.params 0x00C Width.w4.bytes false = some (.ctl .status) ∧ s0.isBusy = false ∧
    (running 1 0 s0).isBusy = true ∧ Item.busyReadable (.ctl .status) = true ∧
    admitted s0.params 0x4FFC Width.w4.bytes false = some .inBuf ∧ Item.busyReadable .inBuf = false ∧
    (admitted (running 1 0 s0).params 0x014 Width.w4.bytes false).isSome = true ∧
    (admitted (running 1 0 s0).params 0x02C Width.w4.bytes false).isSome = true ∧
    (admitted (running 1 0 s0).params 0x8FFF Width.w1.bytes false).isSome = true ∧
    0x14 ∉ [0x000, 0x004, 0x008, 0x00C, 0x010, 0x030, 0x034] ∧ s0.params.wellFormed = true ∧
    0x800 % Width.w4.bytes = 0 ∧ 0x9FF % Width.w1.bytes = 0 ∧
    0x4000 + Width.w4.bytes ≤ 0x4000 + s0.params.bufBytes ∧ 0x8FFC % Width.w4.bytes = 0 ∧
    0x8FFC + Width.w4.bytes ≤ 0x8000 + s0.params.bufBytes ∧
    s0.status.tableValid = false ∧ tabled.status.tableValid = true ∧ tabled.isBusy = false := by decide +kernel
theorem witness_BusyWritesAreDropped : (running 1 0 s0).isBusy = true ∧
    admitted s0.params 0x010 Width.w4.bytes true = some (.ctl .cmd) ∧
    admitted s0.params 0x4000 Width.w1.bytes true = some .inBuf ∧
    (admitted s0.params 0x014 Width.w4.bytes true).isSome = true ∧ 0x014 ≠ 0x008 ∧ 0x014 ≠ 0x00C ∧
    (admitted s0.params 0x010 Width.w4.bytes true).isSome = true ∧ 0x010 ≠ 0x008 ∧ 0x010 ≠ 0x00C ∧
    Item.inBuf ≠ .ctl .ctrl ∧ Item.inBuf ≠ .ctl .status ∧ Item.inBuf ≠ .ctl .cmd ∧
    Item.ctl .cmd ≠ .ctl .ctrl ∧ Item.ctl .cmd ≠ .ctl .status := by decide +kernel
theorem witness_BusyArrivalsKeepTheInputs : (running 1 0 s0).isBusy = true ∧
    resets tp (.write 0x4000 .w1 0x41) = false ∧ resets tp (.write 0x008 .w4 1) = false ∧
    (nextOf (handleEvent (.write 0x4000 .w1 0x41) (running 1 0 s0))).isSome = true := by decide +kernel
theorem witness_StatusAndCtrlWritesTakeEffect :
    (1 : Word).getLsbD 1 = false ∧ (2 : Word).getLsbD 1 = true := by decide +kernel
theorem witness_ControlRegistersReadBack : s0.isBusy = false ∧ (running 1 0 s0).isBusy = true ∧
    (1 : Word).getLsbD 1 = false ∧ (3 : Word).getLsbD 1 = true ∧
    CommandInv (running 0x08 0 s0) ∧ (running 0x08 0 s0).phase = .busy 0x08 0 := by
  refine ⟨rfl, rfl, rfl, rfl, fun w n h => ?_, rfl⟩
  cases h
  rfl

/-- V-MEM-4's rule on KQINV and on KP: a write of a reserved word sets no flag (log 15 on KEY_VALID). -/
theorem test_reserved_words : statusWord (hostWrite 0x3E0 .w4 1 keyState) = 0x10 ∧
    statusWord (hostWrite 0x220 .w4 1 keyState) = 0 ∧ statusWord (hostWrite 0x3DC .w4 1 keyState) = 0x90 := by
  decide +kernel
theorem witness_BigRegisterWords : tp.wellFormed = true ∧ 0 < tp.nbits / 32 ∧ 7 < tp.nbits / 32 ∧
    tp.nbits / 32 ≤ 8 ∧ ({ tp with nbits := 512 } : Params).wellFormed = true ∧
    15 < ({ tp with nbits := 512 } : Params).nbits / 32 := by decide +kernel
theorem witness_KeySourceWritesDropTheKey : keyState.params.wellFormed = true ∧ 0 < keyState.params.nbits / 32 ∧
    7 < keyState.params.nbits / 32 ∧ keyState.params.nbits / 32 ≤ 8 ∧ 15 < 16 ∧
    keyState.isBusy = false ∧ (running 1 0 keyState).isBusy = true := by decide +kernel
theorem witness_BufferAccessesAreLittleEndian : s0.isBusy = false ∧ s0.params.wellFormed = true ∧
    0x4000 % Width.w4.bytes = 0 ∧ 0x4FFC % Width.w4.bytes = 0 ∧ 0 < Width.w4.bytes ∧ 3 < Width.w4.bytes ∧
    0x4FFC + Width.w4.bytes ≤ 0x4000 + s0.params.bufBytes ∧ 0x4FFF % Width.w1.bytes = 0 ∧
    0x4FFF + Width.w1.bytes ≤ 0x4000 + s0.params.bufBytes := by decide +kernel
theorem witness_IdleCmdWriteIsAccepted : s0.isBusy = false := rfl
theorem witness_ErrorCompletionWritesOnlyItsList :
    codeOf .powmod s0 = some 0x05 ∧ codeOf .keyset s0 = some 0x06 ∧
    codeOf .keygen { s0 with plo := 24, phi := 29 } = some 0x09 := by decide +kernel

theorem witness_PowmodComputesThePower :
    s0.m = 0 ∧ ({ s0 with m := 1 } : State).m ≠ 0 := by decide +kernel
theorem witness_PowmodLaws : 0 < 1 ∧ 0 < 7 := by decide +kernel
theorem witness_InvertComputesTheInverse :
    s0.m = 0 ∧ ({ s0 with m := 1 } : State).m ≠ 0 ∧ Nat.gcd (0 % 1) 1 = 1 ∧
    Nat.gcd (4 % 8) 8 ≠ 1 ∧ Nat.gcd (10 % 17) 17 = 1 := by decide +kernel
theorem witness_KeysetConstructsTheKey : 2 ≤ keyState.kp.toNat ∧ 2 ≤ keyState.kq.toNat ∧
    keyState.kp.toNat * keyState.kq.toNat < 2 ^ keyState.params.nbits ∧
    2 ^ keyState.chunkBits.toNat < keyState.kp.toNat * keyState.kq.toNat ∧
    Nat.gcd (keyState.ke.toNat % phiOf keyState.kp.toNat keyState.kq.toNat)
      (phiOf keyState.kp.toNat keyState.kq.toNat) = 1 := by decide +kernel
theorem witness_KeysetReportsItsErrors :
    (1 : Big).toNat < 2 ∧ 2 ^ tp.nbits ≤ (BitVec.ofNat 512 (2 ^ 255)).toNat * (2 : Big).toNat ∧
    (5 : Big).toNat * (7 : Big).toNat ≤ 2 ^ (6 : BitVec 16).toNat ∧
    2 ^ (5 : BitVec 16).toNat < (5 : Big).toNat * (7 : Big).toNat ∧ (5 : Big).toNat * (7 : Big).toNat < 2 ^ tp.nbits ∧
    Nat.gcd ((3 : Big).toNat % phiOf 5 7) (phiOf 5 7) ≠ 1 := by decide +kernel

/-- No prime, and 9781, 9787 and 9791; the triples of a CONFIG, a KEYGEN and a success. -/
theorem witness_KeygenConstructsFromThreeDraws :
    primes 24 29 = [] ∧ primes 9780 9800 = [9781, 9787, 9791] ∧
    9791 * 9791 ≤ 2 ^ (27 : BitVec 16).toNat ∧ 2 ^ (26 : BitVec 16).toNat < 9781 * 9781 ∧
    Nat.gcd (9781 % phiOf 9781 9781) (phiOf 9781 9781) ≠ 1 ∧
    Nat.gcd (9781 % phiOf 9791 9787) (phiOf 9791 9787) = 1 := by decide +kernel
theorem witness_OnePrimeRangeNeverYieldsAKey : primes 2 3 = [2] ∧ primes 24 30 = [29] ∧
    ¬ 2 ^ (2 : BitVec 16).toNat < 2 * 2 ∧ 2 ^ (1 : BitVec 16).toNat < 2 * 2 := by decide +kernel

theorem witness_key : IsKey 5 11 3 55 27 3 7 1 false where
  modulus := rfl
  exponent := rfl
  exponent_lt := by decide +kernel
  dP_eq := rfl
  dQ_eq := rfl
  flag := by decide +kernel
  inverse := fun _ => by decide +kernel
  no_inverse := fun h => by cases h
theorem witness_KeyPairRoundTrip : Nat.Prime 5 ∧ Nat.Prime 11 ∧ 5 ≠ 11 ∧ 0 < 55 ∧ 54 < 55 := by norm_num

theorem witness_PaddingReachesAChunkBoundary : 1 ≤ 1 ∧ 1 ≤ 20 := by decide +kernel
theorem witness_StringsInTheBuffers : inputIs (withInput [0x41] s0) [0x41] ∧
    0 < 2 ^ 0 ∧ 31 < 2 ^ 5 ∧ 0 < 1 ∧ 7 < 8 := by
  unfold inputIs holdsBytes; decide +kernel

/-- The second byte is read as it is, and the third takes the draw after the first's. -/
theorem witness_mixed_cells : let cells : List (Option Byte) := [none, some 0x41, none]
    cells[1]? = some (some 0x41) ∧ cells[0]? = some none ∧ cells[2]? = some none ∧
    settle 7 cells = [drawByte 7, 0x41, drawByte 8] ∧ undefinedCount cells = 2 := ⟨rfl, rfl, rfl, rfl, rfl⟩
theorem witness_EncodeWritesTheCipherChunks :
    let s := withInput [0x41] smallKey
    s.lenIn.toNat ≤ s.params.bufBytes ∧ keySelect .x s = .ok (5, 35) ∧ 1 ≤ s.chunkBits.toNat ∧
    2 ^ s.chunkBits.toNat < 35 ∧ s.lenIn.toNat ≠ 0 ∧
    (8 * s.lenIn.toNat / s.chunkBits.toNat + 1) * bitlen 35 ≤ s.params.bufBytes := by decide +kernel
theorem witness_keySelect : keyState.status.keyValid = true ∧
    keySelect .priv keyState = .ok (27, 55) ∧ keySelect .pub keyState = .ok (3, 55) ∧
    keySelect .peer peerKey = .ok (28390493, 95824517) := by decide +kernel
theorem witness_EncodeReportsItsFirstError :
    let small := { tp with bufBytes := 1024 }
    tp.bufBytes < (4097 : BitVec 16).toNat ∧ s0.lenIn.toNat ≤ s0.params.bufBytes ∧ s0.status.keyValid = false ∧
    keySelect .x s0 = .ok (0, 0) ∧ keySelect .x { smallKey with chunkBits := 0 } = .ok (5, 35) ∧
    35 ≤ 2 ^ (6 : BitVec 16).toNat ∧ smallKey.lenIn.toNat = 0 ∧ keySelect .x smallKey = .ok (5, 35) ∧
    2 ^ smallKey.chunkBits.toNat < 35 ∧ small.wellFormed = true ∧
    small.bufBytes < (8 * 107 / smallKey.chunkBits.toNat + 1) * bitlen 35 := by decide +kernel

/-- The input of twelve characters, the twelve bits it stands for and what they decode to. -/
theorem witness_DecodeWritesThePlaintext :
    let s := withInput (chars "001000001001") smallKey
    let bits := [false, false, true, false, false, false, false, false, true, false, false, true]
    let ys := (pieces (bitlen 35) (bits.length / bitlen 35) bits).map fun ch => bitsVal ch ^ 5 % 35
    s.lenIn.toNat ≤ s.params.bufBytes ∧ inBytes s = bits.map bitChar ∧ keySelect .x s = .ok (5, 35) ∧
    bits.length % bitlen 35 = 0 ∧ (∀ y ∈ ys, y < 2 ^ s.chunkBits.toNat) ∧
    bitsToBytes (stripBits (ys.flatMap (binW s.chunkBits.toNat))) = [0x41] ∧
    (stripBits (ys.flatMap (binW s.chunkBits.toNat))).length = 8 := by decide +kernel

/-- An empty input, a bad character, a partial chunk, a chunk of value 34, an empty remainder and one of two bits. -/
theorem witness_DecodeReportsItsFirstError :
    let value (bits : List Bool) := (pieces (bitlen 35) (bits.length / bitlen 35) bits).map fun ch => bitsVal ch ^ 5 % 35
    smallKey.lenIn = 0 ∧
    (∃ b ∈ inBytes (withInput [0x30, 0x32] smallKey), b ≠ 0x30 ∧ b ≠ 0x31) ∧
    (withInput (chars "00100") smallKey).lenIn.toNat % bitlen 35 ≠ 0 ∧
    inBytes (withInput (chars "100010") smallKey) = [true, false, false, false, true, false].map bitChar ∧
    value [true, false, false, false, true, false] = [34] ∧ 2 ^ smallKey.chunkBits.toNat ≤ 34 ∧
    stripBits ((value (List.replicate 6 false)).flatMap (binW 5)) = [] ∧
    stripBits ((value [false, false, true, false, false, false]).flatMap (binW 5)) = [false, true] := by
  decide +kernel
theorem witness_CodecRoundTrip :
    let s := withInput [0x41] smallKey
    s.params.wellFormed = true ∧ inputIs s [0x41] ∧ keySelect .x s = .ok (5, 35) ∧
    (∀ v < 2 ^ s.chunkBits.toNat, (v ^ 5 % 35) ^ 5 % 35 = v) ∧
    (8 * 1 / s.chunkBits.toNat + 1) * bitlen 35 ≤ s.params.bufBytes := by
  unfold inputIs holdsBytes; decide +kernel

theorem witness_DerivedTableIsAPermutation : 0 ≤ 0 ∧ 5 ≤ 5 ∧ 5 ≤ tp.tableRounds := by decide
theorem witness_TderiveWritesBothTables :
    tp.bufBytes < (4097 : BitVec 16).toNat ∧ ¬ tp.bufBytes < (4096 : BitVec 16).toNat := by decide +kernel
theorem witness_SubstitutionLooksUpEachByte :
    let s := withInput [0x00, 0xFF] tabled
    s.lenIn.toNat ≤ s.params.bufBytes ∧ s.status.tableValid = true ∧ s0.status.tableValid = false ∧
    (inBytes s).map (fun b => s.mem.read? (fwdBase + b.toNat)) = [0x0F, 0xFF].map some ∧
    (inBytes s).map (fun b => s.mem.read? (invBase + b.toNat)) = [0x0F, 0xFF].map some := by decide +kernel

/-- The tables of `swapByte` are each other's inverse, in any memory they are written to. -/
theorem swapTable_inverse (m : Memory) :
    tablesInverse ((m.writeMany fwdBase swapTable).writeMany invBase swapTable) := by
  intro x hx
  have hl : swapTable.length = 256 := by simp [swapTable]
  have hget : ∀ y < 256, swapTable[y]? = some (swapByte y) := by
    intro y hy
    simp [swapTable, List.getElem?_range hy]
  have hswap : ∀ y < 256, swapByte (swapByte y).toNat = BitVec.ofNat 8 y := by decide +kernel
  have hlt : (swapByte x).toNat < 256 := (swapByte x).isLt
  rw [read?_writeMany_out _ _ _ _ (by left; simp only [fwdBase, invBase]; omega),
    read?_writeMany_in _ _ _ _ (by omega), hget x hx]
  simp only [Option.bind_some]
  rw [read?_writeMany_in _ _ _ _ (by omega), hget _ hlt, hswap x hx]

/-- `tabled` with the bytes 0x00 and 0xFF in IN. -/
def tabledInput : State := (withInput [0x00, 0xFF] s0).withTables swapTable swapTable

theorem witness_SubstitutionRoundTrip : tabledInput.params.wellFormed = true ∧
    tabledInput.status.tableValid = true ∧ TableInv tabledInput ∧ inputIs tabledInput [0x00, 0xFF] :=
  ⟨rfl, rfl, fun _ => swapTable_inverse _, by unfold inputIs holdsBytes; decide +kernel⟩

theorem witness_EcbActsBlockByBlock : 8 * 0 + 8 ≤ (List.replicate 8 (0 : Byte)).length := by decide +kernel
theorem witness_EcbencEncryptsThePaddedInput :
    tp.bufBytes < 4097 ∧ 4096 ≤ tp.bufBytes ∧ tp.bufBytes < 4096 + (8 - 4096 % 8) ∧
    4095 + (8 - 4095 % 8) ≤ tp.bufBytes := by decide +kernel

/-- The key "ABCDEFGH": K8[0] = 0x41 is its most significant byte. -/
theorem witness_sessionKey : sessionKey keyed = 0x4142434445464748 := by decide +kernel

/-- One block whose plaintext "ABCDEFGH" has no padding, and one whose plaintext is eight bytes 0x08. -/
theorem witness_EcbdecDecryptsAndUnpads :
    let plain (s : State) := ecbMap (blockDec s.params.cipher (sessionKey s)) (inBytes s)
    plain (withInput [0xD4, 0x6E, 0xB4, 0xC9, 0x22, 0x80, 0x13, 0xB7] keyed) =
      [0x41, 0x42, 0x43, 0x44, 0x45, 0x46, 0x47, 0x48] ∧
    plain (withInput [0x05, 0x5F, 0x3B, 0xC8, 0x3B, 0x9D, 0xF8, 0xEE] keyed) = [] ++ List.replicate 8 8 ∧
    unpadBytes [0x41, 0x42, 0x43, 0x44, 0x45, 0x46, 0x47, 0x48] = none := by decide +kernel
theorem witness_EcbRoundTrip :
    let s := withInput [0x41] keyed
    s.params.wellFormed = true ∧ inputIs s [0x41] ∧ 1 + (8 - 1 % 8) ≤ s.params.bufBytes := by
  unfold inputIs holdsBytes; decide +kernel
theorem witness_XferCopiesOutToIn :
    (s0.withOut [7, 8]).params.wellFormed = true ∧ 2 ≤ (s0.withOut [7, 8]).params.bufBytes ∧
    outputIs (s0.withOut [7, 8]) [7, 8] := by
  unfold outputIs holdsBytes; decide +kernel

/-- A state with tables, a key, an output and a running SUBENC that meets every invariant. -/
def fullState : State :=
  running 0x08 0 { (withInput [0x41] (keyState.withOut [7])).withTables swapTable swapTable with chunkBits := 5 }

theorem witness_params : ParamsInv fullState ∧ (nextOf (step fullState)).isSome = true := by
  unfold ParamsInv; decide +kernel
theorem witness_StepKeepsMemoryForm : MemoryInv fullState := by
  unfold MemoryInv isMemoryOffset; decide +kernel
theorem witness_StepKeepsRegisterRange : RangeInv fullState := by
  intro reg; cases reg <;> decide +kernel
theorem witness_StepKeepsOutputDefined : OutputInv fullState ∧ fullState.lenOut = 1 := by
  unfold OutputInv; decide +kernel
theorem witness_StepKeepsTheTables : TableInv fullState ∧ fullState.status.tableValid = true :=
  ⟨fun _ => swapTable_inverse _, rfl⟩
theorem witness_StepKeepsTheKeyPair : KeyInv fullState ∧ fullState.status.keyValid = true := by
  have hkey : keyRegistersHold fullState := by constructor <;> decide +kernel
  refine ⟨⟨?_, fun _ => ⟨?_, ?_, ⟨5, ?_⟩, hkey⟩⟩, rfl⟩ <;> decide +kernel
theorem witness_StepKeepsTheFlags : FlagsInv fullState ∧ fullState.isBusy = true ∧ CommandInv fullState := by
  refine ⟨by unfold FlagsInv; decide +kernel, rfl, fun w n h => ?_⟩
  cases h
  rfl

end Sys2Proof.Tests
end

namespace Sys2Proof.Machine

/-! # The scope: the step and the port, the primes of a range, strings in the buffers -/

/-! ## One step before a completion (20_memory.md R87, R97) -/

theorem step_of_idle {s : State} (h : s.phase = .idle) : step s = takeInput s := by
  simp only [step, advance, h]

theorem step_of_waiting {s : State} {w : Word} {n : Nat} (h : s.phase = .busy w (n + 1)) :
    step s = takeInput { s with phase := .busy w n } := by
  simp only [step, advance, h]

theorem takeInput_of_nil {s : State} (h : s.inputs = []) : takeInput s = .next s := by
  simp only [takeInput, h]

theorem takeInput_of_cons {s : State} {ev : Event} {rest : List Event} (h : s.inputs = ev :: rest) :
    takeInput s = handleEvent ev { s with inputs := rest } := by
  simp only [takeInput, h]

/-! ## The window (00_scope.md R19, 20_memory.md R80) -/

theorem inWindow_iff (p : Params) (addr : Nat) :
    p.inWindow addr = true ↔ p.base ≤ addr ∧ addr < p.base + 0x10000 := by
  rw [Params.inWindow, Bool.and_eq_true, decide_eq_true_eq, decide_eq_true_eq]
  exact Iff.rfl

theorem offsetOf_of_inside {p : Params} {addr : Nat} (h : p.inWindow addr = true) :
    offsetOf p addr = some (addr - p.base) := if_pos h

theorem offsetOf_of_outside {p : Params} {addr : Nat} (h : ¬ p.inWindow addr = true) : offsetOf p addr = none :=
  if_neg h

theorem handleEvent_read_inside {s : State} {addr : Nat} (h : s.params.inWindow addr = true) (n : Width) :
    handleEvent (.read addr n) s = .next (hostRead (addr - s.params.base) n s) := by
  simp only [handleEvent, offsetOf_of_inside h]

theorem handleEvent_write_inside {s : State} {addr : Nat} (h : s.params.inWindow addr = true) (n : Width) (v : Word) :
    handleEvent (.write addr n v) s = .next (hostWrite (addr - s.params.base) n v s) := by
  simp only [handleEvent, offsetOf_of_inside h]

theorem handleEvent_read_outside {s : State} {addr : Nat} (h : ¬ s.params.inWindow addr = true) (n : Width) :
    handleEvent (.read addr n) s = .fault .outsideWindow := by
  simp only [handleEvent, offsetOf_of_outside h]

theorem handleEvent_write_outside {s : State} {addr : Nat} (h : ¬ s.params.inWindow addr = true) (n : Width)
    (v : Word) : handleEvent (.write addr n v) s = .fault .outsideWindow := by
  simp only [handleEvent, offsetOf_of_outside h]

/-- Settles O6, by the equation of the step in each phase, of the port with and without an arrival, and of an arrival on
each side of the window's ends. -/
theorem stepTakesOneArrival : Obligations.StepTakesOneArrival := by
  refine ⟨fun s w n => ⟨fun hp hi => ?_, fun hp hi => ?_, fun ev rest hi => ⟨fun hp => ?_, fun hp => ?_⟩⟩,
    fun s addr n v => ⟨fun hlo hhi => ?_, fun hout => ?_⟩⟩
  · rw [step_of_waiting hp]
    exact takeInput_of_nil hi
  · rw [step_of_idle hp, takeInput_of_nil hi]
  · rw [step_of_waiting hp]
    exact takeInput_of_cons hi
  · rw [step_of_idle hp, takeInput_of_cons hi]
  · have hin := (inWindow_iff s.params addr).2 ⟨hlo, hhi⟩
    exact ⟨handleEvent_read_inside hin n, handleEvent_write_inside hin n v⟩
  · have hnot : ¬ s.params.inWindow addr = true := by
      rw [inWindow_iff]
      omega
    exact ⟨handleEvent_read_outside hnot n, handleEvent_write_outside hnot n v⟩

/-! ## The fields that are the model's own -/

/-- A completion, or the handling of an arrival that has left the port, does no more than this to the parameters and to
the fields that are the model's own. -/
structure KeepsOwnFields (s t : State) : Prop where
  params_eq : t.params = s.params
  draws_le : s.draws ≤ t.draws
  inputs_eq : t.inputs = s.inputs
  replies_eq : t.replies = s.replies ∨ ∃ v, t.replies = v :: s.replies

/-- Everything a completion step can do: an error completion, or a command's effect and success
(60_exceptions.md R350, R352). -/
theorem completeWord_cases {w : Word} {s t : State} (h : completeWord w s = .next t) :
    (∃ i code n, code ≠ .none ∧ t = raiseError i code (s.drawn n)) ∨ ∃ i u, Effect i s u ∧ t = completeOk u := by
  unfold completeWord at h
  split at h
  · next i _ =>
    rcases exec_cases i s with ⟨n, code, hcode, he⟩ | ⟨u, hu, he⟩
    · exact .inl ⟨some i, code, n, hcode, (Host.Outcome.next.inj (he.symm.trans h)).symm⟩
    · exact .inr ⟨i, u, hu, (Host.Outcome.next.inj (he.symm.trans h)).symm⟩
  · exact .inl ⟨none, .illegalCmd, 0, by simp, (Host.Outcome.next.inj h).symm⟩

theorem Effect.keepsOwnFields {i : Instr} {s u : State} (h : Effect i s u) : KeepsOwnFields s u := by
  rcases h with ⟨-, v, -, rfl⟩ | ⟨-, n, p, q, e, key, -, -, -, -, rfl⟩ | ⟨-, n, a, rfl⟩ | ⟨n, bs, -, rfl⟩ |
    ⟨-, n, bs, -, rfl⟩
  · exact ⟨rfl, Nat.le_refl s.draws, rfl, .inl rfl⟩
  · exact ⟨rfl, Nat.le_add_right s.draws n, rfl, .inl rfl⟩
  · exact ⟨rfl, Nat.le_add_right s.draws n, rfl, .inl rfl⟩
  · exact ⟨rfl, Nat.le_add_right s.draws n, rfl, .inl rfl⟩
  · exact ⟨rfl, Nat.le_add_right s.draws n, rfl, .inl rfl⟩

theorem completeWord_keepsOwnFields {w : Word} {s t : State} (h : completeWord w s = .next t) :
    KeepsOwnFields s t := by
  rcases completeWord_cases h with ⟨i, code, n, -, rfl⟩ | ⟨i, u, hu, rfl⟩
  · exact ⟨rfl, Nat.le_add_right s.draws n, rfl, .inl rfl⟩
  · obtain ⟨hparams, hdraws, hinputs, hreplies⟩ := hu.keepsOwnFields
    exact ⟨hparams, hdraws, hinputs, hreplies⟩

theorem hostRead_keepsOwnFields (o : Nat) (n : Width) (s : State) : KeepsOwnFields s (hostRead o n s) := by
  obtain ⟨k, v, acc, h⟩ := hostRead_cases o n s
  rw [h]
  exact ⟨rfl, Nat.le_add_right s.draws k, rfl, .inr ⟨v, rfl⟩⟩

/-- The soft reset keeps these fields, as the hardware reset does (log 19). -/
theorem writeCtrl_keepsOwnFields (v : Word) (s : State) : KeepsOwnFields s (writeCtrl v s) := by
  unfold writeCtrl
  split
  · exact ⟨rfl, Nat.le_refl s.draws, rfl, .inl rfl⟩
  · exact ⟨rfl, Nat.le_refl s.draws, rfl, .inl rfl⟩

theorem hostWrite_keepsOwnFields (o : Nat) (n : Width) (v : Word) (s : State) :
    KeepsOwnFields s (hostWrite o n v s) := by
  rcases hostWrite_cases o n v s with h | h | h | ⟨-, h | h⟩ | ⟨-, item, -, h⟩ <;> rw [h]
  · exact ⟨rfl, Nat.le_refl s.draws, rfl, .inl rfl⟩
  · exact writeCtrl_keepsOwnFields v s
  · exact ⟨rfl, Nat.le_refl s.draws, rfl, .inl rfl⟩
  · exact ⟨rfl, Nat.le_refl s.draws, rfl, .inl rfl⟩
  · exact ⟨rfl, Nat.le_refl s.draws, rfl, .inl rfl⟩
  · obtain ⟨hparams, hinputs, hreplies, -, -, hdraws, -⟩ := storeItem_keeps item o n.bytes v s
    exact ⟨hparams, hdraws, hinputs, .inl hreplies⟩

theorem handleEvent_keepsOwnFields {ev : Event} {s t : State} (h : handleEvent ev s = .next t) :
    KeepsOwnFields s t := by
  rcases handleEvent_cases h with rfl | ⟨o, n, rfl⟩ | ⟨o, n, v, rfl⟩
  · exact ⟨rfl, Nat.le_refl s.draws, rfl, .inl rfl⟩
  · exact hostRead_keepsOwnFields o n s
  · exact hostWrite_keepsOwnFields o n v s

/-- Settles O53: a completion and an arrival keep these fields as `KeepsOwnFields` says, and only the step itself takes
an arrival off the port, the oldest. -/
theorem stepKeepsParamsAndOrder : Obligations.StepKeepsParamsAndOrder := by
  intro s t h
  rcases step_cases h with ⟨w, -, hw⟩ | ⟨ph, -, ⟨-, rfl⟩ | ⟨ev, rest, hi, he⟩⟩
  · obtain ⟨hparams, hdraws, hinputs, hreplies⟩ := completeWord_keepsOwnFields hw
    exact ⟨hparams, hdraws, .inl hinputs, hreplies⟩
  · exact ⟨rfl, Nat.le_refl s.draws, .inl rfl, .inl rfl⟩
  · obtain ⟨hparams, hdraws, hinputs, hreplies⟩ := handleEvent_keepsOwnFields he
    exact ⟨hparams, hdraws, .inr ⟨ev, by rw [hi, hinputs]⟩, hreplies⟩

/-! ## The primes of a range (00_scope.md R23) -/

theorem primes_pairwise_lt (lo hi : Nat) : (primes lo hi).Pairwise (· < ·) :=
  List.Pairwise.filter isPrime List.pairwise_lt_range'

theorem mem_primes {lo hi v : Nat} : v ∈ primes lo hi ↔ lo ≤ v ∧ v < hi ∧ Nat.Prime v := by
  rw [primes, List.mem_filter, List.mem_range'_1, isPrime_iff]
  constructor
  · rintro ⟨⟨hlo, hhi⟩, hv⟩
    exact ⟨hlo, by omega, hv⟩
  · rintro ⟨hlo, hhi, hv⟩
    exact ⟨⟨hlo, by omega⟩, hv⟩

/-- Settles O28: a filtered ascending range, and trial division decides primality. -/
theorem primesOfARange : Obligations.PrimesOfARange :=
  fun lo hi => ⟨primes_pairwise_lt lo hi, fun _ => mem_primes⟩

/-! ## Bit strings (00_scope.md R13, R15, R16) -/

/-- Bit `i` of a rendering, counted from the most significant bit. -/
theorem binW_getElem? {w i : Nat} (h : i < w) (v : Nat) : (binW w v)[i]? = some (v.testBit (w - 1 - i)) := by
  simp [binW, h]

theorem bitsVal_binW_of_lt {w v : Nat} (h : v < 2 ^ w) : bitsVal (binW w v) = v := by
  rw [bitsVal_binW, Nat.mod_eq_of_lt h]

/-- A number other than 0 has its highest bit at the last place of its bit length. -/
theorem two_pow_bitlen_pred_le {v : Nat} (h : v ≠ 0) : 2 ^ (bitlen v - 1) ≤ v := by
  rw [bitlen, if_neg h, Nat.add_sub_cancel]
  exact Nat.log2_self_le h

/-- The bits of a byte string, byte after byte and in each byte from the most significant bit. -/
theorem bytesToBits_getElem? (m : List Byte) (j : Nat) (h : j < m.length) (i : Nat) (hi : i < 8) :
    (bytesToBits m)[8 * j + i]? = some (m[j].getLsbD (7 - i)) := by
  induction m generalizing j with
  | nil => exact absurd h (Nat.not_lt_zero j)
  | cons b m ih =>
    have hcons : bytesToBits (b :: m) = binW 8 b.toNat ++ bytesToBits m := rfl
    rw [hcons]
    cases j with
    | zero =>
      rw [List.getElem?_append_left (by rw [binW_length]; omega), Nat.mul_zero, Nat.zero_add, binW_getElem? hi]
      rfl
    | succ j =>
      rw [List.getElem?_append_right (by rw [binW_length]; omega), binW_length,
        show 8 * (j + 1) + i - 8 = 8 * j + i by omega]
      exact ih j (Nat.lt_of_succ_lt_succ h)

theorem pieces_getElem? {α : Type} {k c j : Nat} (h : j < c) (b : List α) :
    (pieces k c b)[j]? = some ((b.drop (j * k)).take k) := by
  simp [pieces, h]

/-! ## Bytes that are read (20_memory.md R89, R102) -/

theorem undefinedCount_eq_length_filter (cells : List (Option Byte)) :
    undefinedCount cells = (cells.filter fun c => c == none).length := by
  have hnone : (fun c : Option Byte => c.isNone) = fun c => c == none := by
    funext c
    cases c <;> rfl
  rw [undefinedCount, List.countP_eq_length_filter, hnone]

theorem settle_getElem?_defined {k i : Nat} {cells : List (Option Byte)} {b : Byte} (h : cells[i]? = some (some b)) :
    (settle k cells)[i]? = some b := by
  rw [settle_getElem?, h, Option.map_some, Option.getD_some]

theorem settle_getElem?_undefined {i : Nat} {cells : List (Option Byte)} (k : Nat) (h : cells[i]? = some none) :
    (settle k cells)[i]? = some (drawByte (k + undefinedCount (cells.take i))) := by
  rw [settle_getElem?, h, Option.map_some, Option.getD_none]

theorem readMany_getElem? {n j : Nat} (h : j < n) (m : Memory) (o : Nat) :
    (m.readMany o n)[j]? = some (m.read? (o + j)) := by
  simp [Memory.readMany, h]

/-- Settles O60, clause by clause from the laws of renderings, pieces, reads with draws, and writes. -/
theorem stringsInTheBuffers : Obligations.StringsInTheBuffers := by
  refine ⟨fun w v => ⟨binW_length w v, fun i hi => binW_getElem? hi v, bitsVal_binW_of_lt⟩,
    fun v => ⟨lt_two_pow_bitlen v, two_pow_bitlen_pred_le, rfl⟩,
    fun m => ⟨bytesToBits_length m, bitsToBytes_bytesToBits m, bytesToBits_getElem? m⟩,
    fun k c j b hj => pieces_getElem? hj b, rfl, rfl, fun s m h => inBytes_of_inputIs h,
    fun k cells => ⟨settle_length k cells, fun i b h => settle_getElem?_defined h, fun i h => ?_,
      undefinedCount_eq_length_filter cells⟩,
    fun s => ⟨rfl, readMany_length s.mem inBase _, fun j hj => readMany_getElem? hj s.mem inBase⟩,
    fun m o a bs => read?_writeMany m o bs a⟩
  rw [settle_getElem?_undefined k h, undefinedCount_eq_length_filter]
  rfl

end Sys2Proof.Machine

namespace Sys2Proof.Machine

/-! # State: what a step can do, said once, and what every step keeps -/

/-! ## Big-number writes, field by field -/

section
variable (reg : BigReg) (j : Nat) (v : Word) (s : State)

@[simp] theorem setBigReg_params (x : Big) : (s.setBigReg reg x).params = s.params := by cases reg <;> rfl
@[simp] theorem storeBig_params : (storeBig reg j v s).params = s.params := by cases reg <;> rfl
@[simp] theorem storeBig_phase : (storeBig reg j v s).phase = s.phase := by cases reg <;> rfl
@[simp] theorem storeBig_cmd : (storeBig reg j v s).cmd = s.cmd := by cases reg <;> rfl
@[simp] theorem storeBig_lenOut : (storeBig reg j v s).lenOut = s.lenOut := by cases reg <;> rfl
@[simp] theorem storeBig_mem : (storeBig reg j v s).mem = s.mem := by cases reg <;> rfl
@[simp] theorem storeBig_status :
    (storeBig reg j v s).status = if reg.isKeySource then (dropKey s).status else s.status := by cases reg <;> rfl

end

/-! ## Everything a step can do -/

/-- The state that a completion or an arrival of the step from `s` finds: a step of waiting may have passed and an
arrival may have left the port (20_memory.md R97, 70_reset_and_hazards.md R430). -/
def Reaches (s u : State) : Prop :=
  ∃ ph rest, u = { s with phase := ph, inputs := rest } ∧
    (ph = s.phase ∨ ∃ w n, s.phase = .busy w (n + 1) ∧ ph = .busy w n)

/-- Everything that a completion or one arrival can do to a state. -/
inductive Change (u : State) : State → Prop
  /-- Nothing but time passes. -/
  | wait : Change u u
  /-- Error completion, after the draws the command took (60_exceptions.md R350). -/
  | error (i : Option Instr) (code : ErrCode) (n : Nat) (hcode : code ≠ .none) :
      Change u (raiseError i code (u.drawn n))
  /-- POWMOD and INVERT (40_modular.md R151, R155). -/
  | result (v : Nat) (hv : v < u.m.toNat) : Change u (completeOk (u.withR (big v)))
  /-- KEYGEN, from primes below 2^32, and KEYSET, from KP, KQ and KE (40_modular.md R163, R170). -/
  | key (n p q e : Nat) (key : KeyParts) (hp : 2 ≤ p) (hq : 2 ≤ q)
      (hsource : p * q < 2 ^ 64 ∧ e < 2 ^ 32 ∨ p * q < 2 ^ u.params.nbits ∧ e = u.ke.toNat)
      (hkey : construct p q e (chunkSize u) = .ok key) :
      Change u (completeOk ((storeKey key (u.drawn n)).withPrimes (big p) (big q) (big e)))
  /-- TDERIVE (42_substitution.md R256). -/
  | tables (n a : Nat) : Change u (completeOk ((u.drawn n).withTables
      ((deriveTable u.params.tableRounds a).map (BitVec.ofNat 8))
      ((invertTable (deriveTable u.params.tableRounds a)).map (BitVec.ofNat 8))))
  /-- The commands with an output in OUT (10_state.md R38, R50). -/
  | output (n : Nat) (bs : List Byte) (hlen : bs.length ≤ u.params.bufBytes) :
      Change u (completeOk ((u.drawn n).withOut bs))
  /-- XFER (44_transfer.md R330). -/
  | transfer (n : Nat) (bs : List Byte) (hlen : bs.length = u.lenOut.toNat) :
      Change u (completeOk ((u.drawn n).withIn bs u.lenOut))
  /-- The reset input or the soft reset (70_reset_and_hazards.md R400, R402). -/
  | reset : Change u u.hardwareReset
  /-- A read, or a write that is dropped: answers, draws and sticky flags only. -/
  | flags (draws : Nat) (replies : List Word) (cmdOvr accErr busyWr : Bool) :
      Change u { u with
        status := { u.status with cmdOvr := cmdOvr, accErr := accErr, busyWr := busyWr }
        draws := draws
        replies := replies }
  /-- A write of CTRL without SOFT_RESET (10_state.md R34). -/
  | ctrl (irqEn : Bool) : Change u { u with irqEn := irqEn }
  /-- A write of STATUS (10_state.md R35). -/
  | status (v : Word) : Change u (writeStatus v u)
  /-- Acceptance of a command word (60_exceptions.md R351). -/
  | accept (w : Word) (hidle : u.isBusy = false) : Change u (acceptCommand w u)
  /-- A write of a control register that only stores (10_state.md R36, R37, R46, R47). -/
  | store (chunkBits lenIn : BitVec 16) (plo phi skeyLo skeyHi : Word) :
      Change u { u with
        chunkBits := chunkBits, lenIn := lenIn, plo := plo, phi := phi, skeyLo := skeyLo, skeyHi := skeyHi }
  /-- A write of a word of a big-number slot: of a writable register, or of a reserved word (10_state.md R40, R44). -/
  | bigWord (reg : BigReg) (j : Nat) (v : Word) (hreg : reg.writable = true ∨ u.params.nbits / 32 ≤ j) :
      Change u (storeBig reg j v u)
  /-- A write inside IN (10_state.md R50). -/
  | inBuf (o : Nat) (bs : List Byte) (hlo : inBase ≤ o) (hhi : o + bs.length ≤ inBase + u.params.bufBytes) :
      Change u { u with mem := u.mem.writeMany o bs }

theorem Change.of_effect {i : Instr} {u v : State} (h : Effect i u v) : Change u (completeOk v) := by
  rcases h with ⟨-, x, hx, rfl⟩ | ⟨-, n, p, q, e, key, hp, hq, hsource, hkey, rfl⟩ | ⟨-, n, a, rfl⟩ |
    ⟨n, bs, hlen, rfl⟩ | ⟨-, n, bs, hlen, rfl⟩
  · exact .result x hx
  · exact .key n p q e key hp hq (hsource.imp_right fun ⟨hpq, _, _, he⟩ => ⟨hpq, he⟩) hkey
  · exact .tables n a
  · exact .output n bs hlen
  · exact .transfer n bs hlen

theorem Change.of_completeWord {w : Word} {u t : State} (h : completeWord w u = .next t) : Change u t := by
  rcases completeWord_cases h with ⟨i, code, n, hcode, rfl⟩ | ⟨i, v, hv, rfl⟩
  · exact .error i code n hcode
  · exact .of_effect hv

theorem Change.of_hostRead (o : Nat) (n : Width) (u : State) : Change u (hostRead o n u) := by
  obtain ⟨k, v, acc, h⟩ := hostRead_cases o n u
  rw [h]
  exact .flags _ _ u.status.cmdOvr _ u.status.busyWr

theorem Change.of_writeCtrl (v : Word) (u : State) : Change u (writeCtrl v u) := by
  unfold writeCtrl
  split
  · exact .reset
  · exact .ctrl _

/-- A control register other than CMD is stored as such. -/
theorem storeItem_ctl {reg : CtlReg} (h : reg ≠ .cmd) (o n : Nat) (v : Word) (s : State) :
    storeItem (.ctl reg) o n v s = storeCtl reg v s := by
  cases reg with
  | cmd => exact absurd rfl h
  | id | version | ctrl | status | chunkBits | lenIn | lenOut | plo | phi | skeyLo | skeyHi | paramNbits
  | paramBuf => rfl

theorem Change.of_storeCtl (reg : CtlReg) (v : Word) (u : State) : Change u (storeCtl reg v u) := by
  cases reg with
  | chunkBits => exact .store _ u.lenIn u.plo u.phi u.skeyLo u.skeyHi
  | lenIn => exact .store u.chunkBits _ u.plo u.phi u.skeyLo u.skeyHi
  | plo => exact .store u.chunkBits u.lenIn v u.phi u.skeyLo u.skeyHi
  | phi => exact .store u.chunkBits u.lenIn u.plo v u.skeyLo u.skeyHi
  | skeyLo => exact .store u.chunkBits u.lenIn u.plo u.phi v u.skeyHi
  | skeyHi => exact .store u.chunkBits u.lenIn u.plo u.phi u.skeyLo v
  | id | version | ctrl | status | cmd | lenOut | paramNbits | paramBuf => exact .wait

theorem Width.one_le_bytes (n : Width) : 1 ≤ n.bytes := by cases n <;> decide

theorem Change.of_storeItem {item : Item} {o : Nat} {n : Width} {u : State} (v : Word)
    (ha : admitted u.params o n.bytes true = some item) (hidle : u.isBusy = false) :
    Change u (storeItem item o n.bytes v u) := by
  obtain ⟨hfirst, -, -, hlast, hwritable⟩ := admitted_eq_some.1 ha
  cases item with
  | ctl reg =>
    by_cases hreg : reg = .cmd
    · subst hreg
      exact .accept v hidle
    · rw [storeItem_ctl hreg]
      exact .of_storeCtl reg v u
  | bigWord reg j => exact .bigWord reg j v (by simpa [Item.writable] using hwritable rfl)
  | inBuf =>
    have hlo := (itemAt_inBuf.1 hfirst).1
    have hhi := (itemAt_inBuf.1 hlast).2
    have hn := Width.one_le_bytes n
    exact .inBuf o (leBytes n.bytes v) hlo (by rw [leBytes_length]; omega)
  | fwd | inv | outBuf => exact .wait

theorem Change.of_hostWrite (o : Nat) (n : Width) (v : Word) (u : State) : Change u (hostWrite o n v u) := by
  rcases hostWrite_cases o n v u with h | h | h | ⟨-, h | h⟩ | ⟨hidle, item, ha, h⟩ <;> rw [h]
  · exact .flags u.draws u.replies u.status.cmdOvr true u.status.busyWr
  · exact .of_writeCtrl v u
  · exact .status v
  · exact .flags u.draws u.replies true u.status.accErr u.status.busyWr
  · exact .flags u.draws u.replies u.status.cmdOvr u.status.accErr true
  · exact .of_storeItem v ha hidle

theorem Change.of_handleEvent {ev : Event} {u t : State} (h : handleEvent ev u = .next t) : Change u t := by
  rcases handleEvent_cases h with rfl | ⟨o, n, rfl⟩ | ⟨o, n, v, rfl⟩
  · exact .reset
  · exact .of_hostRead o n u
  · exact .of_hostWrite o n v u

/-- Every step is one change, from the state that its completion or its arrival finds. -/
theorem step_change {s t : State} (h : step s = .next t) : ∃ u, Reaches s u ∧ Change u t := by
  rcases step_cases h with ⟨w, -, hw⟩ | ⟨ph, hph, ⟨-, rfl⟩ | ⟨ev, rest, -, he⟩⟩
  · exact ⟨s, ⟨s.phase, s.inputs, rfl, .inl rfl⟩, .of_completeWord hw⟩
  · exact ⟨_, ⟨ph, s.inputs, rfl, hph⟩, .wait⟩
  · exact ⟨_, ⟨ph, rest, rfl, hph⟩, .of_handleEvent he⟩

/-! ## Memory keeps its form -/

theorem MemoryInv.clear {s : State} (h : MemoryInv s) (o n : Nat) : MemoryInv { s with mem := s.mem.clear o n } :=
  ⟨clear_wf h.1 o n, fun c hc => h.2 c (mem_clear hc)⟩

theorem MemoryInv.writeMany {s : State} (h : MemoryInv s) {o : Nat} {bs : List Byte}
    (hplace : ∀ a, o ≤ a → a < o + bs.length → isMemoryOffset s.params a) :
    MemoryInv { s with mem := s.mem.writeMany o bs } := by
  refine ⟨writeMany_wf h.1 o bs, fun c hc => ?_⟩
  rcases mem_writeMany hc with hold | ⟨hlo, hhi⟩
  · exact h.2 c hold
  · exact hplace c.1 hlo hhi

theorem MemoryInv.withTables {s : State} (h : MemoryInv s) {fwd inv : List Byte} (hfwd : fwd.length = 256)
    (hinv : inv.length = 256) : MemoryInv (s.withTables fwd inv) := by
  obtain ⟨hf, hi, -, -⟩ := memory_places
  have h1 := h.writeMany (o := fwdBase) (bs := fwd) fun a hlo hhi => .inl (by omega)
  exact h1.writeMany (o := invBase) (bs := inv) fun a hlo hhi => .inl (by omega)

theorem sortByKey_perm (key : Nat → Nat) (t : List Nat) : (sortByKey key t).Perm t := by
  induction t with
  | nil => exact List.Perm.refl _
  | cons x xs ih => exact (insertByKey_perm key x _).trans (ih.cons x)

/-- The derived table lists every byte once (42_substitution.md R254). -/
theorem deriveTable_perm (rounds a : Nat) : (deriveTable rounds a).Perm (List.range 256) := by
  have hrounds : ∀ t : List Nat, (sortRounds a rounds t).Perm t := fun t => by
    induction rounds with
    | zero => exact List.Perm.refl _
    | succ rounds ih => exact (sortByKey_perm _ _).trans ih
  exact hrounds _

@[simp] theorem deriveTable_length (rounds a : Nat) : (deriveTable rounds a).length = 256 := by
  simpa using (deriveTable_perm rounds a).length_eq

theorem Change.keeps_memoryInv {u t : State} (h : Change u t) (hout : OutputInv u) (hmem : MemoryInv u) :
    MemoryInv t := by
  cases h with
  | wait | flags | ctrl | status | accept | store | result | key => exact hmem
  | error => exact hmem.clear _ _
  | tables n a =>
    exact MemoryInv.withTables (s := u.drawn n) hmem (by rw [List.length_map, deriveTable_length])
      (by rw [List.length_map, invertTable_length])
  | output n bs hlen => exact hmem.writeMany fun x hlo hhi => .inr (.inr ⟨hlo, by omega⟩)
  | transfer n bs hlen =>
    have hle := hout.1
    exact hmem.writeMany fun x hlo hhi => .inr (.inl ⟨hlo, by omega⟩)
  | reset => exact ⟨reset_wf, fun c hc => absurd hc List.not_mem_nil⟩
  | bigWord => simpa only [MemoryInv, storeBig_mem, storeBig_params] using hmem
  | inBuf o bs hlo hhi => exact hmem.writeMany fun x hlo' hhi' => .inr (.inl ⟨by omega, by omega⟩)

/-- Settles O54: error completion and reset take bytes away, and every other change of memory writes inside the tables
and buffers. -/
theorem stepKeepsMemoryForm : Obligations.StepKeepsMemoryForm := by
  intro s t _ hout hmem hstep
  obtain ⟨u, ⟨ph, rest, rfl, -⟩, hchange⟩ := step_change hstep
  exact hchange.keeps_memoryInv hout hmem

/-! ## Big-number registers stay below 2^NBITS -/

theorem RangeInv.setBigReg {s : State} (h : RangeInv s) (reg : BigReg) {x : Big} (hx : x.toNat < 2 ^ s.params.nbits) :
    RangeInv (s.setBigReg reg x) := by
  intro reg'
  rw [bigReg_setBigReg, setBigReg_params]
  split
  · exact hx
  · exact h reg'

/-- A number below a bound is below it in a big-number register too, whether or not it fits. -/
theorem big_toNat_lt {v b : Nat} (h : v < b) : (big v).toNat < b := by
  rw [big, BitVec.toNat_ofNat]
  exact (Nat.mod_le _ _).trans_lt h

/-- A write of a word below NBITS/32 changes no bit from NBITS up. -/
theorem setSlotWord_lt {p : Params} {x : Big} (hx : x.toNat < 2 ^ p.nbits) (j : Nat) (v : Word) :
    (setSlotWord p x j v).toNat < 2 ^ p.nbits := by
  by_cases hj : j < p.nbits / 32
  · refine Nat.lt_pow_two_of_testBit _ fun i hi => ?_
    by_cases h512 : i < 512
    · rw [← BitVec.getLsbD, setSlotWord_getLsbD p x j v i hj h512, if_neg (by omega), BitVec.getLsbD]
      exact Nat.testBit_lt_two_pow (hx.trans_le (Nat.pow_le_pow_right (by decide) hi))
    · exact BitVec.getLsbD_of_ge _ _ (by omega)
  · rwa [setSlotWord_reserved (by omega)]

/-- The registers a key is made from and those made are all below the bound of the modulus. -/
theorem IsKey.lt_of_modulus_lt {p q e n d dP dQ qinv b : Nat} {noQinv : Bool}
    (h : IsKey p q e n d dP dQ qinv noQinv) (hp : 2 ≤ p) (hq : 2 ≤ q) (hn : p * q < b) :
    p < b ∧ q < b ∧ n < b ∧ d < b ∧ dP < b ∧ dQ < b ∧ qinv < b := by
  obtain ⟨rfl, -, hd, rfl, rfl, -, hinv, hnone⟩ := h
  have hphi := (phiOf_pos hp hq).2
  have hpn : p < b := lt_of_le_of_lt (Nat.le_mul_of_pos_right p (by omega)) hn
  have hqn : q < b := lt_of_le_of_lt (Nat.le_mul_of_pos_left q (by omega)) hn
  have hdP := Nat.mod_le d (p - 1)
  have hdQ := Nat.mod_le d (q - 1)
  refine ⟨hpn, hqn, hn, by omega, by omega, by omega, ?_⟩
  cases noQinv with
  | false => exact (hinv rfl).2.trans hpn
  | true => rw [hnone rfl]; omega

/-- In both sources of a key the modulus is below 2^NBITS. -/
theorem modulus_lt {p : Params} (hp : p.wellFormed = true) {n : Nat} (h : n < 2 ^ 64 ∨ n < 2 ^ p.nbits) :
    n < 2 ^ p.nbits := by
  obtain ⟨-, h64, -⟩ := params_bounds hp
  rcases h with h | h
  · exact h.trans_le (Nat.pow_le_pow_right (by decide) h64)
  · exact h

theorem RangeInv.withKey {s : State} (h : RangeInv s) {p q e : Nat} {key : KeyParts}
    (hkey : IsKey p q e key.n key.d key.dP key.dQ key.qinv key.noQinv) (hp : 2 ≤ p) (hq : 2 ≤ q)
    (hn : p * q < 2 ^ s.params.nbits) (he : e < 2 ^ s.params.nbits) :
    RangeInv ((storeKey key s).withPrimes (big p) (big q) (big e)) := by
  obtain ⟨hp', hq', hn', hd', hdP', hdQ', hqinv'⟩ := hkey.lt_of_modulus_lt hp hq hn
  intro reg
  cases reg with
  | kp => exact big_toNat_lt hp'
  | kq => exact big_toNat_lt hq'
  | ke => exact big_toNat_lt he
  | kn => exact big_toNat_lt hn'
  | kd => exact big_toNat_lt hd'
  | kdp => exact big_toNat_lt hdP'
  | kdq => exact big_toNat_lt hdQ'
  | kqinv => exact big_toNat_lt hqinv'
  | a => exact h .a
  | e => exact h .e
  | m => exact h .m
  | r => exact h .r
  | pe => exact h .pe
  | pn => exact h .pn

theorem hardwareReset_bigReg_toNat (s : State) (reg : BigReg) : (s.hardwareReset.bigReg reg).toNat = 0 := by
  cases reg <;> exact BitVec.toNat_zero

theorem Change.keeps_rangeInv {u t : State} (h : Change u t) (hparams : ParamsInv u) (hrange : RangeInv u) :
    RangeInv t := by
  cases h with
  | wait | error | tables | output | transfer | flags | ctrl | status | accept | store | inBuf => exact hrange
  | result v hv => exact hrange.setBigReg .r (big_toNat_lt (hv.trans (hrange .m)))
  | key n p q e key hp hq hsource hkey =>
    have hn := modulus_lt hparams (n := p * q) (hsource.imp And.left And.left)
    have he : e < 2 ^ u.params.nbits := by
      obtain ⟨-, h64, -⟩ := params_bounds hparams
      rcases hsource with ⟨-, he⟩ | ⟨-, rfl⟩
      · exact he.trans_le (Nat.pow_le_pow_right (by decide) (by omega))
      · exact hrange .ke
    exact RangeInv.withKey (s := u.drawn n) hrange (construct_ok hp hq hkey).2 hp hq hn he
  | reset =>
    intro reg
    rw [hardwareReset_bigReg_toNat]
    exact Nat.two_pow_pos _
  | bigWord reg j v =>
    intro reg'
    rw [storeBig_bigReg, storeBig_params]
    split
    · exact setSlotWord_lt (hrange reg) j v
    · exact hrange reg'

/-- Settles O55: results are residues, key parts are bounded by the modulus, and a host write changes a word below
NBITS/32 only. -/
theorem stepKeepsRegisterRange : Obligations.StepKeepsRegisterRange := by
  intro s t hparams hrange hstep
  obtain ⟨u, ⟨ph, rest, rfl, -⟩, hchange⟩ := step_change hstep
  exact hchange.keeps_rangeInv hparams hrange

/-! ## OUT stays defined below LEN_OUT -/

/-- The invariant of OUT depends on LEN_OUT and the bytes of OUT only. -/
theorem OutputInv.congr {s t : State} (h : OutputInv s) (hparams : t.params = s.params) (hlen : t.lenOut = s.lenOut)
    (hread : ∀ a, outBase ≤ a → t.mem.read? a = s.mem.read? a) : OutputInv t := by
  unfold OutputInv
  rw [hparams, hlen]
  exact ⟨h.1, fun j hj => by rw [hread _ (Nat.le_add_right outBase j)]; exact h.2 j hj⟩

theorem outputInv_of_lenOut_zero {s : State} (h : s.lenOut = 0) : OutputInv s := by
  unfold OutputInv
  rw [h]
  exact ⟨Nat.zero_le _, fun j hj => absurd hj (Nat.not_lt_zero j)⟩

theorem outputInv_withOut {s : State} (hparams : ParamsInv s) {bs : List Byte}
    (hlen : bs.length ≤ s.params.bufBytes) : OutputInv (s.withOut bs) := by
  obtain ⟨-, -, -, -, -, hbuf⟩ := params_bounds hparams
  have hn : (s.withOut bs).lenOut.toNat = bs.length := by
    rw [withOut_lenOut, BitVec.toNat_ofNat, Nat.mod_eq_of_lt (by omega)]
  refine ⟨hn.trans_le hlen, fun j hj => ?_⟩
  rw [hn] at hj
  rw [withOut_mem, read?_writeMany_in _ _ _ _ hj, List.getElem?_eq_getElem hj]
  rfl

theorem Change.keeps_outputInv {u t : State} (h : Change u t) (hparams : ParamsInv u) (hout : OutputInv u) :
    OutputInv t := by
  obtain ⟨hfwd, hinv, hin, hob⟩ := memory_places
  obtain ⟨-, -, -, -, -, hbuf⟩ := params_bounds hparams
  cases h with
  | wait | flags | ctrl | status | accept | store | result | key => exact hout
  | error | reset => exact outputInv_of_lenOut_zero rfl
  | tables n a =>
    refine hout.congr rfl rfl fun x hx => ?_
    have hlen : ((deriveTable u.params.tableRounds a).map (BitVec.ofNat 8)).length = 256 := by simp
    have hlen' : ((invertTable (deriveTable u.params.tableRounds a)).map (BitVec.ofNat 8)).length = 256 := by simp
    exact (read?_writeMany_out _ _ _ _ (.inr (by omega))).trans (read?_writeMany_out _ _ _ _ (.inr (by omega)))
  | output n bs hlen => exact outputInv_withOut (s := u.drawn n) hparams hlen
  | transfer n bs hlen =>
    have hle := hout.1
    exact hout.congr rfl rfl fun x hx => read?_writeMany_out _ _ _ _ (.inr (by omega))
  | bigWord => exact hout.congr (storeBig_params ..) (storeBig_lenOut ..) fun x _ => by rw [storeBig_mem]
  | inBuf o bs hlo hhi => exact hout.congr rfl rfl fun x hx => read?_writeMany_out _ _ _ _ (.inr (by omega))

/-- Settles O56: only error completion, a reset and a command's output change OUT or LEN_OUT; every other write of
memory ends at or below the start of OUT. -/
theorem stepKeepsOutputDefined : Obligations.StepKeepsOutputDefined := by
  intro s t hparams hout hstep
  obtain ⟨u, ⟨ph, rest, rfl, -⟩, hchange⟩ := step_change hstep
  exact hchange.keeps_outputInv hparams hout

/-! ## The tables stay a bijection and its inverse -/

/-- The inverse law of the tables depends on the bytes of FWD and INV only. -/
theorem tablesInverse_congr {m n : Memory} (h : tablesInverse m) (hread : ∀ a < inBase, n.read? a = m.read? a) :
    tablesInverse n := by
  obtain ⟨hfwd, hinv, hin, -⟩ := memory_places
  intro x hx
  have hINV : ∀ y : Byte, n.read? (invBase + y.toNat) = m.read? (invBase + y.toNat) := fun y =>
    hread _ (by have := y.isLt; omega)
  simp only [hread (fwdBase + x) (by omega), hINV]
  exact h x hx

/-- Memory above the tables is of no concern to them: a write there keeps their invariant. -/
theorem TableInv.congr {s t : State} (h : TableInv s) (hvalid : t.status.tableValid = s.status.tableValid)
    (hread : ∀ a < inBase, t.mem.read? a = s.mem.read? a) : TableInv t :=
  fun ht => tablesInverse_congr (h (hvalid.symm.trans ht)) hread

/-- A permutation of the bytes, written to FWD, and its inverse, written to INV, are a bijection and its inverse
(42_substitution.md R256). -/
theorem tablesInverse_of_perm {t : List Nat} (hperm : t.Perm (List.range 256)) (m : Memory) :
    tablesInverse ((m.writeMany fwdBase (t.map (BitVec.ofNat 8))).writeMany invBase
      ((invertTable t).map (BitVec.ofNat 8))) := by
  obtain ⟨hfwd, hinv, -, -⟩ := memory_places
  have hlen : t.length = 256 := by simpa using hperm.length_eq
  intro x hx
  obtain ⟨y, hy, hy256, hback⟩ := invertTable_getElem? hperm hx
  have hFWD (inv : List Byte) :
      ((m.writeMany fwdBase (t.map (BitVec.ofNat 8))).writeMany invBase inv).read? (fwdBase + x) =
        some (BitVec.ofNat 8 y) := by
    rw [read?_writeMany_out _ _ _ _ (.inl (by omega)), read?_writeMany_in _ _ _ _ (by simpa [hlen] using hx),
      List.getElem?_map, hy, Option.map_some]
  have hyNat : (BitVec.ofNat 8 y).toNat = y := by rw [BitVec.toNat_ofNat]; exact Nat.mod_eq_of_lt hy256
  rw [hFWD, Option.bind_some, hyNat, read?_writeMany_in _ _ _ _ (by simpa using hy256), List.getElem?_map, hback,
    Option.map_some]

theorem Change.keeps_tableInv {u t : State} (h : Change u t) (htable : TableInv u) : TableInv t := by
  obtain ⟨hfwd, hinv, hin, hout⟩ := memory_places
  cases h with
  | wait | flags | ctrl | status | accept | store | result | key => exact htable
  | error i code n hcode =>
    exact htable.congr rfl fun a ha => (read?_clear ..).trans (if_neg (by omega))
  | tables n a => exact fun _ => tablesInverse_of_perm (deriveTable_perm _ _) _
  | output n bs hlen => exact htable.congr rfl fun a ha => read?_writeMany_out _ _ _ _ (.inl (by omega))
  | transfer n bs hlen => exact htable.congr rfl fun a ha => read?_writeMany_out _ _ _ _ (.inl ha)
  | reset => exact fun hvalid => absurd hvalid Bool.false_ne_true
  | bigWord reg =>
    refine htable.congr ?_ fun a _ => by rw [storeBig_mem]
    rw [storeBig_status]
    split <;> rfl
  | inBuf o bs hlo hhi => exact htable.congr rfl fun a ha => read?_writeMany_out _ _ _ _ (.inl (by omega))

/-- Settles O57: TDERIVE writes a permutation and its inverse, and every other write of memory is above the tables. -/
theorem stepKeepsTheTables : Obligations.StepKeepsTheTables := by
  intro s t htable hstep
  obtain ⟨u, ⟨ph, rest, rfl, -⟩, hchange⟩ := step_change hstep
  exact hchange.keeps_tableInv htable

/-! ## The key registers stay a KeyPair -/

/-- Without a key there is nothing to keep. -/
theorem keyInv_of_no_key {s : State} (hkey : s.status.keyValid = false) (hqinv : s.status.qinvNone = false) :
    KeyInv s :=
  ⟨fun h => absurd (hqinv.symm.trans h) Bool.false_ne_true, fun h => absurd (hkey.symm.trans h) Bool.false_ne_true⟩

/-- The registers of a key that fits hold its parts, so they hold the KeyPair. -/
theorem keyInv_withKey {s : State} {p q e k b : Nat} {key : KeyParts} (hp : 2 ≤ p) (hq : 2 ≤ q)
    (hkey : construct p q e k = .ok key) (hb : b ≤ 512) (hn : p * q < 2 ^ b) (he : (big e).toNat = e) :
    KeyInv (completeOk ((storeKey key s).withPrimes (big p) (big q) (big e))) := by
  obtain ⟨hk, hpair⟩ := construct_ok hp hq hkey
  obtain ⟨hp', hq', hn', hd', hdP', hdQ', hqinv'⟩ := hpair.lt_of_modulus_lt hp hq hn
  have hfits {v : Nat} (hv : v < 2 ^ b) : (big v).toNat = v := big_toNat_of_lt hv hb
  refine ⟨fun _ => rfl, fun _ => ⟨hp.trans_eq (hfits hp').symm, hq.trans_eq (hfits hq').symm,
    ⟨k, hk.trans_eq (hfits hn').symm⟩, ?_⟩⟩
  change IsKey (big p).toNat (big q).toNat (big e).toNat (big key.n).toNat (big key.d).toNat (big key.dP).toNat
    (big key.dQ).toNat (big key.qinv).toNat key.noQinv
  rw [hfits hp', hfits hq', he, hfits hn', hfits hd', hfits hdP', hfits hdQ', hfits hqinv']
  exact hpair

/-- A write to a big-number slot drops the key, stores an operand, or stores nothing (10_state.md R40, R44). -/
theorem storeBig_keeps_keyInv {s : State} (h : KeyInv s) {reg : BigReg} {j : Nat} (v : Word)
    (hreg : reg.writable = true ∨ s.params.nbits / 32 ≤ j) : KeyInv (storeBig reg j v s) := by
  cases reg with
  | kp | kq | ke => exact keyInv_of_no_key rfl rfl
  | a | e | m | pe | pn => exact h
  | r | kn | kd | kdp | kdq | kqinv =>
    rw [storeBig_reserved (hreg.resolve_left Bool.false_ne_true)]
    exact h

theorem Change.keeps_keyInv {u t : State} (h : Change u t) (hparams : ParamsInv u) (hkeyInv : KeyInv u) :
    KeyInv t := by
  cases h with
  | wait | flags | ctrl | status | accept | store | inBuf | result | tables | output | transfer => exact hkeyInv
  | error i code n hcode =>
    rw [raiseError_eq]
    split
    · exact keyInv_of_no_key rfl rfl
    · exact hkeyInv
  | key n p q e key hp hq hsource hkey =>
    obtain ⟨-, -, h512, -⟩ := params_bounds hparams
    have hn := modulus_lt hparams (n := p * q) (hsource.imp And.left And.left)
    have he : (big e).toNat = e := by
      rcases hsource with ⟨-, he⟩ | ⟨-, rfl⟩
      · exact big_toNat_of_lt he (by decide)
      · exact congrArg BitVec.toNat (big_toNat u.ke)
    exact keyInv_withKey hp hq hkey h512 hn he
  | reset => exact keyInv_of_no_key rfl rfl
  | bigWord reg j v hreg => exact storeBig_keeps_keyInv hkeyInv v hreg

/-- Settles O58: KEYGEN and KEYSET store what construction made of their primes, and a write to a source of the key
drops it. -/
theorem stepKeepsTheKeyPair : Obligations.StepKeepsTheKeyPair := by
  intro s t hparams hkey hstep
  obtain ⟨u, ⟨ph, rest, rfl, -⟩, hchange⟩ := step_change hstep
  exact hchange.keeps_keyInv hparams hkey

/-! ## ERR agrees with ERRCODE, and CMD is the running word -/

theorem Reaches.isBusy_eq {s u : State} (h : Reaches s u) : u.isBusy = s.isBusy := by
  obtain ⟨ph, rest, rfl, rfl | ⟨w, n, hs, rfl⟩⟩ := h
  · rfl
  · rw [State.isBusy, State.isBusy, hs]
    rfl

theorem Reaches.flagsInv {s u : State} (h : Reaches s u) (hflags : FlagsInv s) : FlagsInv u := by
  have hbusy := h.isBusy_eq
  obtain ⟨ph, rest, rfl, -⟩ := h
  exact ⟨hflags.1, fun hu => hflags.2 (hbusy.symm.trans hu)⟩

theorem Reaches.commandInv {s u : State} (h : Reaches s u) (hcmd : CommandInv s) : CommandInv u := by
  obtain ⟨ph, rest, rfl, rfl | ⟨w, n, hs, rfl⟩⟩ := h
  · exact hcmd
  · rintro w' n' ⟨⟩
    exact hcmd w (n + 1) hs

/-- Successful completion reports no error and ends the command (60_exceptions.md R352). -/
theorem flagsInv_completeOk (s : State) : FlagsInv (completeOk s) :=
  ⟨by simp [completeOk], fun h => absurd h Bool.false_ne_true⟩

theorem Change.keeps_flagsInv {u t : State} (h : Change u t) (hflags : FlagsInv u) : FlagsInv t := by
  cases h with
  | wait | flags | ctrl | store | inBuf => exact hflags
  | error i code n hcode => exact ⟨iff_of_true rfl hcode, fun hbusy => absurd hbusy Bool.false_ne_true⟩
  | result | key | tables | output | transfer => exact flagsInv_completeOk _
  | reset => exact ⟨by simp [State.reset, Status.reset], fun hbusy => absurd hbusy Bool.false_ne_true⟩
  | status v =>
    refine ⟨hflags.1, fun hbusy => ?_⟩
    obtain ⟨hdone, herr⟩ := hflags.2 hbusy
    exact ⟨by rw [writeStatus_status, hdone, Bool.false_and], herr⟩
  | accept w => exact ⟨by simp [acceptCommand, State.accept, Status.accepted], fun _ => ⟨rfl, rfl⟩⟩
  | bigWord reg j v =>
    unfold FlagsInv State.isBusy
    rw [storeBig_phase, storeBig_status]
    split <;> exact hflags

/-- After a completion no command runs. -/
theorem commandInv_of_idle {s : State} (h : s.phase = .idle) : CommandInv s := fun w n hw => by
  rw [h] at hw
  cases hw

theorem Change.keeps_commandInv {u t : State} (h : Change u t) (hcmd : CommandInv u) : CommandInv t := by
  cases h with
  | wait | flags | ctrl | status | store | inBuf => exact hcmd
  | error | result | key | tables | output | transfer | reset => exact commandInv_of_idle rfl
  | accept w =>
    rintro w' n ⟨⟩
    rfl
  | bigWord reg j v =>
    unfold CommandInv
    rw [storeBig_phase, storeBig_cmd]
    exact hcmd

/-- Settles O59: completions set ERR with its code and end the command, acceptance clears both and stores the word it
runs, and no other change touches these fields but a cleared DONE. -/
theorem stepKeepsTheFlags : Obligations.StepKeepsTheFlags := by
  refine ⟨fun s t hflags hstep => ?_, fun s t hcmd hstep => ?_⟩
  · obtain ⟨u, hreach, hchange⟩ := step_change hstep
    exact hchange.keeps_flagsInv (hreach.flagsInv hflags)
  · obtain ⟨u, hreach, hchange⟩ := step_change hstep
    exact hchange.keeps_commandInv (hreach.commandInv hcmd)

end Sys2Proof.Machine

namespace Sys2Proof.Machine

/-! # State: the registers as the host reads and writes them -/

/-! ## The completion step -/

/-- Settles O4: the bytes of the accepted word decode as the word does. -/
theorem stepRunsTheDecodedCommand : Obligations.StepRunsTheDecodedCommand := by
  intro s w i hphase hdecode
  simp only [step, advance, hphase, completeWord, decodeBytes_leBytes, hdecode]

/-! ## Items of the window (10_state.md R56) -/

theorem ctlMap_getElem?_lt {k : Nat} {reg : CtlReg} (h : ctlMap[k]? = some reg) : k < 14 :=
  (List.getElem?_eq_some_iff.1 h).1

theorem bigMap_getElem?_lt {k : Nat} {reg : BigReg} (h : bigMap[k]? = some reg) : k < 14 :=
  (List.getElem?_eq_some_iff.1 h).1

theorem itemAt_ctl {p : Params} {o : Nat} (h : o < 0x100) : itemAt p o = ctlMap[o / 4]?.map .ctl := if_pos h

theorem itemAt_big {p : Params} {o : Nat} (hlo : 0x100 ≤ o) (hhi : o < 0x800) :
    itemAt p o = bigMap[(o - 0x100) / 64]?.map fun reg => .bigWord reg ((o - 0x100) % 64 / 4) := by
  rw [itemAt, if_neg (by omega), if_pos hhi]

theorem itemAt_fwd {p : Params} {o : Nat} (hlo : 0x800 ≤ o) (hhi : o < 0x900) : itemAt p o = some .fwd := by
  rw [itemAt, if_neg (by omega), if_neg (by omega), if_pos hhi]

theorem itemAt_inv {p : Params} {o : Nat} (hlo : 0x900 ≤ o) (hhi : o < 0xA00) : itemAt p o = some .inv := by
  rw [itemAt, if_neg (by omega), if_neg (by omega), if_neg (by omega), if_pos hhi]

theorem itemAt_buffers {p : Params} {o : Nat} (hlo : 0xA00 ≤ o) :
    itemAt p o =
      if inBase ≤ o ∧ o < inBase + p.bufBytes then some .inBuf
      else if outBase ≤ o ∧ o < outBase + p.bufBytes then some .outBuf
      else none := by
  rw [itemAt, if_neg (by omega), if_neg (by omega), if_neg (by omega), if_neg (by omega)]

/-- A control register is admitted as a whole, for a write if it is writable (20_memory.md R85, R88). -/
theorem admitted_ctl {k : Nat} {reg : CtlReg} {isWrite : Bool} (p : Params) (hk : ctlMap[k]? = some reg)
    (hw : isWrite = true → Item.writable p (.ctl reg) = true) :
    admitted p (4 * k) 4 isWrite = some (.ctl reg) := by
  have hk14 := ctlMap_getElem?_lt hk
  have hitem : ∀ d < 4, itemAt p (4 * k + d) = some (.ctl reg) := fun d hd => by
    rw [itemAt_ctl (by omega), show (4 * k + d) / 4 = k by omega, hk, Option.map_some]
  exact admitted_eq_some.2 ⟨hitem 0 (by omega), fun _ => rfl, by omega, hitem 3 (by omega), hw⟩

/-! ## Writes of control registers -/

theorem hostWrite_ctrl (v : Word) (s : State) : hostWrite 0x008 .w4 v s = writeCtrl v s := by
  have ha : admitted s.params 0x008 4 true = some (.ctl .ctrl) := admitted_ctl (k := 2) _ rfl fun _ => rfl
  simp only [hostWrite, Width.bytes, ha]

theorem hostWrite_status (v : Word) (s : State) : hostWrite 0x00C .w4 v s = writeStatus v s := by
  have ha : admitted s.params 0x00C 4 true = some (.ctl .status) := admitted_ctl (k := 3) _ rfl fun _ => rfl
  simp only [hostWrite, Width.bytes, ha]

theorem writeCtrl_of_clear {v : Word} (h : v.getLsbD 1 = false) (s : State) :
    writeCtrl v s = { s with irqEn := v.getLsbD 0 } := by
  rw [writeCtrl, h]
  rfl

theorem writeCtrl_of_set {v : Word} (h : v.getLsbD 1 = true) (s : State) : writeCtrl v s = s.hardwareReset :=
  if_pos h

/-- Settles O15: STATUS and CTRL are written in either phase, as `writeStatus` and `writeCtrl` have it. -/
theorem statusAndCtrlWritesTakeEffect : Obligations.StatusAndCtrlWritesTakeEffect := by
  intro s v
  rw [hostWrite_ctrl, hostWrite_status]
  refine ⟨rfl, fun h => writeCtrl_of_clear h s, fun h => ⟨writeCtrl_of_set h s, rfl⟩, rfl, ?_, fun h => ?_⟩
  · exact (Bool.and_assoc ..).symm
  · rw [writeCtrl_of_clear h]
    rfl

/-- A write while idle to an admitted item other than CTRL and STATUS stores it. -/
theorem hostWrite_of_idle {s : State} {o : Nat} {n : Width} {item : Item}
    (ha : admitted s.params o n.bytes true = some item) (hctrl : item ≠ .ctl .ctrl) (hstatus : item ≠ .ctl .status)
    (hidle : s.isBusy = false) (v : Word) : hostWrite o n v s = storeItem item o n.bytes v s := by
  unfold hostWrite
  rw [ha]
  split
  · next h => cases h
  · next h => exact absurd (Option.some.inj h) hctrl
  · next h => exact absurd (Option.some.inj h) hstatus
  · next h =>
    obtain rfl := Option.some.inj h
    rw [hidle]
    rfl

/-- A write while busy to an admitted item other than CTRL, STATUS and CMD is dropped with BUSY_WR. -/
theorem hostWrite_of_busy {s : State} {o : Nat} {n : Width} {item : Item}
    (ha : admitted s.params o n.bytes true = some item) (hctrl : item ≠ .ctl .ctrl) (hstatus : item ≠ .ctl .status)
    (hcmd : item ≠ .ctl .cmd) (hbusy : s.isBusy = true) (v : Word) : hostWrite o n v s = setBusyWr s := by
  unfold hostWrite
  rw [ha]
  split
  · next h => cases h
  · next h => exact absurd (Option.some.inj h) hctrl
  · next h => exact absurd (Option.some.inj h) hstatus
  · next h =>
    obtain rfl := Option.some.inj h
    rw [if_pos hbusy, if_neg hcmd]

/-! ## The bits of STATUS -/

theorem flagAt_getLsbD (b : Bool) {i : Nat} (hi : i < 32) (k : Nat) :
    (flagAt b i).getLsbD k = (b && decide (k = i)) := by
  cases b with
  | false => simp [flagAt]
  | true =>
    simp only [flagAt, if_true, BitVec.getLsbD_ofNat, Nat.testBit_two_pow, Bool.true_and]
    by_cases h : k = i
    · subst h
      simp [hi]
    · simp [h, Ne.symm h]

/-- Every bit of STATUS: the nine flags, then ERRCODE from bit 16 up (10_state.md R35). -/
theorem statusWord_getLsbD (s : State) (k : Nat) : (statusWord s).getLsbD k =
    (s.isBusy && decide (k = 0) || s.status.done && decide (k = 1) || s.status.err && decide (k = 2) ||
      s.status.tableValid && decide (k = 3) || s.status.keyValid && decide (k = 4) ||
      s.status.qinvNone && decide (k = 5) || s.status.cmdOvr && decide (k = 6) ||
      s.status.accErr && decide (k = 7) || s.status.busyWr && decide (k = 8) ||
      decide (16 ≤ k) && decide (k < 24) && s.status.errcode.number.getLsbD (k - 16)) := by
  have hcode : (s.status.errcode.number.setWidth 32 <<< 16).getLsbD k =
      (decide (16 ≤ k) && decide (k < 24) && s.status.errcode.number.getLsbD (k - 16)) := by
    rw [BitVec.getLsbD_shiftLeft, BitVec.getLsbD_setWidth]
    by_cases hlo : 16 ≤ k
    · by_cases hhi : k < 24
      · simp [hlo, hhi, show k < 32 by omega, show ¬ k < 16 by omega, show k - 16 < 32 by omega]
      · simp [hhi, BitVec.getLsbD_of_ge _ _ (show 8 ≤ k - 16 by omega)]
    · simp [hlo, show k < 16 by omega]
  simp (disch := omega) only [statusWord, BitVec.getLsbD_or, hcode, flagAt_getLsbD]

/-- Between the flags and ERRCODE, and above ERRCODE, STATUS reads 0 (10_state.md R35). -/
theorem statusWord_reserved (s : State) {k : Nat} (h : 9 ≤ k ∧ k < 16 ∨ 24 ≤ k) : (statusWord s).getLsbD k = false := by
  have hcode : (decide (16 ≤ k) && decide (k < 24)) = false := by
    rw [← Bool.decide_and, decide_eq_false_iff_not]
    omega
  simp (disch := omega) only [statusWord_getLsbD, hcode, decide_eq_false, Bool.and_false, Bool.false_and, Bool.or_false]

theorem statusWord_errcode (s : State) {k : Nat} (h : k < 8) :
    (statusWord s).getLsbD (16 + k) = s.status.errcode.number.getLsbD k := by
  simp (disch := omega) only [statusWord_getLsbD, decide_eq_false, decide_eq_true, Bool.and_false, Bool.or_false,
    Bool.false_or, Bool.true_and, Nat.add_sub_cancel_left]

/-- Settles O14: bit by bit from `statusWord_getLsbD`. -/
theorem statusWordFields : Obligations.StatusWordFields := by
  refine ⟨fun s => ⟨?_, ?_, ?_, ?_, ?_, ?_, ?_, ?_, ?_, ?_, ?_, ?_⟩, rfl, rfl, rfl, rfl, rfl, rfl, rfl, rfl, rfl, rfl,
    rfl, rfl, rfl, rfl, rfl, rfl⟩
  iterate 9 · rw [statusWord_getLsbD]; simp
  · refine BitVec.eq_of_getLsbD_eq fun i hi => ?_
    rw [BitVec.getLsbD_extractLsb', statusWord_reserved s (by omega)]
    simp
  · refine BitVec.eq_of_getLsbD_eq fun i hi => ?_
    rw [BitVec.getLsbD_extractLsb', statusWord_errcode s hi]
    simp [hi]
  · refine BitVec.eq_of_getLsbD_eq fun i hi => ?_
    rw [BitVec.getLsbD_extractLsb', statusWord_reserved s (by omega)]
    simp

/-! ## Words of a big-number slot (10_state.md R40) -/

theorem slotWord_below {p : Params} {j : Nat} (hj : j < p.nbits / 32) (x : Big) :
    slotWord p x j = x.extractLsb' (32 * j) 32 := if_pos hj

theorem slotWord_reserved {p : Params} {j : Nat} (hj : p.nbits / 32 ≤ j) (x : Big) : slotWord p x j = 0 :=
  if_neg (by omega)

theorem slotWord_eq_ofNat {p : Params} {j : Nat} (hj : j < p.nbits / 32) (x : Big) :
    slotWord p x j = BitVec.ofNat 32 (x.toNat / 2 ^ (32 * j)) := by
  rw [slotWord_below hj]
  apply BitVec.eq_of_toNat_eq
  rw [BitVec.extractLsb'_toNat, Nat.shiftRight_eq_div_pow, BitVec.toNat_ofNat]

theorem slotWord_setSlotWord_same {p : Params} (hp : p.nbits ≤ 512) {j : Nat} (hj : j < p.nbits / 32) (x : Big)
    (v : Word) : slotWord p (setSlotWord p x j v) j = v := by
  rw [slotWord_below hj]
  refine BitVec.eq_of_getLsbD_eq fun i hi => ?_
  rw [BitVec.getLsbD_extractLsb', setSlotWord_getLsbD p x j v _ hj (by omega), if_pos (by omega),
    Nat.add_sub_cancel_left, decide_eq_true hi, Bool.true_and]

theorem slotWord_setSlotWord_other {p : Params} (hp : p.nbits ≤ 512) {i j : Nat} (hj : j < p.nbits / 32) (hij : i ≠ j)
    (x : Big) (v : Word) : slotWord p (setSlotWord p x j v) i = slotWord p x i := by
  by_cases hi : i < p.nbits / 32
  · rw [slotWord_below hi, slotWord_below hi]
    refine BitVec.eq_of_getLsbD_eq fun k hk => ?_
    rw [BitVec.getLsbD_extractLsb', BitVec.getLsbD_extractLsb', setSlotWord_getLsbD p x j v _ hj (by omega),
      if_neg (by omega)]
  · rw [slotWord_reserved (by omega), slotWord_reserved (by omega)]

/-- Settles O18: a word is a field of the value, and a write replaces the bits of its own field. -/
theorem bigRegisterWords : Obligations.BigRegisterWords := by
  intro p x j v hp
  obtain ⟨-, -, h512, -⟩ := params_bounds hp
  refine ⟨fun hj => ⟨slotWord_eq_ofNat hj x, slotWord_setSlotWord_same h512 hj x v,
    fun i hij => slotWord_setSlotWord_other h512 hj hij x v, ?_⟩,
    fun hj => ⟨slotWord_reserved hj x, setSlotWord_reserved hj x v⟩⟩
  have hword := slotWord_setSlotWord_same h512 hj x v
  rw [slotWord_eq_ofNat hj] at hword
  rw [← BitVec.toNat_ofNat, hword]

/-! ## Host writes to a big-number slot (10_state.md R40, R44) -/

/-- While idle, a write of a word that may be written stores it. -/
theorem hostWrite_bigWord {s : State} {k j : Nat} {reg : BigReg} (hk : bigMap[k]? = some reg)
    (hw : reg.writable = true ∨ s.params.nbits / 32 ≤ j) (hj : j < 16) (hidle : s.isBusy = false) (v : Word) :
    hostWrite (0x100 + 64 * k + 4 * j) .w4 v s = storeBig reg j v s :=
  hostWrite_of_idle (n := .w4) (item := .bigWord reg j) (admitted_bigWord hk (fun _ => hw) hj) nofun nofun hidle v

/-- While busy, it only sets BUSY_WR. -/
theorem hostWrite_bigWord_busy {s : State} {k j : Nat} {reg : BigReg} (hk : bigMap[k]? = some reg)
    (hw : reg.writable = true ∨ s.params.nbits / 32 ≤ j) (hj : j < 16) (hbusy : s.isBusy = true) (v : Word) :
    hostWrite (0x100 + 64 * k + 4 * j) .w4 v s = setBusyWr s :=
  hostWrite_of_busy (n := .w4) (item := .bigWord reg j) (admitted_bigWord hk (fun _ => hw) hj) nofun nofun nofun hbusy v

/-- While idle, a write to a reserved word does nothing but drop the key, for KP, KQ and KE. -/
theorem hostWrite_reserved {s : State} {k j : Nat} {reg : BigReg} (hk : bigMap[k]? = some reg)
    (hres : s.params.nbits / 32 ≤ j) (hj : j < 16) (hidle : s.isBusy = false) (v : Word) :
    hostWrite (0x100 + 64 * k + 4 * j) .w4 v s = if reg.isKeySource then dropKey s else s := by
  rw [hostWrite_bigWord hk (.inr hres) hj hidle, storeBig_reserved hres]

/-- Settles O19: each offset is a word of the register that `bigMap` names there. -/
theorem keySourceWritesDropTheKey : Obligations.KeySourceWritesDropTheKey := by
  intro s j v hp
  obtain ⟨-, -, h512, -⟩ := params_bounds hp
  refine ⟨fun hj hidle => ?_, fun hj hbusy => ?_, fun hres hj hidle => ?_⟩
  · have hstore {k : Nat} {reg : BigReg} (hk : bigMap[k]? = some reg) (hw : reg.writable = true) :
        hostWrite (0x100 + 64 * k + 4 * j) .w4 v s = storeBig reg j v s :=
      hostWrite_bigWord hk (.inl hw) (by omega) hidle v
    exact ⟨hstore (k := 4) rfl rfl, hstore (k := 5) rfl rfl, hstore (k := 6) rfl rfl, hstore (k := 0) rfl rfl,
      hstore (k := 1) rfl rfl, hstore (k := 2) rfl rfl, hstore (k := 12) rfl rfl, hstore (k := 13) rfl rfl⟩
  · have hdrop {k : Nat} {reg : BigReg} (hk : bigMap[k]? = some reg) (hw : reg.writable = true) :
        hostWrite (0x100 + 64 * k + 4 * j) .w4 v s = setBusyWr s :=
      hostWrite_bigWord_busy hk (.inl hw) (by omega) hbusy v
    simp only [List.forall_mem_cons]
    exact ⟨hdrop (k := 4) rfl rfl, hdrop (k := 5) rfl rfl, hdrop (k := 6) rfl rfl, nofun⟩
  · have hignore {k : Nat} {reg : BigReg} (hk : bigMap[k]? = some reg) :
        hostWrite (0x100 + 64 * k + 4 * j) .w4 v s = if reg.isKeySource then dropKey s else s :=
      hostWrite_reserved hk hres hj hidle v
    simp only [List.forall_mem_cons]
    exact ⟨⟨hignore (k := 0) rfl, hignore (k := 1) rfl, hignore (k := 2) rfl, hignore (k := 3) rfl,
      hignore (k := 7) rfl, hignore (k := 8) rfl, hignore (k := 9) rfl, hignore (k := 10) rfl,
      hignore (k := 11) rfl, hignore (k := 12) rfl, hignore (k := 13) rfl, nofun⟩,
      hignore (k := 4) rfl, hignore (k := 5) rfl, hignore (k := 6) rfl, nofun⟩

/-! ## Control registers read back -/

/-- A write of a control register that only stores, while idle. -/
theorem hostWrite_store {s : State} {k : Nat} {reg : CtlReg} (hk : ctlMap[k]? = some reg)
    (hw : Item.writable s.params (.ctl reg) = true) (hreg : reg ≠ .ctrl ∧ reg ≠ .status ∧ reg ≠ .cmd)
    (hidle : s.isBusy = false) (v : Word) : hostWrite (4 * k) .w4 v s = storeCtl reg v s := by
  obtain ⟨hctrl, hstatus, hcmd⟩ := hreg
  rw [hostWrite_of_idle (n := .w4) (admitted_ctl s.params hk fun _ => hw) (fun h => hctrl (Item.ctl.inj h))
    (fun h => hstatus (Item.ctl.inj h)) hidle, storeItem_ctl hcmd]

theorem hostWrite_cmd_of_idle {s : State} (hidle : s.isBusy = false) (v : Word) :
    hostWrite 0x010 .w4 v s = acceptCommand v s :=
  hostWrite_of_idle (n := .w4) (item := .ctl .cmd) (admitted_ctl (k := 4) s.params rfl fun _ => rfl) nofun nofun hidle v

theorem hostWrite_cmd_of_busy {s : State} (hbusy : s.isBusy = true) (v : Word) :
    hostWrite 0x010 .w4 v s = setCmdOvr s := by
  have ha : admitted s.params 0x010 4 true = some (.ctl .cmd) := admitted_ctl (k := 4) s.params rfl fun _ => rfl
  simp only [hostWrite, Width.bytes, ha, hbusy, if_true]

/-- A read of a control register answers its word, while idle or if it is readable while busy (20_memory.md R94). -/
theorem hostRead_ctl_replies {s : State} {k : Nat} {reg : CtlReg} (hk : ctlMap[k]? = some reg)
    (hb : s.isBusy = false ∨ Item.busyReadable (.ctl reg) = true) :
    (hostRead (4 * k) .w4 s).replies = ctlWord s reg :: s.replies := by
  rw [hostRead_ctl (admitted_ctl s.params hk nofun) hb (Nat.mul_mod_right 4 k)]

theorem flagAt_zero_eq_and (v : Word) : flagAt (v.getLsbD 0) 0 = v &&& 0x00000001 := by
  refine BitVec.eq_of_getLsbD_eq fun i hi => ?_
  rw [flagAt_getLsbD _ (by decide), BitVec.getLsbD_and, show (0x00000001 : Word) = BitVec.ofNat 32 (2 ^ 0) from rfl,
    BitVec.getLsbD_ofNat, Nat.testBit_two_pow]
  by_cases h : i = 0
  · simp [h]
  · simp [h, Ne.symm h]

/-- The low half of a word, as the 16-bit fields store and show it (10_state.md R36, R37). -/
theorem setWidth_setWidth_eq_and (v : Word) : (v.setWidth 16).setWidth 32 = v &&& 0x0000FFFF := by
  refine BitVec.eq_of_getLsbD_eq fun i hi => ?_
  rw [BitVec.getLsbD_and, show (0x0000FFFF : Word) = BitVec.ofNat 32 (2 ^ 16 - 1) from rfl, BitVec.getLsbD_ofNat,
    Nat.testBit_two_pow_sub_one, BitVec.getLsbD_setWidth, BitVec.getLsbD_setWidth]
  simp [hi, Bool.and_comm]

/-- Settles O17: each write has its equation, and each read answers the register's word in the state it leaves. -/
theorem controlRegistersReadBack : Obligations.ControlRegistersReadBack := by
  intro s v
  have hctrlRead (t : State) : (hostRead 0x008 .w4 t).replies = ctrlWord t :: t.replies :=
    hostRead_ctl_replies (k := 2) (reg := .ctrl) rfl (.inr rfl)
  have hcmdRead (t : State) : (hostRead 0x010 .w4 t).replies = t.cmd :: t.replies :=
    hostRead_ctl_replies (k := 4) (reg := .cmd) rfl (.inr rfl)
  have hcmdBusy (hbusy : s.isBusy = true) :
      (hostRead 0x010 .w4 (hostWrite 0x010 .w4 v s)).replies = s.cmd :: s.replies := by
    rw [hcmdRead, hostWrite_cmd_of_busy hbusy, setCmdOvr_cmd, setCmdOvr_replies]
  have hstore (hidle : s.isBusy = false) :
      hostWrite 0x014 .w4 v s = { s with chunkBits := v.setWidth 16 } ∧
      hostWrite 0x018 .w4 v s = { s with lenIn := v.setWidth 16 } ∧
      hostWrite 0x020 .w4 v s = { s with plo := v } ∧ hostWrite 0x024 .w4 v s = { s with phi := v } ∧
      hostWrite 0x028 .w4 v s = { s with skeyLo := v } ∧ hostWrite 0x02C .w4 v s = { s with skeyHi := v } :=
    ⟨hostWrite_store (k := 5) rfl rfl (by decide) hidle v, hostWrite_store (k := 6) rfl rfl (by decide) hidle v,
      hostWrite_store (k := 8) rfl rfl (by decide) hidle v, hostWrite_store (k := 9) rfl rfl (by decide) hidle v,
      hostWrite_store (k := 10) rfl rfl (by decide) hidle v, hostWrite_store (k := 11) rfl rfl (by decide) hidle v⟩
  refine ⟨fun hclear => ?_, fun hset => ?_, hcmdBusy, fun w n hcmd hphase => ?_, hstore, fun hidle => ?_⟩
  · rw [hctrlRead, hostWrite_ctrl, writeCtrl_of_clear hclear, ← flagAt_zero_eq_and]
    rfl
  · rw [hctrlRead, hostWrite_ctrl, writeCtrl_of_set hset]
    rfl
  · rw [hcmdBusy (by rw [State.isBusy, hphase]; rfl), hcmd w n hphase]
  · obtain ⟨hchunk, hlen, hplo, hphi, hlo, hhi⟩ := hstore hidle
    rw [hcmdRead, hostWrite_cmd_of_idle hidle, hchunk, hlen, hplo, hphi, hlo, hhi, ← setWidth_setWidth_eq_and]
    exact ⟨rfl, hostRead_ctl_replies (k := 5) rfl (.inl hidle), hostRead_ctl_replies (k := 6) rfl (.inl hidle),
      hostRead_ctl_replies (k := 8) rfl (.inl hidle), hostRead_ctl_replies (k := 9) rfl (.inl hidle),
      hostRead_ctl_replies (k := 10) rfl (.inl hidle), hostRead_ctl_replies (k := 11) rfl (.inl hidle)⟩

/-! ## The session key and ECBENC -/

/-- Byte `j` of a big-endian string of eight bytes in the 64-bit number it stands for (43_block_cipher.md R291). -/
theorem blockOfBytes_extractLsb' {bs : List Byte} (hlen : bs.length = 8) {j : Nat} (hj : j < 8) :
    some ((blockOfBytes bs).extractLsb' (56 - 8 * j) 8) = bs[j]? := by
  have hbytes : beBytes 8 (beValue bs) = bs := by rw [← hlen, beBytes_beValue]
  conv_rhs => rw [← hbytes]
  rw [beBytes, List.getElem?_map, List.getElem?_range hj, Option.map_some, show 8 * (8 - 1 - j) = 56 - 8 * j by omega]
  refine congrArg some (BitVec.eq_of_getLsbD_eq fun i hi => ?_)
  rw [blockOfBytes, BitVec.getLsbD_extractLsb', BitVec.getLsbD_ofNat, BitVec.getLsbD_ofNat, Nat.testBit_shiftRight,
    decide_eq_true (show 56 - 8 * j + i < 64 by omega), Bool.true_and]

theorem byteOfWord_eq_extractLsb' (w : Word) (i : Nat) : byteOfWord w i = w.extractLsb' (8 * i) 8 := by
  refine BitVec.eq_of_getLsbD_eq fun k hk => ?_
  rw [byteOfWord, BitVec.getLsbD_setWidth, BitVec.getLsbD_ushiftRight, BitVec.getLsbD_extractLsb']

/-- The bytes of the session key are those of SKEY_LO and then of SKEY_HI (10_state.md R47, 43_block_cipher.md R292). -/
theorem sessionKey_byte (s : State) {j : Nat} (hj : j < 8) :
    (sessionKey s).extractLsb' (56 - 8 * j) 8 =
      if j < 4 then s.skeyLo.extractLsb' (8 * j) 8 else s.skeyHi.extractLsb' (8 * (j - 4)) 8 := by
  have hbyte := blockOfBytes_extractLsb' (bs := leBytes 4 s.skeyLo ++ leBytes 4 s.skeyHi)
    (by rw [List.length_append, leBytes_length, leBytes_length]) hj
  refine Option.some.inj (hbyte.trans ?_)
  split
  · next h =>
    rw [List.getElem?_append_left (by rwa [leBytes_length]), leBytes_getElem? _ _ _ h, byteOfWord_eq_extractLsb']
  · next h =>
    rw [List.getElem?_append_right (by rw [leBytes_length]; omega), leBytes_length,
      leBytes_getElem? _ _ _ (by omega), byteOfWord_eq_extractLsb']

/-- Settles O48: byte by byte of the key, and along the two LENGTH checks of ECBENC. -/
theorem ecbencEncryptsThePaddedInput : Obligations.EcbencEncryptsThePaddedInput := by
  refine ⟨rfl, fun s j => ⟨fun hj => ?_, fun hlo hhi => ?_⟩,
    fun s => ⟨fun hlong => ?_, fun hin hpad => ?_, fun hfits => ?_⟩⟩
  · rw [sessionKey_byte s (by omega), if_pos hj]
  · rw [sessionKey_byte s hhi, if_neg (by omega)]
  · have htoo : inputTooLong s = true := (inputTooLong_iff s).2 hlong
    rw [exec, execEcbenc, if_pos htoo, raiseError_plain rfl]
  · have hnot : ¬ inputTooLong s = true := by rw [inputTooLong_iff]; omega
    have hlong : s.params.bufBytes < (padBytes (inBytes s)).length := by rwa [padBytes_length, inBytes_length]
    rw [exec, execEcbenc, if_neg hnot, if_pos hlong, raiseError_plain rfl, tookInput_eq]
  · have hnot : ¬ inputTooLong s = true := by rw [inputTooLong_iff]; omega
    have hlen : (padBytes (inBytes s)).length = s.lenIn.toNat + (8 - s.lenIn.toNat % 8) := by
      rw [padBytes_length, inBytes_length]
    have hout (f : BitVec 64 → BitVec 64) :
        (ecbMap f (padBytes (inBytes s))).length = s.lenIn.toNat + (8 - s.lenIn.toNat % 8) := by
      rw [ecbMap_length, hlen]
      omega
    rw [exec, execEcbenc, if_neg hnot, if_neg (by rw [hlen]; omega), completeOk_eq, State.withOut, hout, tookInput_eq]

end Sys2Proof.Machine

namespace Sys2Proof.Machine

/-! # State: which accesses the window admits -/

/-- An aligned access below a multiple of four ends below it too. -/
theorem last_lt_of_aligned {n : Width} {o k : Nat} (halign : o % n.bytes = 0) (ho : o < 4 * k) :
    o + n.bytes - 1 < 4 * k := by
  cases n <;> simp only [Width.bytes] at * <;> omega

/-- The control registers that are not read-only (10_state.md R56). -/
theorem ctlMap_writable {k : Nat} {reg : CtlReg} (p : Params) (h : ctlMap[k]? = some reg) :
    Item.writable p (.ctl reg) = true ↔ 4 * k ∉ [0x000, 0x004, 0x01C, 0x030, 0x034] := by
  have hk := ctlMap_getElem?_lt h
  interval_cases k <;> obtain rfl := Option.some.inj h <;> simp [Item.writable]

/-- The big-number registers that are not read-only: all but R and those from KN to KQINV (10_state.md R56). -/
theorem bigMap_writable {k : Nat} {reg : BigReg} (h : bigMap[k]? = some reg) :
    reg.writable = true ↔ ¬ k = 3 ∧ ¬ (7 ≤ k ∧ k < 12) := by
  have hk := bigMap_getElem?_lt h
  interval_cases k <;> obtain rfl := Option.some.inj h <;> decide

theorem Width.eq_w4_iff (n : Width) : n = .w4 ↔ n.bytes = 4 := by cases n <;> decide

theorem admitted_isSome_iff {p : Params} {o n : Nat} {isWrite : Bool} :
    (admitted p o n isWrite).isSome = true ↔
      ∃ item, itemAt p o = some item ∧ (item.wordOnly = true → n = 4) ∧ o % n = 0 ∧
        itemAt p (o + n - 1) = some item ∧ (isWrite = true → item.writable p = true) := by
  rw [Option.isSome_iff_exists]
  exact exists_congr fun _ => admitted_eq_some

/-- Accesses to control registers (20_memory.md R85, R88). -/
theorem admitted_in_ctl {p : Params} {o : Nat} {n : Width} {isWrite : Bool} (ho : o < 0x100) :
    (admitted p o n.bytes isWrite).isSome = true ↔ o % n.bytes = 0 ∧
      n = .w4 ∧ o < 0x038 ∧ (isWrite = true → o ∉ [0x000, 0x004, 0x01C, 0x030, 0x034]) := by
  constructor
  · intro h
    obtain ⟨item, hitem, hword, halign, -, hw⟩ := admitted_isSome_iff.1 h
    rw [itemAt_ctl ho] at hitem
    obtain ⟨reg, hreg, rfl⟩ := Option.map_eq_some_iff.1 hitem
    have hn := hword rfl
    have hk := ctlMap_getElem?_lt hreg
    rw [hn] at halign
    have ho4 : 4 * (o / 4) = o := by omega
    refine ⟨by rwa [hn], (Width.eq_w4_iff n).2 hn, by omega, fun hwrite => ?_⟩
    simpa only [ho4] using (ctlMap_writable p hreg).1 (hw hwrite)
  · rintro ⟨halign, rfl, hlt, hw⟩
    obtain ⟨k, rfl⟩ : ∃ k, o = 4 * k := ⟨o / 4, by rw [Width.bytes] at halign; omega⟩
    have hk : k < ctlMap.length := by
      have : ctlMap.length = 14 := rfl
      omega
    have hreg := List.getElem?_eq_getElem hk
    rw [Width.bytes, admitted_ctl p hreg fun hwrite => (ctlMap_writable p hreg).2 (hw hwrite)]
    rfl

/-- Accesses to big-number slots (10_state.md R40, 20_memory.md R85, R88). -/
theorem admitted_in_big {p : Params} {o : Nat} {n : Width} {isWrite : Bool} (hlo : 0x100 ≤ o) (hhi : o < 0x800) :
    (admitted p o n.bytes isWrite).isSome = true ↔ o % n.bytes = 0 ∧
      n = .w4 ∧ 0x100 ≤ o ∧ o < 0x480 ∧
        (isWrite = true → o % 64 / 4 < p.nbits / 32 → ¬ (0x1C0 ≤ o ∧ o < 0x200) ∧ ¬ (0x2C0 ≤ o ∧ o < 0x400)) := by
  constructor
  · intro h
    obtain ⟨item, hitem, hword, halign, -, hw⟩ := admitted_isSome_iff.1 h
    rw [itemAt_big hlo hhi] at hitem
    obtain ⟨reg, hreg, rfl⟩ := Option.map_eq_some_iff.1 hitem
    have hn := hword rfl
    have hk := bigMap_getElem?_lt hreg
    refine ⟨halign, (Width.eq_w4_iff n).2 hn, hlo, by omega, fun hwrite hj => ?_⟩
    have hwritable : reg.writable = true ∨ p.nbits / 32 ≤ (o - 0x100) % 64 / 4 := by
      simpa only [Item.writable, Bool.or_eq_true, decide_eq_true_eq] using hw hwrite
    have hplace := (bigMap_writable hreg).1 (hwritable.resolve_right (by omega))
    omega
  · rintro ⟨halign, rfl, -, hlt, hw⟩
    rw [Width.bytes] at halign
    obtain ⟨k, j, hj, rfl⟩ : ∃ k j, j < 16 ∧ o = 0x100 + 64 * k + 4 * j :=
      ⟨(o - 0x100) / 64, (o - 0x100) % 64 / 4, by omega, by omega⟩
    have hk : k < bigMap.length := by
      have : bigMap.length = 14 := rfl
      omega
    have hreg := List.getElem?_eq_getElem hk
    rw [Width.bytes, admitted_bigWord hreg (fun hwrite => ?_) hj]
    · rfl
    · rw [bigMap_writable hreg]
      have hplace := hw hwrite
      omega

/-- Accesses to the tables, which the host may only read (20_memory.md R88). -/
theorem admitted_in_tables {p : Params} {o : Nat} {n : Width} {isWrite : Bool} (hlo : 0x800 ≤ o) (hhi : o < 0xA00) :
    (admitted p o n.bytes isWrite).isSome = true ↔ o % n.bytes = 0 ∧
      0x800 ≤ o ∧ o < 0xA00 ∧ isWrite = false := by
  obtain ⟨item, hitem, hword, hreadonly, hlast⟩ : ∃ item, itemAt p o = some item ∧ item.wordOnly = false ∧
      item.writable p = false ∧ (o % n.bytes = 0 → itemAt p (o + n.bytes - 1) = some item) := by
    have hn := Width.one_le_bytes n
    by_cases h : o < 0x900
    · exact ⟨.fwd, itemAt_fwd hlo h, rfl, rfl, fun halign =>
        itemAt_fwd (by omega) (last_lt_of_aligned (k := 0x240) halign h)⟩
    · exact ⟨.inv, itemAt_inv (by omega) hhi, rfl, rfl, fun halign =>
        itemAt_inv (by omega) (last_lt_of_aligned (k := 0x280) halign hhi)⟩
  rw [admitted_isSome_iff]
  constructor
  · rintro ⟨item', hitem', -, halign, -, hw⟩
    obtain rfl := Option.some.inj (hitem.symm.trans hitem')
    refine ⟨halign, hlo, hhi, Bool.eq_false_iff.2 fun hwrite => ?_⟩
    exact absurd (hreadonly.symm.trans (hw hwrite)) Bool.false_ne_true
  · rintro ⟨halign, -, -, rfl⟩
    exact ⟨item, hitem, fun h => absurd (hword.symm.trans h) Bool.false_ne_true, halign, hlast halign, nofun⟩

/-- The offsets of OUT, which lie above those of IN. -/
theorem itemAt_outBuf {p : Params} (hp : p.wellFormed = true) {o : Nat} (hlo : 0xA00 ≤ o) :
    itemAt p o = some .outBuf ↔ outBase ≤ o ∧ o < outBase + p.bufBytes := by
  obtain ⟨-, -, hin, hout⟩ := memory_places
  obtain ⟨-, -, -, -, -, hbuf⟩ := params_bounds hp
  rw [itemAt_buffers hlo]
  constructor
  · intro h
    split at h
    · cases h
    · split at h
      · assumption
      · cases h
  · intro h
    rw [if_neg (by omega), if_pos h]

/-- Accesses to the buffers: IN in both directions, OUT for reading (20_memory.md R85, R88). -/
theorem admitted_in_buffers {p : Params} (hp : p.wellFormed = true) {o : Nat} {n : Width} {isWrite : Bool}
    (hlo : 0xA00 ≤ o) :
    (admitted p o n.bytes isWrite).isSome = true ↔ o % n.bytes = 0 ∧
      ((0x4000 ≤ o ∧ o + n.bytes ≤ 0x4000 + p.bufBytes) ∨
        (0x8000 ≤ o ∧ o + n.bytes ≤ 0x8000 + p.bufBytes ∧ isWrite = false)) := by
  obtain ⟨-, -, hin, hout⟩ := memory_places
  have hn := Width.one_le_bytes n
  rw [admitted_isSome_iff]
  constructor
  · rintro ⟨item, hitem, -, halign, hlast, hw⟩
    refine ⟨halign, ?_⟩
    have hbuffers := hitem
    rw [itemAt_buffers hlo] at hbuffers
    split at hbuffers
    · obtain rfl := Option.some.inj hbuffers
      rw [itemAt_inBuf] at hitem hlast
      omega
    split at hbuffers
    · obtain rfl := Option.some.inj hbuffers
      rw [itemAt_outBuf hp (by omega)] at hitem hlast
      refine .inr ⟨by omega, by omega, Bool.eq_false_iff.2 fun hwrite => ?_⟩
      exact absurd (hw hwrite) Bool.false_ne_true
    · cases hbuffers
  · rintro ⟨halign, ⟨h1, h2⟩ | ⟨h1, h2, rfl⟩⟩
    · exact ⟨.inBuf, itemAt_inBuf.2 (by omega), nofun, halign, itemAt_inBuf.2 (by omega), fun _ => rfl⟩
    · exact ⟨.outBuf, (itemAt_outBuf hp (by omega)).2 (by omega), nofun, halign,
        (itemAt_outBuf hp (by omega)).2 (by omega), nofun⟩

/-- Settles O9: the offset lies in one of four parts of the window, and each part has its own condition. -/
theorem admittedAccesses : Obligations.AdmittedAccesses := by
  intro p o n isWrite hp
  rcases (by omega : o < 0x100 ∨ (0x100 ≤ o ∧ o < 0x800) ∨ (0x800 ≤ o ∧ o < 0xA00) ∨ 0xA00 ≤ o) with
    h | ⟨hlo, hhi⟩ | ⟨hlo, hhi⟩ | h
  · rw [admitted_in_ctl h]
    refine and_congr_right fun _ => ⟨.inl, ?_⟩
    rintro (hpart | hpart | hpart | hpart | hpart)
    case inl => exact hpart
    all_goals omega
  · rw [admitted_in_big hlo hhi]
    refine and_congr_right fun _ => ⟨fun hpart => .inr (.inl hpart), ?_⟩
    rintro (hpart | hpart | hpart | hpart | hpart)
    case inr.inl => exact hpart
    all_goals omega
  · rw [admitted_in_tables hlo hhi]
    refine and_congr_right fun _ => ⟨fun hpart => .inr (.inr (.inl hpart)), ?_⟩
    rintro (hpart | hpart | hpart | hpart | hpart)
    case inr.inr.inl => exact hpart
    all_goals omega
  · rw [admitted_in_buffers hp h]
    refine and_congr_right fun _ => ⟨fun hpart => .inr (.inr (.inr hpart)), ?_⟩
    rintro (hpart | hpart | hpart | hpart)
    case inr.inr.inr => exact hpart
    all_goals omega

end Sys2Proof.Machine

namespace Sys2Proof.Machine

/-! # The window: what each access does, and which accesses a running command shuts out -/

/-! ## Accesses that are not admitted (20_memory.md R88) -/

theorem hostRead_of_unadmitted {s : State} {o : Nat} {n : Width} (ha : admitted s.params o n.bytes false = none) :
    hostRead o n s = (setAccErr s).reply 0 := by
  simp only [hostRead, ha]

theorem hostWrite_of_unadmitted {s : State} {o : Nat} {n : Width} (ha : admitted s.params o n.bytes true = none)
    (v : Word) : hostWrite o n v s = setAccErr s := by
  simp only [hostWrite, ha]

/-- Settles O10: the port answers 0 to the read, and either access does no more than `setAccErr`. -/
theorem unadmittedAccessSetsAccErr : Obligations.UnadmittedAccessSetsAccErr :=
  fun _ _ _ v => ⟨hostRead_of_unadmitted, fun ha => hostWrite_of_unadmitted ha v⟩

/-! ## The offset of a control register (10_state.md R56) -/

/-- Offsets from 0x100 up belong to no control register. -/
theorem itemAt_ne_ctl {p : Params} {o : Nat} (ho : 0x100 ≤ o) (reg : CtlReg) : itemAt p o ≠ some (.ctl reg) := by
  intro h
  rcases (by omega : o < 0x800 ∨ (0x800 ≤ o ∧ o < 0x900) ∨ (0x900 ≤ o ∧ o < 0xA00) ∨ 0xA00 ≤ o) with
    hbig | ⟨hlo, hhi⟩ | ⟨hlo, hhi⟩ | hbuf
  · rw [itemAt_big ho hbig] at h
    obtain ⟨_, -, hitem⟩ := Option.map_eq_some_iff.1 h
    cases hitem
  · rw [itemAt_fwd hlo hhi] at h
    cases h
  · rw [itemAt_inv hlo hhi] at h
    cases h
  · rw [itemAt_buffers hbuf] at h
    split at h
    · cases h
    split at h <;> cases h

/-- An access that is admitted to a control register is one of its whole word. -/
theorem admitted_ctl_offset {p : Params} {o : Nat} {n : Width} {isWrite : Bool} {reg : CtlReg}
    (ha : admitted p o n.bytes isWrite = some (.ctl reg)) : n = .w4 ∧ ∃ k, ctlMap[k]? = some reg ∧ o = 4 * k := by
  obtain ⟨hitem, hword, halign, -, -⟩ := admitted_eq_some.1 ha
  have hn := hword rfl
  rw [hn] at halign
  have ho : o < 0x100 := by
    by_contra h
    exact itemAt_ne_ctl (by omega) reg hitem
  rw [itemAt_ctl ho] at hitem
  obtain ⟨reg', hk, hreg⟩ := Option.map_eq_some_iff.1 hitem
  obtain rfl := Item.ctl.inj hreg
  exact ⟨(Width.eq_w4_iff n).2 hn, o / 4, hk, by omega⟩

/-- No control register has two places. -/
theorem ctlMap_place_unique {k l : Nat} {reg : CtlReg} (hk : ctlMap[k]? = some reg) (hl : ctlMap[l]? = some reg) :
    k = l :=
  (List.getElem?_inj (ctlMap_getElem?_lt hk) (by decide : ctlMap.Nodup)).1 (hk.trans hl.symm)

/-- An access that is admitted to the control register of a known place is at its offset. -/
theorem admitted_ctl_place {p : Params} {o k : Nat} {n : Width} {isWrite : Bool} {reg : CtlReg}
    (hk : ctlMap[k]? = some reg) (ha : admitted p o n.bytes isWrite = some (.ctl reg)) : n = .w4 ∧ o = 4 * k := by
  obtain ⟨hn, l, hl, ho⟩ := admitted_ctl_offset ha
  exact ⟨hn, by rw [ho, ctlMap_place_unique hk hl]⟩

/-! ## Writes while a command runs (20_memory.md R92, R93) -/

/-- A write of CMD while busy is dropped with CMD_OVR. -/
theorem hostWrite_of_busy_cmd {s : State} {o : Nat} {n : Width}
    (ha : admitted s.params o n.bytes true = some (.ctl .cmd)) (hbusy : s.isBusy = true) (v : Word) :
    hostWrite o n v s = setCmdOvr s := by
  obtain ⟨rfl, rfl⟩ := admitted_ctl_place (k := 4) rfl ha
  exact hostWrite_cmd_of_busy hbusy v

/-- Settles O12: an admitted write belongs to CTRL, STATUS or CMD only at the offset of that register. -/
theorem busyWritesAreDropped : Obligations.BusyWritesAreDropped := by
  refine ⟨fun s o n v hbusy hsome hoctrl hostatus => ?_, fun s o n v item hbusy ha hctrl hstatus =>
    ⟨fun hcmd => hostWrite_of_busy_cmd (hcmd ▸ ha) hbusy v,
      fun hcmd => hostWrite_of_busy ha hctrl hstatus hcmd hbusy v⟩⟩
  obtain ⟨item, ha⟩ := Option.isSome_iff_exists.1 hsome
  have offset_of_item {k : Nat} {reg : CtlReg} (hk : ctlMap[k]? = some reg) (hitem : item = .ctl reg) : o = 4 * k :=
    (admitted_ctl_place hk (hitem ▸ ha)).2
  split
  · next ho =>
    subst ho
    have hcmd : item = .ctl .cmd := (Option.some.inj (admitted_eq_some.1 ha).1).symm
    exact hostWrite_of_busy_cmd (hcmd ▸ ha) hbusy v
  · next ho =>
    exact hostWrite_of_busy ha (fun h => hoctrl (offset_of_item (k := 2) rfl h))
      (fun h => hostatus (offset_of_item (k := 3) rfl h)) (fun h => ho (offset_of_item (k := 4) rfl h)) hbusy v

/-- The second state differs from the first in nothing that a command reads: only in IRQ_EN, the flags DONE, CMD_OVR,
ACC_ERR and BUSY_WR, the draws and the replies (20_memory.md R100). -/
def KeepsCommandInputs (s t : State) : Prop :=
  t = { s with
    irqEn := t.irqEn
    status := { s.status with
      done := t.status.done, cmdOvr := t.status.cmdOvr, accErr := t.status.accErr, busyWr := t.status.busyWr }
    draws := t.draws
    replies := t.replies }

theorem hostRead_keepsCommandInputs (o : Nat) (n : Width) (s : State) : KeepsCommandInputs s (hostRead o n s) := by
  obtain ⟨k, v, acc, h⟩ := hostRead_cases o n s
  rw [h]
  rfl

/-- While a command runs, no write reaches its inputs but one of CTRL that resets the engine. -/
theorem hostWrite_keepsCommandInputs {s : State} {o : Nat} {n : Width} {v : Word} (hbusy : s.isBusy = true)
    (hreset : o = 0x008 → n = .w4 → v.getLsbD 1 = false) : KeepsCommandInputs s (hostWrite o n v s) := by
  cases ha : admitted s.params o n.bytes true with
  | none =>
    rw [hostWrite_of_unadmitted ha]
    rfl
  | some item =>
    by_cases hctrl : item = .ctl .ctrl
    · subst hctrl
      obtain ⟨rfl, rfl⟩ := admitted_ctl_place (k := 2) rfl ha
      rw [hostWrite_ctrl, writeCtrl_of_clear (hreset rfl rfl)]
      rfl
    by_cases hstatus : item = .ctl .status
    · subst hstatus
      obtain ⟨rfl, rfl⟩ := admitted_ctl_place (k := 3) rfl ha
      rw [hostWrite_status]
      rfl
    by_cases hcmd : item = .ctl .cmd
    · subst hcmd
      rw [hostWrite_of_busy_cmd ha hbusy]
      rfl
    · rw [hostWrite_of_busy ha hctrl hstatus hcmd hbusy]
      rfl

/-- Settles O13: reads only answer, and writes that do not reset the engine reach no input of the command. -/
theorem busyArrivalsKeepTheInputs : Obligations.BusyArrivalsKeepTheInputs := by
  intro s t ev hbusy hreset h
  cases ev with
  | reset => cases hreset
  | read addr n =>
    by_cases hin : s.params.inWindow addr = true
    · rw [handleEvent_read_inside hin] at h
      obtain rfl := Host.Outcome.next.inj h
      exact hostRead_keepsCommandInputs _ n s
    · rw [handleEvent_read_outside hin] at h
      cases h
  | write addr n v =>
    by_cases hin : s.params.inWindow addr = true
    · rw [handleEvent_write_inside hin] at h
      obtain rfl := Host.Outcome.next.inj h
      refine hostWrite_keepsCommandInputs hbusy fun ho hn => ?_
      have haddr : addr = s.params.base + 0x008 := by
        have := (inWindow_iff s.params addr).1 hin
        omega
      subst hn
      simpa [resets, haddr, Width.bytes] using hreset
    · rw [handleEvent_write_outside hin] at h
      cases h

/-! ## Runs without a stop (20_memory.md R88, 60_exceptions.md R340) -/

theorem completeWord_next (w : Word) (s : State) : ∃ t, completeWord w s = .next t := by
  unfold completeWord
  split
  · next i _ =>
    rcases exec_cases i s with ⟨n, code, -, h⟩ | ⟨u, -, h⟩
    · exact ⟨_, h⟩
    · exact ⟨_, h⟩
  · exact ⟨_, rfl⟩

/-- An arrival is handled unless its address misses the window. -/
theorem handleEvent_next {ev : Event} {s : State} (h : ev.wellFormed s.params = true) :
    ∃ t, handleEvent ev s = .next t := by
  cases ev with
  | read addr n => exact ⟨_, handleEvent_read_inside h n⟩
  | write addr n v => exact ⟨_, handleEvent_write_inside (Bool.and_eq_true_iff.1 h).1 n v⟩
  | reset => exact ⟨_, rfl⟩

theorem takeInput_next {s : State} (h : PortInv s) : ∃ t, takeInput s = .next t := by
  cases hi : s.inputs with
  | nil => exact ⟨s, takeInput_of_nil hi⟩
  | cons ev rest =>
    rw [takeInput_of_cons hi]
    exact handleEvent_next (h ev (by rw [hi]; exact List.mem_cons_self))

theorem step_next {s : State} (h : PortInv s) : ∃ t, step s = .next t := by
  cases hp : s.phase with
  | idle =>
    rw [step_of_idle hp]
    exact takeInput_next h
  | busy w wait =>
    cases wait with
    | zero =>
      obtain ⟨t, ht⟩ := completeWord_next w s
      exact ⟨t, by simp only [step, advance, hp, ht]⟩
    | succ wait =>
      rw [step_of_waiting hp]
      exact takeInput_next h

/-- What waits at the port only gets less, and what it is held to stays the same. -/
theorem step_keeps_portInv {s t : State} (h : PortInv s) (hstep : step s = .next t) : PortInv t := by
  obtain ⟨hparams, -, hinputs, -⟩ := stepKeepsParamsAndOrder s t hstep
  intro ev hev
  rw [hparams]
  rcases hinputs with hinputs | ⟨first, hinputs⟩
  · exact h ev (by rwa [← hinputs])
  · exact h ev (by rw [hinputs]; exact List.mem_cons_of_mem first hev)

theorem coreRun_succ_of_next {M : Host.Core} {s t : M.State} (h : M.step s = .next t) (n : Nat) :
    M.run (n + 1) s = M.run n t := by
  rw [Host.Core.run, h]

theorem run_succ_of_next {s t : State} (h : step s = .next t) (n : Nat) : run (n + 1) s = run n t :=
  coreRun_succ_of_next (M := core) h n

/-- Settles O8, by induction on the number of steps: each answers a next state, in which the port is as good. -/
theorem wellFormedArrivalsNeverStop : Obligations.WellFormedArrivalsNeverStop := by
  intro s n
  induction n generalizing s with
  | zero => exact fun h => ⟨s, rfl, h, rfl⟩
  | succ n ih =>
    intro h
    obtain ⟨u, hstep⟩ := step_next h
    obtain ⟨t, hrun, hport, hparams⟩ := ih u (step_keeps_portInv h hstep)
    exact ⟨t, (run_succ_of_next hstep n).trans hrun, hport,
      hparams.trans (stepKeepsParamsAndOrder s u hstep).1⟩

/-! ## What a read answers (20_memory.md R81, R89, R94) -/

/-- The bytes of an item that is read, none where a byte is UNSPEC. -/
def itemCells (s : State) (item : Item) (o : Nat) (n : Width) : List (Option Byte) :=
  (List.range n.bytes).map fun i => itemByte s item (o + i)

/-- A read of an item that answers now: its bytes, and a draw for each UNSPEC one. -/
theorem hostRead_of_readable {s : State} {o : Nat} {n : Width} {item : Item}
    (ha : admitted s.params o n.bytes false = some item) (hb : s.isBusy = false ∨ item.busyReadable = true) :
    hostRead o n s = (s.drawn (undefinedCount (itemCells s item o n))).reply
      (BitVec.ofNat 32 (leValue (settle s.draws (itemCells s item o n)))) := by
  have hb : (s.isBusy && !item.busyReadable) = false := by rcases hb with h | h <;> simp [h]
  simp only [hostRead, ha, readCells, hb, Bool.false_eq_true, if_false]
  rfl

/-- A read of an item that a running command hides: a draw for each byte. -/
theorem hostRead_of_hidden {s : State} {o : Nat} {n : Width} {item : Item}
    (ha : admitted s.params o n.bytes false = some item) (hbusy : s.isBusy = true)
    (hhidden : item.busyReadable = false) :
    hostRead o n s = (s.drawn n.bytes).reply
      (BitVec.ofNat 32 (leValue ((List.range n.bytes).map fun i => drawByte (s.draws + i)))) := by
  simp only [hostRead, ha, readCells, hbusy, hhidden, Bool.not_false, Bool.and_self, if_true,
    undefinedCount_replicate_none, settle_replicate_none]

/-- A read of bytes that are all defined takes no draw. -/
theorem hostRead_of_defined {s : State} {o : Nat} {n : Width} {item : Item} {bs : List Byte}
    (ha : admitted s.params o n.bytes false = some item) (hb : s.isBusy = false ∨ item.busyReadable = true)
    (hcells : itemCells s item o n = bs.map some) : hostRead o n s = s.reply (BitVec.ofNat 32 (leValue bs)) := by
  rw [hostRead_of_readable ha hb, hcells, undefinedCount_map_some, settle_map_some]
  rfl

/-- A read of a control register by its place. -/
theorem hostRead_ctl_place {s : State} {k : Nat} {reg : CtlReg} (hk : ctlMap[k]? = some reg)
    (hb : s.isBusy = false ∨ Item.busyReadable (.ctl reg) = true) :
    hostRead (4 * k) .w4 s = s.reply (ctlWord s reg) :=
  hostRead_ctl (admitted_ctl s.params hk nofun) hb (Nat.mul_mod_right 4 k)

/-- A read of a word of a big-number slot by its place, while idle. -/
theorem hostRead_bigWord {s : State} {k j : Nat} {reg : BigReg} (hk : bigMap[k]? = some reg) (hj : j < 16)
    (hidle : s.isBusy = false) :
    hostRead (0x100 + 64 * k + 4 * j) .w4 s = s.reply (slotWord s.params (s.bigReg reg) j) :=
  hostRead_word (admitted_bigWord hk nofun hj) (.inl hidle) fun i hi => by
    rw [itemByte, show (0x100 + 64 * k + 4 * j + i) % 4 = i by omega]

/-- The control registers that are readable while a command runs, by offset (20_memory.md R94). -/
theorem ctlMap_busyReadable {k : Nat} {reg : CtlReg} (h : ctlMap[k]? = some reg) :
    Item.busyReadable (.ctl reg) = true ↔ 4 * k ∈ [0x000, 0x004, 0x008, 0x00C, 0x010, 0x030, 0x034] := by
  have hk := ctlMap_getElem?_lt h
  interval_cases k <;> obtain rfl := Option.some.inj h <;> simp [Item.busyReadable]

/-- At every other offset the item is hidden. -/
theorem busyReadable_of_offset {p : Params} {o : Nat} {n : Width} {item : Item}
    (ha : admitted p o n.bytes false = some item)
    (ho : o ∉ [0x000, 0x004, 0x008, 0x00C, 0x010, 0x030, 0x034]) : item.busyReadable = false := by
  cases item with
  | ctl reg =>
    obtain ⟨-, k, hk, rfl⟩ := admitted_ctl_offset ha
    exact Bool.eq_false_iff.2 fun h => ho ((ctlMap_busyReadable hk).1 h)
  | bigWord | fwd | inv | inBuf | outBuf => rfl

/-! ## Accesses of the tables and the buffers (20_memory.md R85, R86) -/

/-- An aligned read of the tables is admitted to one of the two. -/
theorem admitted_table {o : Nat} {n : Width} (p : Params) (halign : o % n.bytes = 0) (hlo : 0x800 ≤ o)
    (hhi : o < 0xA00) : admitted p o n.bytes false = some .fwd ∨ admitted p o n.bytes false = some .inv := by
  obtain ⟨item, ha⟩ := Option.isSome_iff_exists.1 ((admitted_in_tables (p := p) hlo hhi).2 ⟨halign, hlo, hhi, rfl⟩)
  have hitem := (admitted_eq_some.1 ha).1
  by_cases h : o < 0x900
  · rw [itemAt_fwd hlo h] at hitem
    exact .inl (ha.trans hitem.symm)
  · rw [itemAt_inv (by omega) hhi] at hitem
    exact .inr (ha.trans hitem.symm)

theorem admitted_inBuf {p : Params} {o : Nat} {n : Width} (halign : o % n.bytes = 0) (hlo : 0x4000 ≤ o)
    (hhi : o + n.bytes ≤ 0x4000 + p.bufBytes) (isWrite : Bool) : admitted p o n.bytes isWrite = some .inBuf := by
  obtain ⟨-, -, hin, -⟩ := memory_places
  have hn := Width.one_le_bytes n
  exact admitted_eq_some.2
    ⟨itemAt_inBuf.2 (by omega), nofun, halign, itemAt_inBuf.2 (by omega), fun _ => rfl⟩

theorem admitted_outBuf {p : Params} (hp : p.wellFormed = true) {o : Nat} {n : Width} (halign : o % n.bytes = 0)
    (hlo : 0x8000 ≤ o) (hhi : o + n.bytes ≤ 0x8000 + p.bufBytes) : admitted p o n.bytes false = some .outBuf := by
  obtain ⟨-, -, -, hout⟩ := memory_places
  have hn := Width.one_le_bytes n
  exact admitted_eq_some.2
    ⟨(itemAt_outBuf hp (by omega)).2 (by omega), nofun, halign, (itemAt_outBuf hp (by omega)).2 (by omega), nofun⟩

/-- A table byte is UNSPEC while TABLE_VALID = 0 (20_memory.md R89). -/
theorem itemByte_table {s : State} {item : Item} (hitem : item = .fwd ∨ item = .inv) (o : Nat) :
    itemByte s item o = if s.status.tableValid = false then none else s.mem.read? o := by
  rcases hitem with rfl | rfl <;> cases h : s.status.tableValid <;> simp [itemByte, h]

/-- The bytes that an aligned read of a table or a buffer sees, by offset. -/
theorem memory_read_cells {s : State} {o : Nat} {n : Width} (hp : s.params.wellFormed = true)
    (halign : o % n.bytes = 0)
    (hplace : (0x800 ≤ o ∧ o < 0xA00) ∨ (0x4000 ≤ o ∧ o + n.bytes ≤ 0x4000 + s.params.bufBytes) ∨
      (0x8000 ≤ o ∧ o + n.bytes ≤ 0x8000 + s.params.bufBytes)) :
    ∃ item, admitted s.params o n.bytes false = some item ∧
      itemCells s item o n = (List.range n.bytes).map fun i =>
        if o < 0xA00 ∧ s.status.tableValid = false then none else s.mem.read? (o + i) := by
  rcases hplace with ⟨hlo, hhi⟩ | ⟨hlo, hhi⟩ | ⟨hlo, hhi⟩
  · obtain ⟨item, hitem, ha⟩ : ∃ item, (item = .fwd ∨ item = .inv) ∧ admitted s.params o n.bytes false = some item := by
      rcases admitted_table s.params halign hlo hhi with ha | ha
      · exact ⟨.fwd, .inl rfl, ha⟩
      · exact ⟨.inv, .inr rfl, ha⟩
    refine ⟨item, ha, List.map_congr_left fun i _ => ?_⟩
    simp only [itemByte_table hitem, hhi, true_and]
  · refine ⟨.inBuf, admitted_inBuf halign hlo hhi false, List.map_congr_left fun i _ => ?_⟩
    rw [if_neg (by omega)]
    rfl
  · refine ⟨.outBuf, admitted_outBuf hp halign hlo hhi, List.map_congr_left fun i _ => ?_⟩
    rw [if_neg (by omega)]
    rfl

/-- A statement about the pairs of a list, by its pairs. -/
theorem forall_pair_mem {α β : Type} {l : List (α × β)} {P : α → β → Prop} (h : ∀ x ∈ l, P x.1 x.2) :
    ∀ a b, (a, b) ∈ l → P a b :=
  fun a b => h (a, b)

/-- Settles O11: an admitted read answers or is hidden as a whole, and each offset belongs to a register, a word of a
slot, a table or a buffer that the map of the window names. -/
theorem readsOnlyAnswer : Obligations.ReadsOnlyAnswer := by
  refine ⟨fun s o n item ha => ⟨hostRead_of_readable ha, hostRead_of_hidden ha⟩, fun s => ?_,
    fun s o n hbusy hsome ho => ?_, fun s o w hidle => ?_, fun s o j x hidle hj => ?_,
    fun s o n hidle hp halign hplace => ?_⟩
  · refine forall_pair_mem ?_
    have hread (k : Nat) (reg : CtlReg) (hk : ctlMap[k]? = some reg) (hb : Item.busyReadable (.ctl reg) = true) :
        hostRead (4 * k) .w4 s = s.reply (ctlWord s reg) := hostRead_ctl_place hk (.inr hb)
    simp only [List.forall_mem_cons]
    exact ⟨hread 0 .id rfl rfl, hread 1 .version rfl rfl, hread 2 .ctrl rfl rfl, hread 3 .status rfl rfl,
      hread 4 .cmd rfl rfl, hread 12 .paramNbits rfl rfl, hread 13 .paramBuf rfl rfl, List.forall_mem_nil _⟩
  · obtain ⟨item, ha⟩ := Option.isSome_iff_exists.1 hsome
    exact hostRead_of_hidden ha hbusy (busyReadable_of_offset ha ho)
  · revert o w
    refine forall_pair_mem ?_
    have hread (k : Nat) (reg : CtlReg) (hk : ctlMap[k]? = some reg) :
        hostRead (4 * k) .w4 s = s.reply (ctlWord s reg) := hostRead_ctl_place hk (.inl hidle)
    simp only [List.forall_mem_cons]
    exact ⟨hread 5 .chunkBits rfl, hread 6 .lenIn rfl, hread 7 .lenOut rfl, hread 8 .plo rfl, hread 9 .phi rfl,
      hread 10 .skeyLo rfl, hread 11 .skeyHi rfl, List.forall_mem_nil _⟩
  · revert o x
    refine forall_pair_mem ?_
    have hread (k : Nat) (reg : BigReg) (hk : bigMap[k]? = some reg) :
        hostRead (0x100 + 64 * k + 4 * j) .w4 s = s.reply (slotWord s.params (s.bigReg reg) j) :=
      hostRead_bigWord hk hj hidle
    simp only [List.forall_mem_cons]
    exact ⟨hread 0 .a rfl, hread 1 .e rfl, hread 2 .m rfl, hread 3 .r rfl, hread 4 .kp rfl,
      hread 5 .kq rfl, hread 6 .ke rfl, hread 7 .kn rfl, hread 8 .kd rfl, hread 9 .kdp rfl,
      hread 10 .kdq rfl, hread 11 .kqinv rfl, hread 12 .pe rfl, hread 13 .pn rfl, List.forall_mem_nil _⟩
  · obtain ⟨item, ha, hcells⟩ := memory_read_cells hp halign hplace
    rw [hostRead_of_readable ha (.inl hidle), hcells]
    rfl

/-! ## Writes of IN (20_memory.md R82, R83, R91) -/

theorem hostWrite_inBuf {s : State} {o : Nat} {n : Width} (hidle : s.isBusy = false) (halign : o % n.bytes = 0)
    (hlo : 0x4000 ≤ o) (hhi : o + n.bytes ≤ 0x4000 + s.params.bufBytes) (v : Word) :
    hostWrite o n v s = { s with mem := s.mem.writeMany o (leBytes n.bytes v) } :=
  hostWrite_of_idle (admitted_inBuf halign hlo hhi true) nofun nofun hidle v

theorem byteOfWord_eq_ofNat (w : Word) (i : Nat) : byteOfWord w i = BitVec.ofNat 8 (w.toNat / 256 ^ i) :=
  BitVec.eq_of_toNat_eq (byteOfWord_toNat w i)

/-- A read of IN, while idle, of bytes that memory holds. -/
theorem hostRead_inBuf {s : State} {o : Nat} {n : Width} {bs : List Byte} (hidle : s.isBusy = false)
    (halign : o % n.bytes = 0) (hlo : 0x4000 ≤ o) (hhi : o + n.bytes ≤ 0x4000 + s.params.bufBytes)
    (hlen : bs.length = n.bytes) (hbytes : holdsBytes s.mem o bs) :
    hostRead o n s = s.reply (BitVec.ofNat 32 (leValue bs)) := by
  refine hostRead_of_defined (admitted_inBuf halign hlo hhi false) (.inl hidle) ?_
  rw [← readMany_of_holds hbytes, hlen]
  rfl

/-- Settles O20: IN holds the bytes of the value after the write, so a read of the same bytes answers them in the same
order, and a read of one answers that one. -/
theorem bufferAccessesAreLittleEndian : Obligations.BufferAccessesAreLittleEndian := by
  intro s o i n v hidle _ halign hlo hhi hi
  rw [hostWrite_inBuf hidle halign hlo hhi v]
  intro t
  have hlen := leBytes_length n.bytes v
  have hall : holdsBytes t.mem o (leBytes n.bytes v) := holdsBytes_writeMany s.mem o _
  have hbyte : t.mem.read? (o + i) = some (byteOfWord v i) := by
    rw [hall i (by rwa [hlen]), leBytes_getElem? _ _ _ hi]
  have hone : holdsBytes t.mem (o + i) [byteOfWord v i] := by
    intro j hj
    obtain rfl : j = 0 := Nat.lt_one_iff.1 hj
    exact hbyte
  refine ⟨rfl, fun a ha => read?_writeMany_out _ _ _ _ (by rwa [hlen]), ?_, ?_, ?_⟩
  · rw [hbyte, byteOfWord_eq_ofNat]
  · rw [hostRead_inBuf (s := t) hidle halign hlo hhi hlen hall, leValue_leBytes]
    rfl
  · have hend : o + i + Width.w1.bytes ≤ 0x4000 + s.params.bufBytes := by
      rw [Width.bytes]
      omega
    rw [hostRead_inBuf (s := t) hidle (Nat.mod_one _) (by omega) hend rfl hone, leValue, leValue, byteOfWord_toNat]
    rfl

end Sys2Proof.Machine

namespace Sys2Proof.Machine

/-! # The command word (30_encoding.md), and ENCODE's success -/

/-! ## The fields of a command word (30_encoding.md R120 to R123) -/

@[simp] theorem kselEncode_kselDecode (k : BitVec 2) : kselEncode (kselDecode k) = k := by
  revert k
  decide

/-- A word is the word of a command when its three fields are that command's. -/
theorem eq_encode_of_fields {w : Word} {i : Instr} (hrsv : rsvOf w = 0) (hksel : kselOf w = kselFieldEncode i)
    (hopc : opcOf w = opcEncode i) : w = encode i := by
  rw [← word_fields w, hrsv, hksel, hopc, encode]

/-- A command that needs KSEL = 0 is read from its own OPC only. -/
theorem plainOpcode_eq_some {opc : BitVec 8} {i : Instr} (h : plainOpcode opc = some i) :
    opc = opcEncode i ∧ kselFieldEncode i = 0 := by
  unfold plainOpcode at h
  split at h <;> cases h
  all_goals exact ⟨BitVec.eq_of_toNat_eq ‹_›, rfl⟩

/-- The OPC values of the commands that need KSEL = 0 (30_encoding.md R125). -/
theorem exists_plainOpcode_iff (opc : BitVec 8) :
    (∃ i, plainOpcode opc = some i) ↔ (0x01 ≤ opc ∧ opc ≤ 0x04) ∨ (0x07 ≤ opc ∧ opc ≤ 0x0C) := by
  simp only [BitVec.ofNat_eq_ofNat, BitVec.le_def, BitVec.toNat_ofNat]
  unfold plainOpcode
  split
  case h_11 => -- the OPC of no plain command
    simp only [imp_false, reduceCtorEq, exists_false, false_iff] at *
    omega
  all_goals next hopc => simp [hopc]

/-! ## What the decoder accepts (30_encoding.md R125) -/

/-- Everything the decoder accepts: RSV is 0, and the word is an ENCODE or a DECODE with any key select, or one of the
other commands with KSEL = 0. -/
theorem decodeWord_eq_ok_iff {w : Word} {i : Instr} : decodeWord w = .ok i ↔
    rsvOf w = 0 ∧ ((opcOf w = 0x05 ∧ i = .encode (kselDecode (kselOf w))) ∨
      (opcOf w = 0x06 ∧ i = .decode (kselDecode (kselOf w))) ∨ (plainOpcode (opcOf w) = some i ∧ kselOf w = 0)) := by
  have h5 : plainOpcode 0x05#8 = none := rfl
  have h6 : plainOpcode 0x06#8 = none := rfl
  simp only [decodeWord, BitVec.ofNat_eq_ofNat]
  split
  · next hrsv => simp [hrsv]
  next hrsv =>
  have hrsv : rsvOf w = 0#22 := not_not.1 hrsv
  split
  · next hencode => simp [hrsv, hencode, h5, eq_comm]
  split
  · next hdecode => simp [hrsv, hdecode, h6, eq_comm]
  next hencode hdecode =>
  split
  · next hnone => simp [hencode, hdecode, hnone]
  next j hplain =>
  split
  · next hksel => simp [hrsv, hencode, hdecode, hplain, hksel]
  · next hksel => simp [hencode, hdecode, hksel]

theorem eq_encode_of_decodeWord {w : Word} {i : Instr} (h : decodeWord w = .ok i) : w = encode i := by
  obtain ⟨hrsv, ⟨hopc, rfl⟩ | ⟨hopc, rfl⟩ | ⟨hplain, hksel⟩⟩ := decodeWord_eq_ok_iff.1 h
  · exact eq_encode_of_fields hrsv (kselEncode_kselDecode _).symm hopc
  · exact eq_encode_of_fields hrsv (kselEncode_kselDecode _).symm hopc
  · obtain ⟨hopc, hfield⟩ := plainOpcode_eq_some hplain
    exact eq_encode_of_fields hrsv (hksel.trans hfield.symm) hopc

/-- The law of the twelve commands, `Laws.DecodeEncode.Statement`, for all of them at once. -/
theorem decodeWord_encode (i : Instr) : decodeWord (encode i) = .ok i := by
  suffices h : Laws.DecodeEncode.Statement i from h.2
  cases i with
  | powmod => exact Laws.DecodeEncode.powmod
  | invert => exact Laws.DecodeEncode.invert
  | keygen => exact Laws.DecodeEncode.keygen
  | keyset => exact Laws.DecodeEncode.keyset
  | encode ksel => exact Laws.DecodeEncode.encode ksel
  | decode ksel => exact Laws.DecodeEncode.decode ksel
  | tderive => exact Laws.DecodeEncode.tderive
  | subenc => exact Laws.DecodeEncode.subenc
  | subdec => exact Laws.DecodeEncode.subdec
  | ecbenc => exact Laws.DecodeEncode.ecbenc
  | ecbdec => exact Laws.DecodeEncode.ecbdec
  | xfer => exact Laws.DecodeEncode.xfer

/-- Settles O1: the fields of an accepted word are those of its command, and they make up the word; the other way it is
the commands' own law. -/
theorem decodeInvertsEncode : Obligations.DecodeInvertsEncode := by
  intro w i
  refine ⟨eq_encode_of_decodeWord, ?_⟩
  rintro rfl
  exact decodeWord_encode i

/-- Settles O2: of the decoder's three kinds of accepted word, ENCODE and DECODE have every key select, and the others
have the OPC values of `exists_plainOpcode_iff`. -/
theorem legalCommandWords : Obligations.LegalCommandWords := by
  intro w
  change _ ↔ rsvOf w = 0 ∧ (opcOf w = 0x05 ∨ opcOf w = 0x06 ∨
    (((0x01 ≤ opcOf w ∧ opcOf w ≤ 0x04) ∨ (0x07 ≤ opcOf w ∧ opcOf w ≤ 0x0C)) ∧ kselOf w = 0))
  rw [← exists_plainOpcode_iff]
  simp only [decodeWord_eq_ok_iff, exists_and_left, exists_or, exists_and_right, exists_eq, and_true]

/-- Settles O3: the words of the table are their commands' own words, and each illegal word meets its own check. -/
theorem workedCommandWords : Obligations.WorkedCommandWords := by
  have ok {w : Word} {i : Instr} : w = encode i → decodeWord w = .ok i := (decodeInvertsEncode w i).2
  refine ⟨ok rfl, ok rfl, ok rfl, ok rfl, ok rfl, ok rfl, ok rfl, ok rfl, ok rfl, ok rfl, ok rfl, ok rfl, ok rfl,
    ok rfl, ok rfl, ok rfl, ok rfl, ok rfl, rfl, rfl, rfl, rfl⟩

/-! ## The completion of an illegal word (30_encoding.md R126) -/

theorem step_of_completing {s : State} {w : Word} (h : s.phase = .busy w 0) : step s = completeWord w s := by
  rw [step, advance, h]

theorem completeWord_of_error {w : Word} {r : DecodeReject} (h : decodeWord w = .error r) (s : State) :
    completeWord w s = .next (afterError .illegalCmd s) := by
  rw [completeWord, decodeBytes_leBytes, h, ← raiseError_plain (i := none) rfl]

/-- Settles O5: a word that decodes to no command is rejected, and its error completion clears no key flag. -/
theorem illegalWordCompletesWithIllegalCmd : Obligations.IllegalWordCompletesWithIllegalCmd := by
  intro s w hphase hillegal
  cases hdecode : decodeWord w with
  | ok i => exact absurd hdecode (hillegal i)
  | error r => rw [step_of_completing hphase, completeWord_of_error hdecode]

/-! ## ENCODE with usable operands (41_bitcodec.md R210, R212) -/

/-- The checks of ENCODE passed: what is left is `encodeWith` on the selected pair (60_exceptions.md R343). -/
theorem execEncode_of_usable {s : State} {ks : KSel} {ex md : Nat} (hin : s.lenIn.toNat ≤ s.params.bufBytes)
    (hkey : keySelect ks s = .ok (ex, md)) (hk : 1 ≤ chunkSize s) (hmd : 2 ^ chunkSize s < md) :
    execEncode ks s = .next (encodeWith (.encode ks) ex md (chunkSize s) s) := by
  have hnot : ¬ inputTooLong s = true := by
    rw [inputTooLong_iff]
    omega
  have hcheck : codecCheck md (chunkSize s) = none := codecCheck_none.2 ⟨hk, hmd⟩
  rw [execEncode, if_neg hnot, hkey]
  simp only [hcheck]

/-- The number of chunks of a padded non-empty input: `8L div k + 1` (41_bitcodec.md R205). -/
theorem paddedInput_chunks {s : State} {k : Nat} (hin : s.lenIn.toNat ≠ 0) (hk : 1 ≤ k) :
    (padBits (bytesToBits (inBytes s)) k).length / k = 8 * s.lenIn.toNat / k + 1 := by
  have hlen : (bytesToBits (inBytes s)).length = 8 * s.lenIn.toNat := by
    rw [bytesToBits_length, inBytes_length]
  have hne : bytesToBits (inBytes s) ≠ [] := by
    rw [← List.length_pos_iff, hlen]
    omega
  rw [padBits_length hne hk, Nat.mul_div_cancel _ hk, hlen]

/-- The cipher chunks, with the power as the spec writes it (41_bitcodec.md R210). -/
theorem encodeChunks_eq (ex md k : Nat) (p : List Bool) : encodeChunks ex md k p =
    (pieces k (p.length / k) p).flatMap fun ch => binW (bitlen md) (bitsVal ch ^ ex % md) := by
  simp only [encodeChunks, powMod_eq]

theorem encodeWith_of_fits {s : State} {k md : Nat} (hin : s.lenIn.toNat ≠ 0) (hk : 1 ≤ k)
    (hfits : (8 * s.lenIn.toNat / k + 1) * bitlen md ≤ s.params.bufBytes) (i : Instr) (ex : Nat) :
    encodeWith i ex md k s = afterSuccess
      ((tookInput s).withOut ((encodeChunks ex md k (padBits (bytesToBits (inBytes s)) k)).map bitChar)) := by
  have hnonempty : ¬ s.lenIn = 0 := fun h => hin (congrArg BitVec.toNat h)
  rw [encodeWith, if_neg hnonempty]
  dsimp only
  rw [paddedInput_chunks hin hk, if_neg (Nat.not_lt.2 hfits), completeOk_eq]

/-- Settles O35: every check passes, the padded input has `8L div k + 1` chunks, and each gives one cipher chunk. -/
theorem encodeWritesTheCipherChunks : Obligations.EncodeWritesTheCipherChunks := by
  refine ⟨fun s => ⟨rfl, rfl, fun hvalid => ⟨if_pos hvalid, if_pos hvalid⟩⟩, ?_⟩
  intro s ks ex md L k chunks hin hkey hk hmd hL hfits
  have hcount : (padBits (bytesToBits (inBytes s)) k).length / k = 8 * L / k + 1 := paddedInput_chunks hL hk
  have hout : encodeChunks ex md k (padBits (bytesToBits (inBytes s)) k) =
      chunks.flatMap fun ch => binW (bitlen md) (bitsVal ch ^ ex % md) := by
    rw [encodeChunks_eq, hcount]
  have hlen : ((encodeChunks ex md k (padBits (bytesToBits (inBytes s)) k)).map bitChar).length =
      (8 * L / k + 1) * bitlen md := by
    rw [List.length_map, encodeChunks_length, hcount]
  rw [exec, execEncode_of_usable hin hkey hk hmd, encodeWith_of_fits (k := chunkSize s) hL hk hfits, ← hout, ← hlen]
  rfl

end Sys2Proof.Machine

namespace Sys2Proof.Machine

/-! # The modular exponentiation unit (40_modular.md) -/

/-! ## POWMOD -/

/-! ### Corner cases and laws (40_modular.md R152, R153) -/

theorem powMod_exponent_zero (b m : Nat) : powMod b 0 m = 1 % m := by rw [powMod_eq, Nat.pow_zero]

theorem powMod_modulus_one (b x : Nat) : powMod b x 1 = 0 := by rw [powMod_eq, Nat.mod_one]

theorem powMod_base_zero {x : Nat} (hx : 0 < x) (m : Nat) : powMod 0 x m = 0 := by
  rw [powMod_eq, Nat.zero_pow hx, Nat.zero_mod]

/-- The base counts modulo `m` only. -/
theorem powMod_mod (b x m : Nat) : powMod (b % m) x m = powMod b x m := by
  rw [powMod_eq, powMod_eq, ← Nat.pow_mod]

theorem powMod_add (b x y m : Nat) : powMod b (x + y) m = powMod b x m * powMod b y m % m := by
  rw [powMod_eq, powMod_eq, powMod_eq, Nat.pow_add, Nat.mul_mod]

theorem powMod_mul (b c x m : Nat) : powMod (b * c % m) x m = powMod b x m * powMod c x m % m := by
  rw [powMod_mod, powMod_eq, powMod_eq, powMod_eq, Nat.mul_pow, Nat.mul_mod]

/-- A power of a power multiplies the exponents. -/
theorem powMod_powMod (b x y m : Nat) : powMod (powMod b x m) y m = powMod b (x * y) m := by
  rw [powMod_eq b x, powMod_mod, powMod_eq, powMod_eq, Nat.pow_mul]

/-- Settles O26, law by law. -/
theorem powmodLaws : Obligations.PowmodLaws :=
  fun b c x y m hm => ⟨powMod_eq b x m, powMod_lt b x hm, powMod_exponent_zero b m, powMod_modulus_one b x,
    fun hx => powMod_base_zero hx m, powMod_mod b x m, powMod_add b x y m, powMod_mul b c x m⟩

/-! ### The command (40_modular.md R151) -/

/-- Settles O25: the one check, then the power of `powMod_eq`. -/
theorem powmodComputesThePower : Obligations.PowmodComputesThePower := by
  refine ⟨rfl, fun s => ⟨fun hm => ?_, fun hm => ?_⟩⟩
  · rw [exec, execPowmod, if_pos hm, raiseError_plain rfl]
  · rw [exec, execPowmod, if_neg hm, powMod_eq, completeOk_eq]
    rfl

/-! ## INVERT -/

/-- Settles O27: behind the two checks stands the reduced inverse of `modInv_spec`, and there is no other. -/
theorem invertComputesTheInverse : Obligations.InvertComputesTheInverse := by
  refine ⟨rfl, fun s => ⟨fun hm => ?_, fun hm hgcd => ?_, fun hm hgcd => ?_⟩⟩
  · rw [exec, execInvert, if_pos hm, raiseError_plain rfl]
  · rw [exec, execInvert, if_neg hm, if_pos hgcd, raiseError_plain rfl]
  · obtain ⟨hlt, hinv⟩ := modInv_spec (BitVec.toNat_pos_of_ne_zero hm) hgcd
    refine ⟨modInv s.a.toNat s.m.toNat, hlt, hinv, fun u hu hau => inverse_unique hgcd hlt hu hinv hau, ?_⟩
    rw [exec, execInvert, if_neg hm, if_neg (not_not.2 hgcd), completeOk_eq]
    rfl

/-! ## Construction (40_modular.md R157) -/

theorem phiOf_self (p : Nat) : phiOf p p = p * p - p := if_pos rfl

theorem phiOf_of_ne {p q : Nat} (h : p ≠ q) : phiOf p q = (p - 1) * (q - 1) := if_neg h

theorem construct_of_le {p q k : Nat} (h : p * q ≤ 2 ^ k) (e : Nat) : construct p q e k = .error .config :=
  if_pos (Nat.not_lt.2 h)

theorem construct_of_gcd_ne {p q e k : Nat} (hk : 2 ^ k < p * q) (hgcd : Nat.gcd (e % phiOf p q) (phiOf p q) ≠ 1) :
    construct p q e k = .error .keygen := by
  rw [construct, if_neg (not_not.2 hk), if_pos hgcd]

/-- Operands that pass both checks of construction give a key pair (40_modular.md R157 to R161). -/
theorem exists_construct_eq_ok {p q e k : Nat} (hp : 2 ≤ p) (hq : 2 ≤ q) (hk : 2 ^ k < p * q)
    (hgcd : Nat.gcd (e % phiOf p q) (phiOf p q) = 1) :
    ∃ key, construct p q e k = .ok key ∧ IsKey p q e key.n key.d key.dP key.dQ key.qinv key.noQinv := by
  cases h : construct p q e k with
  | ok key => exact ⟨key, rfl, (construct_ok hp hq h).2⟩
  | error code =>
    rcases construct_error h with ⟨-, hle⟩ | ⟨-, -, hne⟩
    · omega
    · exact absurd hgcd hne

/-! ## KEYSET -/

/-- KEYSET whose operands pass its own checks is construction: its error (40_modular.md R162, R170). -/
theorem execKeyset_of_error {s : State} {code : ErrCode} (hp : 2 ≤ s.kp.toNat) (hq : 2 ≤ s.kq.toNat)
    (hn : s.kp.toNat * s.kq.toNat < 2 ^ s.params.nbits)
    (h : construct s.kp.toNat s.kq.toNat s.ke.toNat (chunkSize s) = .error code) :
    execKeyset s = .next (raiseError (some .keyset) code s) := by
  simp only [execKeyset, if_neg (show ¬ (s.kp.toNat < 2 ∨ s.kq.toNat < 2) by omega), if_neg (Nat.not_le.2 hn), h]

/-- KEYSET whose operands pass its own checks is construction: its key (40_modular.md R160, R170). -/
theorem execKeyset_of_ok {s : State} {key : KeyParts} (hp : 2 ≤ s.kp.toNat) (hq : 2 ≤ s.kq.toNat)
    (hn : s.kp.toNat * s.kq.toNat < 2 ^ s.params.nbits)
    (h : construct s.kp.toNat s.kq.toNat s.ke.toNat (chunkSize s) = .ok key) :
    execKeyset s = .next (afterSuccess (storeKey key s)) := by
  simp only [execKeyset, if_neg (show ¬ (s.kp.toNat < 2 ∨ s.kq.toNat < 2) by omega), if_neg (Nat.not_le.2 hn), h,
    completeOk_eq]

/-- Settles O29: the parts of the constructed key are the key pair, and storing them is all that KEYSET does. -/
theorem keysetConstructsTheKey : Obligations.KeysetConstructsTheKey := by
  refine ⟨rfl, fun p q => ⟨phiOf_self p, phiOf_of_ne⟩, fun s hp hq hn hk hgcd => ?_⟩
  obtain ⟨key, hkey, hpair⟩ := exists_construct_eq_ok hp hq hk hgcd
  refine ⟨key.n, key.d, key.dP, key.dQ, key.qinv, key.noQinv, hpair, ?_⟩
  rw [exec, execKeyset_of_ok hp hq hn hkey]
  rfl

/-- Settles O30: CONFIG comes from the two checks of KEYSET or from the first of construction, KEYGEN from the second of
construction. -/
theorem keysetReportsItsErrors : Obligations.KeysetReportsItsErrors := by
  intro s p q
  refine ⟨fun hconfig => ?_, fun hp hq hn hk hgcd => ?_⟩
  · rw [exec, ← raiseError_key (i := some .keyset) rfl]
    by_cases hsmall : p < 2 ∨ q < 2
    · exact if_pos hsmall
    by_cases hlarge : 2 ^ s.params.nbits ≤ p * q
    · exact (if_neg hsmall).trans (if_pos hlarge)
    · have hle : p * q ≤ 2 ^ chunkSize s := by
        rcases hconfig with h | h | h | h
        · exact absurd (.inl h) hsmall
        · exact absurd (.inr h) hsmall
        · exact absurd h hlarge
        · exact h
      exact execKeyset_of_error (Nat.not_lt.1 fun h => hsmall (.inl h)) (Nat.not_lt.1 fun h => hsmall (.inr h))
        (Nat.not_le.1 hlarge) (construct_of_le hle _)
  · rw [exec, execKeyset_of_error hp hq hn (construct_of_gcd_ne hk hgcd), raiseError_key rfl]

/-! ## KEYGEN -/

theorem two_le_of_getElem?_primes {lo hi i v : Nat} (h : (primes lo hi)[i]? = some v) : 2 ≤ v :=
  (mem_primes.1 (List.mem_of_getElem? h)).2.2.two_le

section Triple

variable {ps : List Nat} {ip iq ie p q e : Nat} (hp : ps[ip]? = some p) (hq : ps[iq]? = some q)
  (he : ps[ie]? = some e)

include hp hq he

/-- KEYGEN on a triple of primes is their construction: its error (40_modular.md R162, R163). -/
theorem keygenWith_of_error {u : State} {code : ErrCode} (h : construct p q e (chunkSize u) = .error code) :
    keygenWith ps ip iq ie u = raiseError (some .keygen) code u := by
  simp only [keygenWith, List.getD_eq_getElem?_getD, hp, hq, he, Option.getD_some, h]

/-- KEYGEN on a triple of primes is their construction: its key, and the triple itself (40_modular.md R160, R163). -/
theorem keygenWith_of_ok {u : State} {key : KeyParts} (h : construct p q e (chunkSize u) = .ok key) :
    keygenWith ps ip iq ie u = afterSuccess ((storeKey key u).withPrimes (big p) (big q) (big e)) := by
  simp only [keygenWith, List.getD_eq_getElem?_getD, hp, hq, he, Option.getD_some, h, completeOk_eq]

end Triple

/-- With no prime in the range KEYGEN draws nothing (40_modular.md R166). -/
theorem execKeygen_of_nil {s : State} (h : primes s.plo.toNat s.phi.toNat = []) :
    execKeygen s = .next (afterError .noPrimes s) := by
  rw [← raiseError_plain (i := some .keygen) rfl]
  exact if_pos (congrArg List.length h)

/-- With a prime in the range KEYGEN draws three indices (40_modular.md R163, R164). -/
theorem execKeygen_of_ne_nil {s : State} {ps : List Nat} (hps : primes s.plo.toNat s.phi.toNat = ps) (h : ps ≠ []) :
    execKeygen s = .next (keygenWith ps (Config.draw s.draws % ps.length) (Config.draw (s.draws + 1) % ps.length)
      (Config.draw (s.draws + 2) % ps.length) (s.drawn 3)) := by
  subst hps
  exact if_neg fun h0 => h (List.eq_nil_of_length_eq_zero h0)

/-- Settles O31: three draws unless the range is empty, and construction of any three of its primes. -/
theorem keygenConstructsFromThreeDraws : Obligations.KeygenConstructsFromThreeDraws := by
  refine ⟨rfl, fun s => ⟨execKeygen_of_nil, execKeygen_of_ne_nil rfl, fun ip iq ie p q e u hp hq he => ?_⟩⟩
  refine ⟨fun hle => ?_, fun hk hgcd => ?_, fun hk hgcd => ?_⟩
  · rw [keygenWith_of_error hp hq he (construct_of_le hle e), raiseError_key rfl]
  · rw [keygenWith_of_error hp hq he (construct_of_gcd_ne hk hgcd), raiseError_key rfl]
  · obtain ⟨key, hkey, hpair⟩ := exists_construct_eq_ok (two_le_of_getElem?_primes hp)
      (two_le_of_getElem?_primes hq) hk hgcd
    refine ⟨key.n, key.d, key.dP, key.dQ, key.qinv, key.noQinv, hpair, ?_⟩
    rw [keygenWith_of_ok hp hq he hkey]
    rfl

/-- A number above 1 has no inverse modulo φ of its square, which it divides (40_modular.md R166). -/
theorem gcd_phiOf_self_ne_one {p : Nat} (hp : 2 ≤ p) : Nat.gcd (p % phiOf p p) (phiOf p p) ≠ 1 := by
  have hphi : p ∣ phiOf p p := by
    rw [phiOf_self]
    exact Nat.dvd_sub (Nat.dvd_mul_right p p) (Nat.dvd_refl p)
  intro hone
  have hp1 : p ∣ 1 := hone ▸ Nat.dvd_gcd ((Nat.dvd_mod_iff hphi).2 (Nat.dvd_refl p)) hphi
  exact absurd (Nat.le_of_dvd Nat.one_pos hp1) (by omega)

/-- The construction of one prime taken three times fails (40_modular.md R166). -/
theorem construct_same_prime {p : Nat} (hp : 2 ≤ p) (k : Nat) :
    construct p p p k = .error (if 2 ^ k < p * p then .keygen else .config) := by
  split
  · next hk => exact construct_of_gcd_ne hk (gcd_phiOf_self_ne_one hp)
  · next hk => exact construct_of_le (Nat.not_lt.1 hk) p

/-- Settles O32: every index below 1 is 0, so all three draws are the one prime. -/
theorem onePrimeRangeNeverYieldsAKey : Obligations.OnePrimeRangeNeverYieldsAKey := by
  intro s P hps
  have hprime : 2 ≤ P := two_le_of_getElem?_primes (i := 0) (congrArg (·[0]?) hps)
  have hindex (j : Nat) : [P][j % [P].length]? = some P := by rw [List.length_singleton, Nat.mod_one]; rfl
  rw [exec, execKeygen_of_ne_nil hps (List.cons_ne_nil P []),
    keygenWith_of_error (hindex _) (hindex _) (hindex _) (construct_same_prime hprime _), raiseError_key]
  · rfl
  · split <;> rfl

/-! ## The round trip of a key (40_modular.md R153) -/

/-- Fermat's theorem for an exponent that is 1 modulo `p - 1`, on every residue, 0 among them. -/
theorem pow_modEq_self {p m : Nat} (hp : p.Prime) (hm : 0 < m) (h : p - 1 ∣ m - 1) (x : Nat) :
    x ^ m ≡ x [MOD p] := by
  have hpow : (x : Int) ^ m ≡ x ^ 1 [ZMOD p] := Int.ModEq.pow_eq_pow hp h hm Nat.one_pos x
  rw [pow_one] at hpow
  exact_mod_cast hpow

/-- For two different primes every residue modulo their product survives an exponent that is 1 modulo φ. -/
theorem pow_modEq_self_of_phiOf {p q m : Nat} (hp : p.Prime) (hq : q.Prime) (hpq : p ≠ q)
    (hm : m ≡ 1 [MOD phiOf p q]) (x : Nat) : x ^ m ≡ x [MOD p * q] := by
  have hphi : 1 % phiOf p q = 1 := Nat.mod_eq_of_lt (phiOf_pos hp.two_le hq.two_le).1
  have hpos : 0 < m := by
    refine Nat.pos_of_ne_zero fun h0 => ?_
    rw [h0, Nat.ModEq, Nat.zero_mod, hphi] at hm
    omega
  have hdvd : (p - 1) * (q - 1) ∣ m - 1 := by
    rw [← phiOf_of_ne hpq]
    exact (Nat.modEq_iff_dvd' hpos).1 hm.symm
  exact (Nat.modEq_and_modEq_iff_modEq_mul ((Nat.coprime_primes hp hq).2 hpq)).1
    ⟨pow_modEq_self hp hpos (dvd_of_mul_right_dvd hdvd) x, pow_modEq_self hq hpos (dvd_of_mul_left_dvd hdvd) x⟩

/-- Settles O33: the two powers are one, with an exponent that is 1 modulo φ. -/
theorem keyPairRoundTrip : Obligations.KeyPairRoundTrip := by
  intro p q e n d dP dQ qinv x noQinv hp hq hpq hkey hx
  have hn : n = p * q := hkey.modulus
  calc powMod (powMod x e n) d n
      = powMod x (e * d) n := powMod_powMod x e d n
    _ = x ^ (e * d) % n := powMod_eq x (e * d) n
    _ = x % n := hn ▸ pow_modEq_self_of_phiOf hp hq hpq hkey.exponent x
    _ = x := Nat.mod_eq_of_lt hx

end Sys2Proof.Machine

namespace Sys2Proof.Machine

/-! # The bit codec (41_bitcodec.md) -/

/-! ## Padding and stripping (41_bitcodec.md R204 to R206) -/

/-- The distance from a length to the next multiple of `k` above it is the least step that reaches a multiple. -/
theorem gap_to_next_multiple (n : Nat) {k : Nat} (hk : 1 ≤ k) :
    1 ≤ k - n % k ∧ k - n % k ≤ k ∧ (n + (k - n % k)) % k = 0 ∧
      ∀ r, 1 ≤ r → r < k - n % k → (n + r) % k ≠ 0 := by
  have hlt : n % k < k := Nat.mod_lt n hk
  refine ⟨by omega, Nat.sub_le k _, ?_, fun r hr hrk => ?_⟩
  · rw [← Nat.mod_add_mod, show n % k + (k - n % k) = k by omega, Nat.mod_self]
  · rw [← Nat.mod_add_mod, Nat.mod_eq_of_lt (by omega : n % k + r < k)]
    omega

theorem stripReversed_one_run (r : Nat) (c : Bool) : stripReversed (List.replicate r c) = [] := by
  induction r with
  | zero => rfl
  | succ r ih =>
    cases r with
    | zero => rfl
    | succ r => rwa [List.replicate_succ, List.replicate_succ, stripReversed, if_pos rfl, ← List.replicate_succ]

theorem stripBits_one_run (r : Nat) (c : Bool) : stripBits (List.replicate r c) = [] := by
  rw [stripBits, List.reverse_replicate, stripReversed_one_run, List.reverse_nil]

/-- Settles O34: the padding of `padBits_append` is the step of `gap_to_next_multiple`, and stripping takes off a run. -/
theorem paddingReachesAChunkBoundary : Obligations.PaddingReachesAChunkBoundary := by
  refine ⟨fun b c k hk => ?_, fun b c r hr => ?_, fun c r => stripBits_one_run r c⟩
  · obtain ⟨hpos, hle, hreach, hleast⟩ := gap_to_next_multiple (b.length + 1) hk
    exact ⟨_, padBits_append b c k hk, hpos, hle, hreach, hleast, stripBits_padBits (by simp) hk⟩
  · obtain ⟨n, rfl⟩ := Nat.exists_eq_add_of_le' hr
    exact stripBits_run b c n

/-! ## The checks that ENCODE and DECODE share (41_bitcodec.md R201, R203; 60_exceptions.md R343) -/

/-- What the first checks of ENCODE and DECODE find, in their order. -/
def codecError (ks : KSel) (s : State) : Option ErrCode :=
  if inputTooLong s then some .length
  else
    match keySelect ks s with
    | .error code => some code
    | .ok (_, md) => codecCheck md (chunkSize s)

theorem codecError_of_tooLong {s : State} (h : s.params.bufBytes < s.lenIn.toNat) (ks : KSel) :
    codecError ks s = some .length := by
  rw [codecError, if_pos ((inputTooLong_iff s).2 h)]

theorem keySelect_of_noKey {ks : KSel} {s : State} (hks : ks = .priv ∨ ks = .pub) (h : s.status.keyValid = false) :
    keySelect ks s = .error .noKey := by
  have hnot : ¬ s.status.keyValid = true := by simp [h]
  rcases hks with rfl | rfl <;> exact if_neg hnot

theorem codecError_of_noKey {ks : KSel} {s : State} (hin : s.lenIn.toNat ≤ s.params.bufBytes)
    (hks : ks = .priv ∨ ks = .pub) (h : s.status.keyValid = false) : codecError ks s = some .noKey := by
  rw [codecError, if_neg (by rw [inputTooLong_iff]; omega), keySelect_of_noKey hks h]

/-- With a selected pair, what is left is the check of its modulus. -/
theorem codecError_of_pair {ks : KSel} {s : State} {ex md : Nat} (hin : s.lenIn.toNat ≤ s.params.bufBytes)
    (hkey : keySelect ks s = .ok (ex, md)) : codecError ks s = codecCheck md (chunkSize s) := by
  rw [codecError, if_neg (by rw [inputTooLong_iff]; omega), hkey]

theorem codecCheck_of_zero {md : Nat} (h : md = 0) (k : Nat) : codecCheck md k = some .domain := if_pos h

theorem codecCheck_of_small {md k : Nat} (hmd : md ≠ 0) (h : k = 0 ∨ md ≤ 2 ^ k) :
    codecCheck md k = some .config := by
  rw [codecCheck, if_neg hmd, if_pos (by omega)]

/-- Where the first error of the shared checks comes from. -/
theorem codecError_cases {ks : KSel} {s : State} {code : ErrCode} (h : codecError ks s = some code) :
    (inputTooLong s = true ∧ code = .length) ∨
      (¬ inputTooLong s = true ∧ keySelect ks s = .error code) ∨
      (¬ inputTooLong s = true ∧ ∃ ex md, keySelect ks s = .ok (ex, md) ∧ codecCheck md (chunkSize s) = some code) := by
  unfold codecError at h
  split at h
  · next hlong => exact .inl ⟨hlong, (Option.some.inj h).symm⟩
  · next hshort =>
    cases hkey : keySelect ks s with
    | error c =>
      rw [hkey] at h
      exact .inr (.inl ⟨hshort, congrArg _ (Option.some.inj h)⟩)
    | ok pair =>
      rw [hkey] at h
      exact .inr (.inr ⟨hshort, pair.1, pair.2, rfl, h⟩)

theorem exec_encode_of_codecError {ks : KSel} {s : State} {code : ErrCode} (h : codecError ks s = some code) :
    exec (.encode ks) s = .next (afterError code s) := by
  rw [exec, execEncode, ← raiseError_plain (i := some (.encode ks)) rfl]
  rcases codecError_cases h with ⟨hlong, rfl⟩ | ⟨hshort, hkey⟩ | ⟨hshort, ex, md, hkey, hcheck⟩
  · rw [if_pos hlong]
  · rw [if_neg hshort, hkey]
  · rw [if_neg hshort, hkey]
    simp only [hcheck]

theorem exec_decode_of_codecError {ks : KSel} {s : State} {code : ErrCode} (h : codecError ks s = some code) :
    exec (.decode ks) s = .next (afterError code s) := by
  rw [exec, execDecode, ← raiseError_plain (i := some (.decode ks)) rfl]
  rcases codecError_cases h with ⟨hlong, rfl⟩ | ⟨hshort, hkey⟩ | ⟨hshort, ex, md, hkey, hcheck⟩
  · rw [if_pos hlong]
  · rw [if_neg hshort, hkey]
  · rw [if_neg hshort, hkey]
    simp only [hcheck]

/-! ## ENCODE's own errors (41_bitcodec.md R211, R212) -/

theorem encodeWith_of_empty {s : State} (h : s.lenIn.toNat = 0) (ks : KSel) (ex md k : Nat) :
    encodeWith (.encode ks) ex md k s = afterError .emptyInput s := by
  rw [encodeWith, if_pos (BitVec.eq_of_toNat_eq h), raiseError_plain rfl]

theorem encodeWith_of_overflow {s : State} {k md : Nat} (hin : s.lenIn.toNat ≠ 0) (hk : 1 ≤ k)
    (hbig : s.params.bufBytes < (8 * s.lenIn.toNat / k + 1) * bitlen md) (ks : KSel) (ex : Nat) :
    encodeWith (.encode ks) ex md k s = afterError .length (tookInput s) := by
  have hnonempty : ¬ s.lenIn = 0 := fun h => hin (congrArg BitVec.toNat h)
  rw [encodeWith, if_neg hnonempty]
  dsimp only
  rw [paddedInput_chunks hin hk, if_pos hbig, raiseError_plain rfl]

/-- Settles O36: the shared checks in their order, then ENCODE's own. -/
theorem encodeReportsItsFirstError : Obligations.EncodeReportsItsFirstError := by
  intro s ks ex md L k
  refine ⟨fun hlong => exec_encode_of_codecError (codecError_of_tooLong hlong ks),
    fun hin hks hvalid => exec_encode_of_codecError (codecError_of_noKey hin hks hvalid),
    fun hin hkey => ⟨fun hmd => ?_, fun hmd hsmall => ?_, fun hk hmd hL => ?_, fun hk hmd hL hbig => ?_⟩⟩
  · exact exec_encode_of_codecError ((codecError_of_pair hin hkey).trans (codecCheck_of_zero hmd _))
  · exact exec_encode_of_codecError ((codecError_of_pair hin hkey).trans (codecCheck_of_small hmd hsmall))
  · rw [exec, execEncode_of_usable hin hkey hk hmd, encodeWith_of_empty hL]
  · rw [exec, execEncode_of_usable hin hkey hk hmd, encodeWith_of_overflow (k := chunkSize s) hL hk hbig]
    rfl

/-! ## DECODE with usable operands (41_bitcodec.md R220 to R224) -/

/-- The checks of DECODE passed: what is left is `decodeWith` on the selected pair (60_exceptions.md R343). -/
theorem exec_decode_of_usable {s : State} {ks : KSel} {ex md : Nat} (hin : s.lenIn.toNat ≤ s.params.bufBytes)
    (hkey : keySelect ks s = .ok (ex, md)) (hk : 1 ≤ chunkSize s) (hmd : 2 ^ chunkSize s < md) :
    exec (.decode ks) s = .next (decodeWith (.decode ks) ex md (chunkSize s) s) := by
  have hcheck : codecCheck md (chunkSize s) = none := codecCheck_none.2 ⟨hk, hmd⟩
  rw [exec, execDecode, if_neg (by rw [inputTooLong_iff]; omega), hkey]
  simp only [hcheck]

theorem decodeWith_of_empty {s : State} (h : s.lenIn = 0) (ks : KSel) (ex md k : Nat) :
    decodeWith (.decode ks) ex md k s = afterError .decUnderflow s := by
  rw [decodeWith, if_pos h, raiseError_plain rfl]

/-- A bad character and a partial chunk are the same error, so their order does not matter (41_bitcodec.md R222). -/
theorem decodeWith_of_badForm {s : State} {md : Nat} (hne : s.lenIn ≠ 0)
    (hbad : (∃ b ∈ inBytes s, b ≠ 0x30 ∧ b ≠ 0x31) ∨ s.lenIn.toNat % bitlen md ≠ 0) (ks : KSel) (ex k : Nat) :
    decodeWith (.decode ks) ex md k s = afterError .decFormat (tookInput s) := by
  rw [decodeWith, if_neg hne]
  cases hbits : (inBytes s).mapM charBit with
  | none => exact raiseError_plain rfl _
  | some bits =>
    have hpartial : s.lenIn.toNat % bitlen md ≠ 0 := by
      refine hbad.resolve_left fun hchar => ?_
      rw [mapM_charBit_eq_none.2 hchar] at hbits
      cases hbits
    exact (if_pos hpartial).trans (raiseError_plain rfl _)

/-- An input in character form, of whole chunks, is decoded as its bits. -/
theorem decodeWith_of_bits {s : State} {md : Nat} {bits : List Bool} (hbits : inBytes s = bits.map bitChar)
    (hne : bits ≠ []) (hwhole : bits.length % bitlen md = 0) (i : Instr) (ex k : Nat) :
    decodeWith i ex md k s = decodeBits i ex md k bits (tookInput s) := by
  have hlen : s.lenIn.toNat = bits.length := by rw [← inBytes_length, hbits, List.length_map]
  have hnonempty : ¬ s.lenIn = 0 := fun h =>
    hne (List.eq_nil_of_length_eq_zero (hlen.symm.trans (congrArg BitVec.toNat h)))
  rw [decodeWith, if_neg hnonempty, hbits]
  simp only [mapM_charBit_bitChar]
  rw [hlen, if_neg (not_not.2 hwhole)]

/-- The chunk powers, as the spec writes them (41_bitcodec.md R220). -/
theorem decodeValues_eq (ex md : Nat) (bits : List Bool) : decodeValues ex md bits =
    (pieces (bitlen md) (bits.length / bitlen md) bits).map fun ch => bitsVal ch ^ ex % md := by
  simp only [decodeValues, powMod_eq]

/-! ### The decoding of bits: the powers are checked first, then what stripping leaves -/

theorem decodeBits_of_overflow {ex md k : Nat} {bits : List Bool} (h : ∃ y ∈ decodeValues ex md bits, 2 ^ k ≤ y)
    (ks : KSel) (t : State) : decodeBits (.decode ks) ex md k bits t = afterError .decOverflow t := by
  have hany : (decodeValues ex md bits).any (fun y => decide (2 ^ k ≤ y)) = true := by simpa using h
  rw [decodeBits]
  exact (if_pos hany).trans (raiseError_plain rfl t)

/-- With every power below 2^k, the bits left after stripping decide. -/
theorem decodeBits_of_inRange {ex md k : Nat} {bits : List Bool} (h : ∀ y ∈ decodeValues ex md bits, y < 2 ^ k)
    (ks : KSel) (t : State) : decodeBits (.decode ks) ex md k bits t =
      let rest := stripBits ((decodeValues ex md bits).flatMap (binW k))
      if rest.length = 0 then raiseError (some (.decode ks)) .decUnderflow t
      else if rest.length % 8 ≠ 0 then raiseError (some (.decode ks)) .decFormat t
      else completeOk (t.withOut (bitsToBytes rest)) := by
  have hany : ¬ (decodeValues ex md bits).any (fun y => decide (2 ^ k ≤ y)) = true := by simpa using h
  rw [decodeBits]
  exact if_neg hany

theorem decodeBits_of_nothing {ex md k : Nat} {bits : List Bool} (h : ∀ y ∈ decodeValues ex md bits, y < 2 ^ k)
    (hrest : stripBits ((decodeValues ex md bits).flatMap (binW k)) = []) (ks : KSel) (t : State) :
    decodeBits (.decode ks) ex md k bits t = afterError .decUnderflow t := by
  rw [decodeBits_of_inRange h, hrest]
  exact raiseError_plain rfl t

theorem decodeBits_of_ragged {ex md k : Nat} {bits : List Bool} (h : ∀ y ∈ decodeValues ex md bits, y < 2 ^ k)
    (hrest : (stripBits ((decodeValues ex md bits).flatMap (binW k))).length % 8 ≠ 0) (ks : KSel) (t : State) :
    decodeBits (.decode ks) ex md k bits t = afterError .decFormat t := by
  rw [decodeBits_of_inRange h]
  exact (if_neg (by omega)).trans ((if_pos hrest).trans (raiseError_plain rfl t))

theorem decodeBits_of_bytes {ex md k : Nat} {bits rest : List Bool} (h : ∀ y ∈ decodeValues ex md bits, y < 2 ^ k)
    (hstrip : stripBits ((decodeValues ex md bits).flatMap (binW k)) = rest) (hne : rest ≠ [])
    (hwhole : rest.length % 8 = 0) (ks : KSel) (t : State) :
    decodeBits (.decode ks) ex md k bits t = afterSuccess (t.withOut (bitsToBytes rest)) := by
  rw [decodeBits_of_inRange h, hstrip]
  exact (if_neg (List.length_pos_iff.2 hne).ne').trans (if_neg (not_not.2 hwhole))

/-- What stripping leaves is nothing when there are no bits. -/
theorem bits_ne_nil_of_rest {ex md k : Nat} {bits : List Bool}
    (h : stripBits ((decodeValues ex md bits).flatMap (binW k)) ≠ []) : bits ≠ [] := by
  rintro rfl
  exact h (by simp [decodeValues, pieces, stripBits, stripReversed])

/-- Settles O37: the checks pass, the input's form passes, and the rest after stripping is whole bytes. -/
theorem decodeWritesThePlaintext : Obligations.DecodeWritesThePlaintext := by
  intro s ks ex md bits k ys rest hin hbits hkey hk hmd hwhole hys hne hrest
  have hvalues : decodeValues ex md bits = ys := decodeValues_eq ex md bits
  have hstrip : stripBits ((decodeValues ex md bits).flatMap (binW (chunkSize s))) = rest := by
    rw [hvalues]
    rfl
  rw [← hvalues] at hys
  rw [exec_decode_of_usable hin hkey hk hmd, decodeWith_of_bits hbits (bits_ne_nil_of_rest (hstrip ▸ hne)) hwhole,
    decodeBits_of_bytes (k := chunkSize s) hys hstrip hne hrest, ← bitsToBytes_length]
  rfl

/-- Settles O38: the shared checks in their order, then those of the input's form, then those of the decoding. -/
theorem decodeReportsItsFirstError : Obligations.DecodeReportsItsFirstError := by
  intro s ks ex md k w took
  refine ⟨fun hlong => exec_decode_of_codecError (codecError_of_tooLong hlong ks),
    fun hin hks hvalid => exec_decode_of_codecError (codecError_of_noKey hin hks hvalid),
    fun hin hkey => ⟨fun hmd => ?_, fun hmd hsmall => ?_, fun hk hmd => ?_⟩⟩
  · exact exec_decode_of_codecError ((codecError_of_pair hin hkey).trans (codecCheck_of_zero hmd _))
  · exact exec_decode_of_codecError ((codecError_of_pair hin hkey).trans (codecCheck_of_small hmd hsmall))
  · rw [exec_decode_of_usable hin hkey hk hmd]
    refine ⟨fun hempty => ?_, fun hne hbad => ?_, fun bits hbits hne hwhole => ?_⟩
    · rw [decodeWith_of_empty hempty]
    · rw [decodeWith_of_badForm hne hbad]
      rfl
    · rw [decodeWith_of_bits hbits hne hwhole, ← decodeValues_eq]
      refine ⟨fun hover => ?_, fun hys hrest => ?_, fun hys hrest => ?_⟩
      · rw [decodeBits_of_overflow (k := chunkSize s) hover]
        rfl
      · rw [decodeBits_of_nothing (k := chunkSize s) hys hrest]
        rfl
      · rw [decodeBits_of_ragged (k := chunkSize s) hys hrest]
        rfl

/-! ## The round trip (41_bitcodec.md R225) -/

/-- Exponents that undo each other below 2^k give the chunk values back. -/
theorem decodeValues_encodeChunks_of_undo {ex₁ ex₂ md k : Nat} (hmd : 1 < md)
    (hundo : ∀ v < 2 ^ k, (v ^ ex₁ % md) ^ ex₂ % md = v) (p : List Bool) :
    decodeValues ex₂ md (encodeChunks ex₁ md k p) = (pieces k (p.length / k) p).map bitsVal := by
  rw [decodeValues_encodeChunks hmd]
  refine List.map_congr_left fun ch hch => ?_
  have hlt : bitsVal ch < 2 ^ k := pieces_piece_length (Nat.div_mul_le_self p.length k) hch ▸ bitsVal_lt ch
  rw [powMod_eq, powMod_eq, hundo _ hlt]

/-- The powers of encoded chunks are below 2^k, and joined they are the padded bit string again. -/
theorem decodeValues_encodeChunks_padBits {ex₁ ex₂ md k : Nat} (hk : 1 ≤ k) (hmd : 1 < md)
    (hundo : ∀ v < 2 ^ k, (v ^ ex₁ % md) ^ ex₂ % md = v) {b : List Bool} (hb : b ≠ []) :
    let ys := decodeValues ex₂ md (encodeChunks ex₁ md k (padBits b k))
    (∀ y ∈ ys, y < 2 ^ k) ∧ ys.flatMap (binW k) = padBits b k := by
  have hlen : (padBits b k).length = (padBits b k).length / k * k := by
    rw [padBits_length hb hk, Nat.mul_div_cancel _ hk]
  rw [decodeValues_encodeChunks_of_undo hmd hundo]
  refine ⟨fun y hy => ?_, ?_⟩
  · obtain ⟨ch, hch, rfl⟩ := List.mem_map.1 hy
    exact pieces_piece_length hlen.ge hch ▸ bitsVal_lt ch
  · rw [List.flatMap_map]
    exact flatMap_binW_pieces k _ _ hlen

/-- The cipher bits of a byte string: padded, cut into chunks, and each chunk encoded (41_bitcodec.md R210). -/
def cipherBits (ex md k : Nat) (m : List Byte) : List Bool := encodeChunks ex md k (padBits (bytesToBits m) k)

theorem bytesToBits_ne_nil {m : List Byte} (hm : m ≠ []) : bytesToBits m ≠ [] := by
  have hpos : 0 < m.length := List.length_pos_iff.2 hm
  rw [← List.length_pos_iff, bytesToBits_length]
  omega

theorem cipherBits_length {m : List Byte} (hm : m ≠ []) {k : Nat} (hk : 1 ≤ k) (ex md : Nat) :
    (cipherBits ex md k m).length = (8 * m.length / k + 1) * bitlen md := by
  rw [cipherBits, encodeChunks_length, padBits_length (bytesToBits_ne_nil hm) hk, Nat.mul_div_cancel _ hk,
    bytesToBits_length]

/-- Decoding the cipher bits of a byte string gives the byte string. -/
theorem decodeBits_cipherBits {ex₁ ex₂ md k : Nat} (hk : 1 ≤ k) (hmd : 1 < md)
    (hundo : ∀ v < 2 ^ k, (v ^ ex₁ % md) ^ ex₂ % md = v) {m : List Byte} (hm : m ≠ []) (ks : KSel) (t : State) :
    decodeBits (.decode ks) ex₂ md k (cipherBits ex₁ md k m) t = afterSuccess (t.withOut m) := by
  have hb : bytesToBits m ≠ [] := bytesToBits_ne_nil hm
  obtain ⟨hlt, hjoin⟩ := decodeValues_encodeChunks_padBits hk hmd hundo hb
  have hstrip : stripBits _ = bytesToBits m := hjoin ▸ stripBits_padBits hb hk
  rw [cipherBits, decodeBits_of_bytes hlt hstrip hb (by simp), bitsToBytes_bytesToBits]

/-- ENCODE of a byte string whose encoding fits (41_bitcodec.md R210). -/
theorem exec_encode_of_inputIs {s : State} {m : List Byte} {ks : KSel} {ex md : Nat} (hm : inputIs s m) (hne : m ≠ [])
    (hin : m.length ≤ s.params.bufBytes) (hkey : keySelect ks s = .ok (ex, md)) (hk : 1 ≤ chunkSize s)
    (hmd : 2 ^ chunkSize s < md) (hfits : (8 * m.length / chunkSize s + 1) * bitlen md ≤ s.params.bufBytes) :
    exec (.encode ks) s =
      .next (afterSuccess ((tookInput s).withOut ((cipherBits ex md (chunkSize s) m).map bitChar))) := by
  obtain ⟨hbytes, -⟩ := inBytes_of_inputIs hm
  have hL : s.lenIn.toNat ≠ 0 := by rwa [hm.1, Ne, List.length_eq_zero_iff]
  rw [← hm.1] at hin hfits
  rw [exec, execEncode_of_usable hin hkey hk hmd, encodeWith_of_fits hL hk hfits, hbytes, cipherBits]

/-- DECODE of the cipher bits of a byte string (41_bitcodec.md R220). -/
theorem exec_decode_of_cipherBits {t : State} {m : List Byte} {ks : KSel} {ex₁ ex₂ md : Nat} (hm : m ≠ [])
    (hin : inputIs t ((cipherBits ex₁ md (chunkSize t) m).map bitChar)) (hkey : keySelect ks t = .ok (ex₂, md))
    (hk : 1 ≤ chunkSize t) (hmd : 2 ^ chunkSize t < md)
    (hundo : ∀ v < 2 ^ chunkSize t, (v ^ ex₁ % md) ^ ex₂ % md = v)
    (hfits : (8 * m.length / chunkSize t + 1) * bitlen md ≤ t.params.bufBytes) :
    exec (.decode ks) t = .next (afterSuccess ((tookInput t).withOut m)) := by
  have hlen := cipherBits_length hm hk ex₁ md
  have hbits_ne : cipherBits ex₁ md (chunkSize t) m ≠ [] := by
    rw [← List.length_pos_iff, hlen]
    exact Nat.mul_pos (Nat.succ_pos _) ((Nat.zero_le _).trans_lt (lt_bitlen hmd))
  have hbuf : t.lenIn.toNat ≤ t.params.bufBytes := by rwa [hin.1, List.length_map, hlen]
  rw [exec_decode_of_usable hbuf hkey hk hmd,
    decodeWith_of_bits (inBytes_of_inputIs hin).1 hbits_ne (by rw [hlen, Nat.mul_mod_left]),
    decodeBits_cipherBits hk (Nat.one_le_two_pow.trans_lt hmd) hundo hm]

/-! ### The three commands -/

/-- An output and its transfer to the input leave the pair of every key select (30_encoding.md R123). -/
theorem keySelect_afterTransfer (ks : KSel) (s : State) (bs cs : List Byte) (n : Nat) (l : BitVec 16) :
    keySelect ks (afterSuccess ((afterSuccess ((s.drawn n).withOut bs)).withIn cs l)) = keySelect ks s := rfl

/-- XFER moves a defined output to the input, without a draw (44_transfer.md R330). -/
theorem exec_xfer_of_outputIs {t : State} {bs : List Byte} (h : outputIs t bs) :
    exec .xfer t = .next (afterSuccess (t.withIn bs t.lenOut)) := by
  obtain ⟨hlen, hbytes⟩ := h
  have hcells : outCells t = bs.map some := by rw [outCells, hlen, readMany_of_holds hbytes]
  rw [exec, execXfer, hcells, settle_map_some, undefinedCount_map_some, completeOk_eq]
  rfl

/-- A command's output is found in OUT after its completion. -/
theorem outputIs_withOut {bs : List Byte} (h : bs.length < 2 ^ 16) (t : State) :
    outputIs (afterSuccess (t.withOut bs)) bs := by
  refine ⟨?_, holdsBytes_writeMany t.mem outBase bs⟩
  exact (BitVec.toNat_ofNat _ _).trans (Nat.mod_eq_of_lt h)

theorem inputIs_withIn {bs : List Byte} {n : BitVec 16} (h : n.toNat = bs.length) (t : State) :
    inputIs (afterSuccess (t.withIn bs n)) bs :=
  ⟨h, holdsBytes_writeMany t.mem inBase bs⟩

/-- Settles O39: ENCODE leaves the cipher bits in OUT, XFER moves them to IN, and DECODE undoes power and padding. -/
theorem codecRoundTrip : Obligations.CodecRoundTrip := by
  intro s m ks₁ ks₂ ex₁ ex₂ md hparams hm hne hmlen hkey₁ hkey₂ hk hmd hundo hfits
  let cipher := (cipherBits ex₁ md (chunkSize s) m).map bitChar
  let t₁ := afterSuccess ((tookInput s).withOut cipher)
  let t₂ := afterSuccess (t₁.withIn cipher t₁.lenOut)
  have hcipher : cipher.length < 2 ^ 16 := by
    obtain ⟨-, -, -, -, -, hbuf⟩ := params_bounds hparams
    have hlen := cipherBits_length hne hk ex₁ md
    rw [List.length_map]
    exact (hlen.trans_le hfits).trans_lt (by omega)
  have hmsg : m.length < 2 ^ 16 := hm.1 ▸ s.lenIn.isLt
  have hout : outputIs t₁ cipher := outputIs_withOut hcipher (tookInput s)
  have hin : inputIs t₂ cipher := inputIs_withIn hout.1 t₁
  have hkey : keySelect ks₂ t₂ = .ok (ex₂, md) := (keySelect_afterTransfer ks₂ s cipher cipher _ _).trans hkey₂
  exact ⟨t₁, t₂, afterSuccess ((tookInput t₂).withOut m),
    exec_encode_of_inputIs hm hne hmlen hkey₁ hk hmd hfits, exec_xfer_of_outputIs hout,
    exec_decode_of_cipherBits hne hin hkey hk hmd hundo hfits, rfl, rfl, rfl,
    outputIs_withOut hmsg (tookInput t₂)⟩

end Sys2Proof.Machine

namespace Sys2Proof.Machine

/-! # The substitution unit (42_substitution.md) -/

/-! ## A sort round is a stable sort (42_substitution.md R252) -/

theorem sortByKey_sorted (key : Nat → Nat) (t : List Nat) :
    (sortByKey key t).Pairwise fun x y => key x ≤ key y := by
  induction t with
  | nil => exact List.Pairwise.nil
  | cons x xs ih => exact insertByKey_sorted key x _ ih

/-- The elements of one key keep their order. -/
theorem sortByKey_filter (key : Nat → Nat) (v : Nat) (t : List Nat) :
    (sortByKey key t).filter (fun x => key x == v) = t.filter fun x => key x == v := by
  induction t with
  | nil => rfl
  | cons x xs ih => rw [sortByKey, insertByKey_filter, List.filter_cons, List.filter_cons, ih]

/-- Settles O40: insertion keeps the elements, the rising keys, and the order within one key. -/
theorem sortRoundIsStable : Obligations.SortRoundIsStable := fun a i t =>
  ⟨sortByKey_perm _ t, sortByKey_sorted (sortKey a i) t, fun v => sortByKey_filter (sortKey a i) v t⟩

/-! ## Elements beyond `a` stay where they are (42_substitution.md R255) -/

theorem sortByKey_const {key : Nat → Nat} {c : Nat} {t : List Nat} (h : ∀ x ∈ t, key x = c) :
    sortByKey key t = t := by
  induction t with
  | nil => rfl
  | cons x xs ih =>
    obtain ⟨hx, hxs⟩ := List.forall_mem_cons.1 h
    rw [sortByKey, ih hxs, insertByKey_const key x c xs hx hxs]

/-- An element goes before a suffix whose keys are not smaller than its own. -/
theorem insertByKey_append {key : Nat → Nat} {x : Nat} {r : List Nat} (h : ∀ y ∈ r, key x ≤ key y) (l : List Nat) :
    insertByKey key x (l ++ r) = insertByKey key x l ++ r := by
  induction l with
  | nil =>
    cases r with
    | nil => rfl
    | cons y ys => exact if_pos (h y (List.mem_cons_self ..))
  | cons y ys ih =>
    rw [List.cons_append, insertByKey, insertByKey, ih]
    split <;> rfl

/-- Where `x + i > a` the key of `x` is `a`, the largest there is: a suffix of such elements stays as it is. -/
theorem sortRound_append {a i : Nat} {r : List Nat} (h : ∀ x ∈ r, a < x + i) (l : List Nat) :
    sortByKey (sortKey a i) (l ++ r) = sortByKey (sortKey a i) l ++ r := by
  have hkey : ∀ x ∈ r, sortKey a i x = a := fun x hx => Nat.mod_eq_of_lt (h x hx)
  induction l with
  | nil => exact sortByKey_const hkey
  | cons x xs ih =>
    have hle : ∀ y ∈ r, sortKey a i x ≤ sortKey a i y := fun y hy => (hkey y hy).symm ▸ Nat.mod_le a (x + i)
    rw [List.cons_append, sortByKey, ih, insertByKey_append hle, sortByKey]

/-- A round with an index above `a` changes nothing. -/
theorem sortRound_late {a i : Nat} (h : a < i) (t : List Nat) : sortByKey (sortKey a i) t = t :=
  sortRound_append (l := []) fun x _ => h.trans_le (Nat.le_add_left i x)

/-! ## The derived table (42_substitution.md R253 to R255) -/

theorem deriveTable_zero (a : Nat) : deriveTable 0 a = List.range 256 := rfl

theorem deriveTable_succ (rounds a : Nat) :
    deriveTable (rounds + 1) a = sortByKey (sortKey a (rounds + 1)) (deriveTable rounds a) := rfl

theorem deriveTable_late {rounds a : Nat} (h : a ≤ rounds) : deriveTable rounds a = deriveTable a a := by
  induction rounds, h using Nat.le_induction with
  | base => rfl
  | succ rounds hle ih => rw [deriveTable_succ, sortRound_late (Nat.lt_succ_of_le hle), ih]

/-- The identity table, cut at `n`. -/
theorem range_256_split {n : Nat} (h : n ≤ 256) : List.range 256 = List.range n ++ List.range' n (256 - n) := by
  obtain ⟨len, hlen⟩ := Nat.exists_eq_add_of_le h
  have happ : List.range' 0 n ++ List.range' (0 + n) len = List.range' 0 (n + len) := List.range'_append_1
  rw [List.range_eq_range', List.range_eq_range', hlen, ← happ, Nat.zero_add, Nat.add_sub_cancel_left]

/-- The elements from `n` on stay in place in a round `i` with `n + i > a`. -/
theorem sortRound_beyond {a i n : Nat} (h : a < n + i) (l : List Nat) (len : Nat) :
    sortByKey (sortKey a i) (l ++ List.range' n len) = sortByKey (sortKey a i) l ++ List.range' n len :=
  sortRound_append (fun x hx => by have hx := List.mem_range'_1.1 hx; omega) l

theorem deriveTable_one_round {a : Nat} (h : a ≤ 256) :
    deriveTable 1 a = sortByKey (sortKey a 1) (List.range a) ++ List.range' a (256 - a) := by
  rw [deriveTable_succ, deriveTable_zero, range_256_split h, sortRound_beyond (Nat.lt_succ_self a)]

/-- Settles O41: a late round has one key for all elements, and for a = 5 only the elements 0 to 4 are sorted. -/
theorem derivedTableIsAPermutation : Obligations.DerivedTableIsAPermutation := by
  have hone : deriveTable 1 1 = List.range 256 := by
    rw [deriveTable_one_round (by decide), range_256_split (n := 1) (by decide)]
    rfl
  have hfive : deriveTable 1 5 = [0, 4, 1, 3, 2] ++ List.range' 5 251 := deriveTable_one_round (by decide)
  refine ⟨fun rounds a => ⟨deriveTable_zero a, deriveTable_succ rounds a, deriveTable_perm rounds a,
    deriveTable_late (Nat.zero_le rounds), ?_, deriveTable_late⟩, hfive, ?_⟩
  · cases rounds with
    | zero => rfl
    | succ rounds => rw [deriveTable_late (Nat.le_add_left 1 rounds), hone]
  · rw [deriveTable_succ, hfive, sortRound_beyond (by decide)]
    rfl

/-! ## TDERIVE (42_substitution.md R251, R256, R257) -/

theorem leValue_take_succ {l : List Byte} {n : Nat} (h : n < l.length) :
    leValue (l.take (n + 1)) = leValue (l.take n) + 256 ^ n * l[n].toNat := by
  rw [List.take_succ_eq_append_getElem h, leValue_append, List.length_take_of_le h.le, leValue, leValue, Nat.mul_zero,
    Nat.add_zero]

/-- The first key word is the little-endian number of the digest's first eight bytes (42_substitution.md R251). -/
theorem keyWords_fst (h : Vector Byte 16) : (keyWords h).1 =
    h[0].toNat + 2 ^ 8 * h[1].toNat + 2 ^ 16 * h[2].toNat + 2 ^ 24 * h[3].toNat + 2 ^ 32 * h[4].toNat +
      2 ^ 40 * h[5].toNat + 2 ^ 48 * h[6].toNat + 2 ^ 56 * h[7].toNat := by
  simp [keyWords, leValue_take_succ, leValue]

theorem exec_tderive_of_tooLong {s : State} (h : s.params.bufBytes < s.lenIn.toNat) :
    exec .tderive s = .next (afterError .length s) := by
  rw [exec, execTderive, if_pos ((inputTooLong_iff s).2 h), raiseError_plain rfl]

theorem exec_tderive_of_fits {s : State} (h : s.lenIn.toNat ≤ s.params.bufBytes) :
    exec .tderive s = .next (afterSuccess ((tookInput s).withTables
      ((passwordTable s.params (inBytes s)).map (BitVec.ofNat 8))
      ((invertTable (passwordTable s.params (inBytes s))).map (BitVec.ofNat 8)))) := by
  rw [exec, execTderive, if_neg (by rw [inputTooLong_iff]; omega)]
  rfl

theorem passwordTable_perm (p : Params) (password : List Byte) :
    (passwordTable p password).Perm (List.range 256) := deriveTable_perm _ _

/-- A table of bytes that was written to FWD reads as its numbers, whatever was written to INV after it. -/
theorem read?_fwd_of_perm {t : List Nat} (hperm : t.Perm (List.range 256)) (m : Memory) (inv : List Byte) {x : Nat}
    (hx : x < 256) :
    (((m.writeMany fwdBase (t.map (BitVec.ofNat 8))).writeMany invBase inv).read? (fwdBase + x)).map BitVec.toNat =
      t[x]? := by
  obtain ⟨hfwd, hinv, -, -⟩ := memory_places
  obtain ⟨y, hy, hy256, -⟩ := invertTable_getElem? hperm hx
  have hlen : t.length = 256 := by simpa using hperm.length_eq
  rw [read?_writeMany_out _ _ _ _ (.inl (by omega)), read?_writeMany_in _ _ _ _ (by simpa [hlen] using hx),
    List.getElem?_map, hy, Option.map_some, Option.map_some, BitVec.toNat_ofNat, Nat.mod_eq_of_lt hy256]

/-- Only the bytes of FWD and INV change when two tables of 256 bytes are written. -/
theorem read?_outside_tables {fwd inv : List Byte} (hfwd : fwd.length = 256) (hinv : inv.length = 256) (m : Memory)
    {o : Nat} (ho : o < fwdBase ∨ invBase + 256 ≤ o) :
    ((m.writeMany fwdBase fwd).writeMany invBase inv).read? o = m.read? o := by
  obtain ⟨hf, hi, -, -⟩ := memory_places
  rw [read?_writeMany_out _ _ _ _ (by omega), read?_writeMany_out _ _ _ _ (by omega)]

/-- Settles O42: the tables that TDERIVE writes are a permutation and its inverse. -/
theorem tderiveWritesBothTables : Obligations.TderiveWritesBothTables := by
  refine ⟨by decide, fun p password => congrArg (deriveTable p.tableRounds) (keyWords_fst _), fun s =>
    ⟨exec_tderive_of_tooLong, fun hin => ⟨_, exec_tderive_of_fits hin, ?_, fun x hx => ?_, fun o ho => ?_⟩⟩⟩
  · exact tablesInverse_of_perm (passwordTable_perm _ _) _
  · exact read?_fwd_of_perm (passwordTable_perm _ _) _ _ hx
  · exact read?_outside_tables (by simp [(passwordTable_perm _ _).length_eq]) (by simp) _ ho

/-! ## SUBENC and SUBDEC (42_substitution.md R260, R262, R264) -/

theorem substitute_of_tooLong {s : State} {i : Instr} (hi : isKeyCommand (some i) = false)
    (h : s.params.bufBytes < s.lenIn.toNat) (base : Nat) : substitute i base s = afterError .length s := by
  rw [substitute, if_pos ((inputTooLong_iff s).2 h), raiseError_plain (by rw [hi, Bool.false_and])]

theorem substitute_of_noTable {s : State} {i : Instr} (hi : isKeyCommand (some i) = false)
    (hin : s.lenIn.toNat ≤ s.params.bufBytes) (h : s.status.tableValid = false) (base : Nat) :
    substitute i base s = afterError .noTable s := by
  rw [substitute, if_neg (by rw [inputTooLong_iff]; omega), if_pos h, raiseError_plain (by rw [hi, Bool.false_and])]

/-- With defined entries the output is the entries, and only the input takes draws. -/
theorem substitute_of_entries {s : State} {base : Nat} {out : List Byte} (hin : s.lenIn.toNat ≤ s.params.bufBytes)
    (hvalid : s.status.tableValid = true) (hout : lookupCells s.mem base (inBytes s) = out.map some) (i : Instr) :
    substitute i base s = afterSuccess ((tookInput s).withOut out) := by
  rw [substitute, if_neg (by rw [inputTooLong_iff]; omega), if_neg (by rw [hvalid]; decide)]
  simp only [hout, settle_map_some, undefinedCount_map_some]
  rfl

theorem lookupCells_length {m : Memory} {base : Nat} {bs out : List Byte} (h : lookupCells m base bs = out.map some) :
    out.length = bs.length := by simpa [lookupCells] using (congrArg List.length h).symm

/-- An output whose length is the register value `n`, spelled out. -/
theorem withOut_of_length {bs : List Byte} {n : BitVec 16} (h : bs.length = n.toNat) (t : State) :
    t.withOut bs = { t with mem := t.mem.writeMany outBase bs, lenOut := n } := by
  rw [State.withOut, h, BitVec.ofNat_toNat, BitVec.setWidth_eq]

/-- The two commands are one lookup in different tables. -/
theorem exec_substitution {i : Instr} {base : Nat}
    (h : (i = .subenc ∧ base = fwdBase) ∨ (i = .subdec ∧ base = invBase)) (s : State) :
    exec i s = .next (substitute i base s) ∧ isKeyCommand (some i) = false := by
  rcases h with ⟨rfl, rfl⟩ | ⟨rfl, rfl⟩ <;> exact ⟨rfl, rfl⟩

/-- Settles O43: both commands are `substitute`, whose checks come in order before the lookup. -/
theorem substitutionLooksUpEachByte : Obligations.SubstitutionLooksUpEachByte := by
  refine ⟨by decide, by decide, fun s i base hi => ?_⟩
  obtain ⟨hexec, hplain⟩ := exec_substitution hi s
  rw [hexec]
  refine ⟨fun hlong => congrArg _ (substitute_of_tooLong hplain hlong base),
    fun hin hno => congrArg _ (substitute_of_noTable hplain hin hno base), fun out hin hvalid hout => ?_⟩
  have hlen : out.length = s.lenIn.toNat := (lookupCells_length hout).trans (inBytes_length s)
  rw [substitute_of_entries hin hvalid hout, withOut_of_length hlen]
  rfl

/-! ## The round trip (42_substitution.md R263) -/

/-- Every byte has an entry in FWD, whose entry in INV is the byte. -/
theorem exists_fwd_entry {m : Memory} (h : tablesInverse m) (b : Byte) :
    ∃ c : Byte, m.read? (fwdBase + b.toNat) = some c ∧ m.read? (invBase + c.toNat) = some b := by
  have hb := h b.toNat b.isLt
  rw [BitVec.ofNat_toNat, BitVec.setWidth_eq] at hb
  exact Option.bind_eq_some_iff.1 hb

/-- The FWD entries of a byte string are bytes whose INV entries are the byte string. -/
theorem lookupCells_roundTrip {m : Memory} (h : tablesInverse m) (bs : List Byte) :
    ∃ cs : List Byte, lookupCells m fwdBase bs = cs.map some ∧ lookupCells m invBase cs = bs.map some := by
  induction bs with
  | nil => exact ⟨[], rfl, rfl⟩
  | cons b bs ih =>
    obtain ⟨c, hc, hb⟩ := exists_fwd_entry h b
    obtain ⟨cs, hcs, hbs⟩ := ih
    exact ⟨c :: cs, congrArg₂ _ hc hcs, congrArg₂ _ hb hbs⟩

/-- Writes to the buffers leave the lookups in INV as they are. -/
theorem lookupCells_inv_buffers (m : Memory) (bs cs ds : List Byte) :
    lookupCells ((m.writeMany outBase bs).writeMany inBase cs) invBase ds = lookupCells m invBase ds := by
  obtain ⟨-, hinv, hin, hout⟩ := memory_places
  refine List.map_congr_left fun d _ => ?_
  have hd := d.isLt
  rw [read?_writeMany_out _ _ _ _ (.inl (by omega)), read?_writeMany_out _ _ _ _ (.inl (by omega))]

/-- Settles O44: SUBENC leaves the FWD entries in OUT, XFER moves them to IN, and SUBDEC finds the byte string. -/
theorem substitutionRoundTrip : Obligations.SubstitutionRoundTrip := by
  intro s m _ hvalid htable hm hfits
  obtain ⟨cipher, henc, hdec⟩ := lookupCells_roundTrip (htable hvalid) m
  have hmsg : m.length < 2 ^ 16 := hm.1 ▸ s.lenIn.isLt
  have hlen : cipher.length = m.length := lookupCells_length henc
  let t₁ := afterSuccess ((tookInput s).withOut cipher)
  let t₂ := afterSuccess (t₁.withIn cipher t₁.lenOut)
  have hout : outputIs t₁ cipher := outputIs_withOut (hlen.trans_lt hmsg) (tookInput s)
  have hin : inputIs t₂ cipher := inputIs_withIn hout.1 t₁
  have hsubenc : exec .subenc s = .next t₁ := congrArg _ <|
    substitute_of_entries (hm.1.trans_le hfits) hvalid (by rwa [(inBytes_of_inputIs hm).1]) .subenc
  have hentries : lookupCells t₂.mem invBase (inBytes t₂) = m.map some := by
    rw [(inBytes_of_inputIs hin).1, ← hdec]
    exact lookupCells_inv_buffers s.mem cipher cipher cipher
  have hsubdec : exec .subdec t₂ = .next (afterSuccess ((tookInput t₂).withOut m)) := congrArg _ <|
    substitute_of_entries ((hin.1.trans hlen).trans_le hfits) hvalid hentries .subdec
  exact ⟨t₁, t₂, _, hsubenc, exec_xfer_of_outputIs hout, hsubdec, rfl, rfl, rfl,
    outputIs_withOut hmsg (tookInput t₂)⟩

end Sys2Proof.Machine

namespace Sys2Proof.Machine

/-! # The block-cipher unit (43_block_cipher.md) -/

/-! ## The block cipher (43_block_cipher.md R290) -/

/-! ### DES as its permutations around its rounds -/

/-- IP on a block. -/
def desInitial (b : BitVec 64) : BitVec 64 := BitVec.ofNat 64 (permuteBits 64 desIP b.toNat)

/-- The inverse of IP on a block. -/
def desFinal (b : BitVec 64) : BitVec 64 := BitVec.ofNat 64 (permuteBits 64 desFP b.toNat)

/-- The halves (L, R) of a block. -/
def desSplit (b : BitVec 64) : BitVec 32 × BitVec 32 := (b.extractLsb' 32 32, b.extractLsb' 0 32)

/-- The block of two halves. -/
def desJoin (h : BitVec 32 × BitVec 32) : BitVec 64 := h.1 ++ h.2

theorem desCrypt_eq (keys : List (BitVec 48)) (b : BitVec 64) :
    desCrypt keys b = desFinal (desJoin (keys.foldl desRound (desSplit (desInitial b))).swap) := rfl

theorem toNat_desInitial (b : BitVec 64) : (desInitial b).toNat = permuteBits 64 desIP b.toNat :=
  (BitVec.toNat_ofNat ..).trans (Nat.mod_eq_of_lt (permuteBits_lt 64 desIP b.toNat))

theorem toNat_desFinal (b : BitVec 64) : (desFinal b).toNat = permuteBits 64 desFP b.toNat :=
  (BitVec.toNat_ofNat ..).trans (Nat.mod_eq_of_lt (permuteBits_lt 64 desFP b.toNat))

@[simp] theorem desFinal_desInitial (b : BitVec 64) : desFinal (desInitial b) = b :=
  BitVec.eq_of_toNat_eq (by rw [toNat_desFinal, toNat_desInitial, desFP_desIP b.isLt])

@[simp] theorem desInitial_desFinal (b : BitVec 64) : desInitial (desFinal b) = b :=
  BitVec.eq_of_toNat_eq (by rw [toNat_desInitial, toNat_desFinal, desIP_desFP b.isLt])

@[simp] theorem desSplit_desJoin (h : BitVec 32 × BitVec 32) : desSplit (desJoin h) = h :=
  Prod.ext BitVec.extractLsb'_append_eq_left BitVec.extractLsb'_append_eq_right

@[simp] theorem desJoin_desSplit (b : BitVec 64) : desJoin (desSplit b) = b :=
  (BitVec.extractLsb'_append_extractLsb'_eq_extractLsb' rfl).trans BitVec.extractLsb'_eq_self

/-- The rounds in reverse order, on the exchanged halves, undo the rounds. -/
theorem foldl_desRound_reverse (keys : List (BitVec 48)) (h : BitVec 32 × BitVec 32) :
    keys.reverse.foldl desRound (keys.foldl desRound h).swap = h.swap := by
  induction keys generalizing h with
  | nil => rfl
  | cons k ks ih =>
    rw [List.foldl_cons, List.reverse_cons, List.foldl_append, ih, List.foldl_cons, List.foldl_nil, desRound_swap]

/-- DES under the reversed key schedule undoes DES, whatever the round keys and the round function are. -/
theorem desCrypt_reverse (keys : List (BitVec 48)) (b : BitVec 64) : desCrypt keys.reverse (desCrypt keys b) = b := by
  rw [desCrypt_eq, desCrypt_eq, desInitial_desFinal, desSplit_desJoin, foldl_desRound_reverse, Prod.swap_swap,
    desJoin_desSplit, desFinal_desInitial]

/-! ### The inverse law -/

theorem blockDec_blockEnc (c : BlockCipher) (key block : BitVec 64) :
    blockDec c key (blockEnc c key block) = block := by
  cases c with
  | des => exact desCrypt_reverse (desKeys key) block
  | other id => exact (Config.otherCipher id key).symm_apply_apply block

theorem blockEnc_blockDec (c : BlockCipher) (key block : BitVec 64) :
    blockEnc c key (blockDec c key block) = block := by
  cases c with
  | des =>
    have h := desCrypt_reverse (desKeys key).reverse block
    rwa [List.reverse_reverse] at h
  | other id => exact (Config.otherCipher id key).apply_symm_apply block

/-- Settles O45: DES is undone by its reversed key schedule, and every other cipher is a permutation. -/
theorem blockDecInvertsBlockEnc : Obligations.BlockDecInvertsBlockEnc := fun c key block =>
  ⟨blockDec_blockEnc c key block, blockEnc_blockDec c key block⟩

/-! ## Padding (43_block_cipher.md R294) -/

theorem exists_padBytes_eq (m : List Byte) :
    ∃ n, 1 ≤ n ∧ n ≤ 8 ∧ padBytes m = m ++ List.replicate n (BitVec.ofNat 8 n) :=
  ⟨8 - m.length % 8, by omega, by omega, rfl⟩

theorem padBytes_length_mod (m : List Byte) : (padBytes m).length % 8 = 0 := by
  rw [padBytes_length]
  omega

theorem unpadBytes_padBytes (m : List Byte) : unpadBytes (padBytes m) = some m :=
  (unpadBytes_eq_some (by rw [padBytes_length]; omega)).2 (exists_padBytes_eq m)

/-- Settles O46: the padding is what unpadding looks for. -/
theorem blockPaddingRoundTrip : Obligations.BlockPaddingRoundTrip := fun m =>
  ⟨unpadBytes_padBytes m, padBytes_length_mod m, exists_padBytes_eq m⟩

/-! ## ECB mode (43_block_cipher.md R291, R293) -/

/-- Block `b` of the output depends on block `b` of the input only. -/
theorem ecbMap_block {bs : List Byte} {b : Nat} (h : b < bs.length / 8) (f : BitVec 64 → BitVec 64) :
    ((ecbMap f bs).drop (b * 8)).take 8 = bytesOfBlock (f (blockOfBytes ((bs.drop (b * 8)).take 8))) := by
  refine Option.some.inj ?_
  rw [← pieces_getElem? h, pieces_ecbMap, List.getElem?_map, pieces_getElem? h, Option.map_some]

theorem bytesOfBlock_getElem? (block : BitVec 64) {j : Nat} (hj : j < 8) :
    (bytesOfBlock block)[j]? = some (block.extractLsb' (56 - 8 * j) 8) := by
  rw [← blockOfBytes_extractLsb' (bytesOfBlock_length block) hj, blockOfBytes_bytesOfBlock]

/-- Settles O47: the blocks are the pieces of eight bytes. -/
theorem ecbActsBlockByBlock : Obligations.EcbActsBlockByBlock := by
  refine ⟨fun f bs b hb => ⟨ecbMap_length f bs, ?_⟩, fun block =>
    ⟨blockOfBytes_bytesOfBlock block, bytesOfBlock_length block, fun j hj => bytesOfBlock_getElem? block hj⟩⟩
  rw [Nat.mul_comm]
  exact ecbMap_block (by omega) f

/-- ECB mode with the inverse on each block gives whole blocks back. -/
theorem ecbMap_inverse {f g : BitVec 64 → BitVec 64} (h : ∀ b, g (f b) = b) {bs : List Byte}
    (hbs : bs.length % 8 = 0) : ecbMap g (ecbMap f bs) = bs := by
  rw [ecbMap_ecbMap, funext h, ecbMap_id hbs]

/-! ## ECBDEC (43_block_cipher.md R297, R298) -/

/-- The plaintext of ECBDEC before its padding is removed. -/
def ecbPlain (s : State) : List Byte := ecbMap (blockDec s.params.cipher (sessionKey s)) (inBytes s)

theorem ecbPlain_length {s : State} (h : s.lenIn.toNat % 8 = 0) : (ecbPlain s).length = s.lenIn.toNat := by
  rw [ecbPlain, ecbMap_length, inBytes_length]
  omega

theorem exec_ecbdec_of_tooLong {s : State} (h : s.params.bufBytes < s.lenIn.toNat) :
    exec .ecbdec s = .next (afterError .length s) := by
  rw [exec, execEcbdec, if_pos ((inputTooLong_iff s).2 h), raiseError_plain rfl]

theorem exec_ecbdec_of_badLength {s : State} (hin : s.lenIn.toNat ≤ s.params.bufBytes)
    (h : s.lenIn.toNat = 0 ∨ s.lenIn.toNat % 8 ≠ 0) : exec .ecbdec s = .next (afterError .blockLen s) := by
  have hbad : s.lenIn = 0 ∨ s.lenIn.toNat % 8 ≠ 0 := h.imp_left fun h0 => BitVec.eq_of_toNat_eq h0
  rw [exec, execEcbdec, if_neg (by rw [inputTooLong_iff]; omega), if_pos hbad, raiseError_plain rfl]

section Blocks
variable {s : State} (hin : s.lenIn.toNat ≤ s.params.bufBytes) (hne : s.lenIn.toNat ≠ 0)
  (hblocks : s.lenIn.toNat % 8 = 0)
include hin hne hblocks

/-- On whole blocks the completion is decided by the padding of the plaintext. -/
theorem exec_ecbdec_of_blocks : exec .ecbdec s = .next
    ((unpadBytes (ecbPlain s)).elim (raiseError (some .ecbdec) .padError (tookInput s)) fun m =>
      completeOk ((tookInput s).withOut m)) := by
  have hlen : ¬ (s.lenIn = 0 ∨ s.lenIn.toNat % 8 ≠ 0) := by
    rintro (h | h)
    · exact hne (congrArg BitVec.toNat h)
    · exact h hblocks
  rw [exec, execEcbdec, if_neg (by rw [inputTooLong_iff]; omega), if_neg hlen, ecbPlain]
  cases unpadBytes (ecbMap (blockDec s.params.cipher (sessionKey s)) (inBytes s)) <;> rfl

theorem exec_ecbdec_of_padError (h : unpadBytes (ecbPlain s) = none) :
    exec .ecbdec s = .next (afterError .padError (tookInput s)) := by
  rw [exec_ecbdec_of_blocks hin hne hblocks, h, Option.elim_none, raiseError_plain rfl]

theorem exec_ecbdec_of_padded {m : List Byte} (h : unpadBytes (ecbPlain s) = some m) :
    exec .ecbdec s = .next (afterSuccess ((tookInput s).withOut m)) := by
  rw [exec_ecbdec_of_blocks hin hne hblocks, h, Option.elim_some, completeOk_eq]

end Blocks

/-- Settles O49: along the checks of ECBDEC in order, with `unpadBytes_eq_some` for the padding. -/
theorem ecbdecDecryptsAndUnpads : Obligations.EcbdecDecryptsAndUnpads := by
  refine ⟨rfl, fun s => ⟨exec_ecbdec_of_tooLong, exec_ecbdec_of_badLength, fun hin hne hblocks => ?_⟩⟩
  have hlen := ecbPlain_length hblocks
  have hunpad {m : List Byte} := unpadBytes_eq_some (c := ecbPlain s) (m := m) (by omega)
  refine ⟨fun hnone => ?_, fun m n h1 h8 hplain => ?_⟩
  · refine exec_ecbdec_of_padError hin hne hblocks (Option.eq_none_iff_forall_ne_some.2 fun m hm => ?_)
    exact hnone ⟨m, hunpad.1 hm⟩
  · have hm : m.length = s.lenIn.toNat - n := by
      rw [← hlen, ecbPlain, hplain, List.length_append, List.length_replicate, Nat.add_sub_cancel]
    rw [exec_ecbdec_of_padded hin hne hblocks (hunpad.2 ⟨n, h1, h8, hplain⟩), State.withOut, hm, tookInput_eq]

/-! ## The round trip (43_block_cipher.md R299) -/

/-- The ciphertext of a byte string under a key: padded, then each block encrypted (43_block_cipher.md R295). -/
def ecbCipher (c : BlockCipher) (key : BitVec 64) (m : List Byte) : List Byte := ecbMap (blockEnc c key) (padBytes m)

theorem ecbCipher_length (c : BlockCipher) (key : BitVec 64) (m : List Byte) :
    (ecbCipher c key m).length = m.length + (8 - m.length % 8) := by
  rw [ecbCipher, ecbMap_length, padBytes_length]
  omega

/-- Decrypting the ciphertext and removing the padding gives the byte string. -/
theorem unpadBytes_ecbCipher (c : BlockCipher) (key : BitVec 64) (m : List Byte) :
    unpadBytes (ecbMap (blockDec c key) (ecbCipher c key m)) = some m := by
  rw [ecbCipher, ecbMap_inverse (blockDec_blockEnc c key) (padBytes_length_mod m), unpadBytes_padBytes]

/-- ECBENC of a byte string whose padding fits (43_block_cipher.md R295). -/
theorem exec_ecbenc_of_inputIs {s : State} {m : List Byte} (hm : inputIs s m)
    (hfits : m.length + (8 - m.length % 8) ≤ s.params.bufBytes) :
    exec .ecbenc s =
      .next (afterSuccess ((tookInput s).withOut (ecbCipher s.params.cipher (sessionKey s) m))) := by
  have hin : ¬ inputTooLong s = true := by rw [inputTooLong_iff, hm.1]; omega
  rw [exec, execEcbenc, if_neg hin, (inBytes_of_inputIs hm).1, if_neg (by rw [padBytes_length]; omega), completeOk_eq,
    ecbCipher]

/-- ECBDEC of the ciphertext of a byte string (43_block_cipher.md R297). -/
theorem exec_ecbdec_of_ecbCipher {t : State} {m : List Byte}
    (hin : inputIs t (ecbCipher t.params.cipher (sessionKey t) m))
    (hfits : m.length + (8 - m.length % 8) ≤ t.params.bufBytes) :
    exec .ecbdec t = .next (afterSuccess ((tookInput t).withOut m)) := by
  have hlen : t.lenIn.toNat = m.length + (8 - m.length % 8) := hin.1.trans (ecbCipher_length ..)
  refine exec_ecbdec_of_padded (by omega) (by omega) (by omega) ?_
  rw [ecbPlain, (inBytes_of_inputIs hin).1, unpadBytes_ecbCipher]

/-- Settles O50: ECBENC leaves the ciphertext in OUT, XFER moves it to IN, and ECBDEC undoes cipher and padding. -/
theorem ecbRoundTrip : Obligations.EcbRoundTrip := by
  intro s m hparams hm hfits
  let cipher := ecbCipher s.params.cipher (sessionKey s) m
  let t₁ := afterSuccess ((tookInput s).withOut cipher)
  let t₂ := afterSuccess (t₁.withIn cipher t₁.lenOut)
  have hcipher : cipher.length < 2 ^ 16 := by
    obtain ⟨-, -, -, -, -, hbuf⟩ := params_bounds hparams
    exact ((ecbCipher_length ..).trans_le hfits).trans_lt (by omega)
  have hout : outputIs t₁ cipher := outputIs_withOut hcipher (tookInput s)
  have hin : inputIs t₂ cipher := inputIs_withIn hout.1 t₁
  exact ⟨t₁, t₂, afterSuccess ((tookInput t₂).withOut m), exec_ecbenc_of_inputIs hm hfits,
    exec_xfer_of_outputIs hout, exec_ecbdec_of_ecbCipher hin hfits, rfl, rfl, rfl,
    outputIs_withOut (hm.1 ▸ s.lenIn.isLt) (tookInput t₂)⟩

end Sys2Proof.Machine

namespace Sys2Proof.Machine

/-! # Buffer transfer (44_transfer.md) -/

/-- Settles O51: the bytes XFER takes from OUT are defined, so it draws none, and its one write reaches IN only. -/
theorem xferCopiesOutToIn : Obligations.XferCopiesOutToIn := by
  refine ⟨rfl, fun s out _ _ hout => ⟨s.mem.writeMany inBase out, exec_xfer_of_outputIs hout, ?_, ?_⟩⟩
  · exact holdsBytes_writeMany s.mem inBase out
  · exact read?_writeMany_out s.mem inBase out

end Sys2Proof.Machine

namespace Sys2Proof.Machine

/-! # Acceptance, completion, interrupt (60_exceptions.md) -/

/-! ## Every command completes (60_exceptions.md R340, R352, R360) -/

/-- A command's effect leaves IRQ_EN and CMD (60_exceptions.md R352). -/
theorem Effect.keeps_control {i : Instr} {s u : State} (h : Effect i s u) : u.irqEn = s.irqEn ∧ u.cmd = s.cmd := by
  rcases h with ⟨-, v, -, rfl⟩ | ⟨-, n, p, q, e, key, -, -, -, -, rfl⟩ | ⟨-, n, a, rfl⟩ | ⟨n, bs, -, rfl⟩ |
    ⟨-, n, bs, -, rfl⟩
  all_goals exact ⟨rfl, rfl⟩

theorem irq_of_done {s : State} (h : s.status.done = true) : irq s = s.irqEn := by
  rw [irq, h, Bool.and_true]

/-- Settles O22: an error completion has its code, and a command's effect is followed by success. -/
theorem everyCommandCompletes : Obligations.EveryCommandCompletes := by
  intro i s
  rcases exec_cases i s with ⟨n, code, hcode, he⟩ | ⟨u, hu, he⟩
  · exact ⟨_, he, rfl, rfl, .inr ⟨rfl, hcode⟩, irq_of_done rfl, rfl, rfl⟩
  · obtain ⟨hirqEn, hcmd⟩ := hu.keeps_control
    exact ⟨_, he, rfl, rfl, .inl ⟨rfl, rfl⟩, (irq_of_done rfl).trans hirqEn, hirqEn, hcmd⟩

/-! ## What an error completion writes (60_exceptions.md R350) -/

theorem isKeyCommand_iff (i : Instr) : isKeyCommand (some i) = true ↔ i = .keygen ∨ i = .keyset := by
  cases i <;> simp [isKeyCommand]

theorem isConstructCode_iff (code : ErrCode) : isConstructCode code = true ↔ code = .config ∨ code = .keygen := by
  cases code <;> simp [isConstructCode]

theorem clearsKey_iff (i : Instr) (code : ErrCode) : (isKeyCommand (some i) && isConstructCode code) = true ↔
    (i = .keygen ∨ i = .keyset) ∧ (code = .config ∨ code = .keygen) := by
  rw [Bool.and_eq_true, isKeyCommand_iff, isConstructCode_iff]

/-- A command that ends with ERR = 1 ends with an error completion, beside the draws it took. -/
theorem exec_of_err {i : Instr} {s t : State} (h : exec i s = .next t) (herr : t.status.err = true) :
    ∃ n code, t = raiseError (some i) code (s.drawn n) := by
  rcases exec_cases i s with ⟨n, code, -, he⟩ | ⟨u, -, he⟩
  · exact ⟨n, code, Host.Outcome.next.inj (h.symm.trans he)⟩
  · obtain rfl := Host.Outcome.next.inj (h.symm.trans he)
    exact absurd herr Bool.false_ne_true

theorem raiseError_read?_out (i : Option Instr) (code : ErrCode) (s : State) {j : Nat} (h : j < s.params.bufBytes) :
    (raiseError i code s).mem.read? (outBase + j) = none :=
  (read?_clear ..).trans (if_pos (by omega))

theorem raiseError_read?_outside (i : Option Instr) (code : ErrCode) (s : State) {o : Nat}
    (h : o < outBase ∨ outBase + s.params.bufBytes ≤ o) : (raiseError i code s).mem.read? o = s.mem.read? o :=
  (read?_clear ..).trans (if_neg (by omega))

/-- Settles O23: an error completion clears OUT, and the key flags for a failed construction only. -/
theorem errorCompletionWritesOnlyItsList : Obligations.ErrorCompletionWritesOnlyItsList := by
  intro i s t hexec herr
  obtain ⟨n, code, rfl⟩ := exec_of_err hexec herr
  refine ⟨?_, fun hi hcode => ?_, fun j hj => raiseError_read?_out _ _ _ hj,
    fun o ho => raiseError_read?_outside _ _ _ ho⟩
  · by_cases hkey : (isKeyCommand (some i) && isConstructCode code) = true
    · exact .inr ⟨raiseError_key hkey _, (clearsKey_iff i code).1 hkey⟩
    · exact .inl (raiseError_plain (Bool.eq_false_of_not_eq_true hkey) _)
  · rw [raiseError_key ((clearsKey_iff i code).2 ⟨hi, hcode⟩)]
    exact ⟨rfl, rfl⟩

/-! ## Acceptance (60_exceptions.md R351, 10_state.md R39) -/

/-- Settles O21: acceptance takes one draw, for its waiting time, and leaves DONE clear, so that the interrupt is low. -/
theorem idleCmdWriteIsAccepted : Obligations.IdleCmdWriteIsAccepted := by
  intro s v hidle
  rw [hostWrite_cmd_of_idle hidle]
  exact ⟨rfl, Bool.and_false s.irqEn, rfl⟩

end Sys2Proof.Machine

namespace Sys2Proof.Machine

/-! # Reset, and the time a command takes (70_reset_and_hazards.md) -/

/-! ## Every accepted command completes (70_reset_and_hazards.md R430, 60_exceptions.md R352) -/

/-- The completion step of any word, legal or not, ends the command, and takes no arrival. -/
theorem completeWord_completes (w : Word) (s : State) :
    ∃ t, completeWord w s = .next t ∧ t.phase = .idle ∧ t.status.done = true ∧ t.cmd = s.cmd ∧ t.inputs = s.inputs := by
  obtain ⟨t, h⟩ := completeWord_next w s
  refine ⟨t, h, ?_⟩
  have hinputs := (completeWord_keepsOwnFields h).inputs_eq
  rcases completeWord_cases h with ⟨i, code, n, -, rfl⟩ | ⟨i, u, hu, rfl⟩
  · exact ⟨rfl, rfl, rfl, hinputs⟩
  · exact ⟨rfl, rfl, hu.keeps_control.2, hinputs⟩

/-- An arrival that a running command meets is taken without stopping the command, unless it resets the engine. -/
theorem handleEvent_keeps_running {s t : State} {ev : Event} (hbusy : s.isBusy = true)
    (hreset : resets s.params ev = false) (h : handleEvent ev s = .next t) :
    t.phase = s.phase ∧ t.cmd = s.cmd ∧ t.params = s.params ∧ t.inputs = s.inputs := by
  rw [busyArrivalsKeepTheInputs s t ev hbusy hreset h]
  exact ⟨rfl, rfl, rfl, rfl⟩

/-- One step of waiting takes the oldest arrival, if there is one, and leaves one step less to wait. -/
theorem step_waits {s : State} {w : Word} {n : Nat} (hphase : s.phase = .busy w (n + 1))
    (hfirst : ∀ ev ∈ s.inputs.head?, ev.wellFormed s.params = true ∧ resets s.params ev = false) :
    ∃ u, step s = .next u ∧ u.phase = .busy w n ∧ u.cmd = s.cmd ∧ u.params = s.params ∧
      u.inputs = s.inputs.tail := by
  rw [step_of_waiting hphase]
  cases hi : s.inputs with
  | nil => exact ⟨_, takeInput_of_nil rfl, rfl, rfl, rfl, rfl⟩
  | cons ev rest =>
    obtain ⟨hwf, hreset⟩ := hfirst ev (by rw [hi]; rfl)
    obtain ⟨u, hu⟩ := handleEvent_next (s := { s with phase := .busy w n, inputs := rest }) hwf
    obtain ⟨hph, hcmd, hparams, hinputs⟩ :=
      handleEvent_keeps_running (s := { s with phase := .busy w n, inputs := rest }) rfl hreset hu
    exact ⟨u, (takeInput_of_cons rfl).trans hu, hph, hcmd, hparams, hinputs⟩

/-- Settles O7, by induction on the waiting time: each step of it takes an arrival and leaves the command running. -/
theorem acceptedCommandCompletes : Obligations.AcceptedCommandCompletes := by
  intro s w n
  induction n generalizing s with
  | zero =>
    intro hphase _
    obtain ⟨t, ht, hidle, hdone, hcmd, hinputs⟩ := completeWord_completes w s
    have hstep : step s = .next t := (step_of_completing hphase).trans ht
    exact ⟨t, run_succ_of_next hstep 0, hidle, hdone, hcmd, hinputs⟩
  | succ n ih =>
    intro hphase hevents
    obtain ⟨u, hstep, hrunning, hcmd, hparams, hinputs⟩ := step_waits hphase fun ev hev =>
      hevents ev (List.mem_of_mem_head? (by rwa [List.head?_take, if_neg (Nat.succ_ne_zero n)]))
    have hrest : ∀ ev ∈ u.inputs.take n, ev.wellFormed u.params = true ∧ resets u.params ev = false := by
      intro ev hev
      have htail : (s.inputs.take (n + 1)).tail = u.inputs.take n := by
        rw [hinputs, List.tail_take_eq_take_tail, Nat.add_sub_cancel]
      rw [hparams]
      exact hevents ev (List.mem_of_mem_tail (htail ▸ hev))
    obtain ⟨t, hrun, hidle, hdone, hcmd', hinputs'⟩ := ih u hrunning hrest
    exact ⟨t, (run_succ_of_next hstep (n + 1)).trans hrun, hidle, hdone, hcmd'.trans hcmd,
      by rw [hinputs', hinputs, List.drop_tail]⟩

/-! ## What a reset leaves (70_reset_and_hazards.md R400, R401) -/

/-- The state after reset is what a hardware reset makes of it. -/
theorem hardwareReset_reset : State.reset.hardwareReset = State.reset := rfl

theorem hardwareReset_bigReg (s : State) (reg : BigReg) : s.hardwareReset.bigReg reg = 0 := by
  cases reg <;> rfl

/-- After a reset the interrupt is off, and STATUS and CTRL read 0. -/
theorem hardwareReset_control (s : State) :
    irq s.hardwareReset = false ∧ ctrlWord s.hardwareReset = 0 ∧ statusWord s.hardwareReset = 0 := by
  have hstatus : statusWord State.reset = 0 := by decide
  exact ⟨rfl, rfl, hstatus⟩

/-- After a reset no byte of the tables and the buffers is defined. -/
theorem hardwareReset_read? (s : State) (o : Nat) : s.hardwareReset.mem.read? o = none := read?_nil o

/-- Settles O16: both states are a hardware reset's, which writes every field to its reset value. -/
theorem resetState : Obligations.ResetState := by
  intro s t ht
  obtain ⟨u, rfl⟩ : ∃ u : State, t = u.hardwareReset := by
    rcases ht with rfl | rfl
    · exact ⟨State.reset, hardwareReset_reset.symm⟩
    · exact ⟨s, rfl⟩
  obtain ⟨hirq, hctrl, hstatus⟩ := hardwareReset_control u
  exact ⟨rfl, hirq, hctrl, hstatus, rfl, rfl, rfl, rfl, rfl, rfl, rfl, rfl, hardwareReset_bigReg u,
    hardwareReset_read? u, rfl, rfl, rfl, rfl⟩

/-! ## Every invariant holds in the reset state -/

/-- The default parameters are legal wherever the platform puts the window (00_scope.md R10). -/
theorem default_wellFormed : Params.default.wellFormed = true := by
  have hbase : Params.default.base % windowBytes = 0 := Nat.mul_mod_right windowBytes Config.baseIndex
  rw [Params.wellFormed, hbase]
  rfl

/-- Settles O52: memory is empty, the registers and LEN_OUT are 0, the flags are clear, and no command runs. -/
theorem invariantsHoldAtReset : Obligations.InvariantsHoldAtReset := by
  refine ⟨default_wellFormed, ⟨reset_wf, fun c hc => absurd hc List.not_mem_nil⟩, fun reg => ?_,
    outputInv_of_lenOut_zero rfl, fun hvalid => absurd hvalid Bool.false_ne_true, keyInv_of_no_key rfl rfl,
    ⟨iff_of_false Bool.false_ne_true (not_not.2 rfl), fun hbusy => absurd hbusy Bool.false_ne_true⟩,
    commandInv_of_idle rfl⟩
  rw [← hardwareReset_reset, hardwareReset_bigReg_toNat]
  exact Nat.two_pow_pos _

/-! ## The commands right after reset (70_reset_and_hazards.md R403) -/

theorem reset_input_fits : State.reset.lenIn.toNat ≤ State.reset.params.bufBytes := Nat.zero_le _

/-- Both buffers hold the empty byte string. -/
theorem reset_buffers_empty : inputIs State.reset [] ∧ outputIs State.reset [] :=
  ⟨⟨rfl, fun _ hj => absurd hj (Nat.not_lt_zero _)⟩, ⟨rfl, fun _ hj => absurd hj (Nat.not_lt_zero _)⟩⟩

/-- The codec has no key of its own after reset. -/
theorem codecError_reset_own {ks : KSel} (hks : ks = .priv ∨ ks = .pub) :
    codecError ks State.reset = some .noKey :=
  codecError_of_noKey reset_input_fits hks rfl

/-- The moduli M and PN of the other two key selects are 0 after reset. -/
theorem codecError_reset_other {ks : KSel} (hks : ks = .x ∨ ks = .peer) :
    codecError ks State.reset = some .domain := by
  have hpair : keySelect ks State.reset = .ok ((0 : Big).toNat, (0 : Big).toNat) := by
    rcases hks with rfl | rfl <;> rfl
  exact (codecError_of_pair reset_input_fits hpair).trans (codecCheck_of_zero BitVec.toNat_zero _)

/-- The substitution commands have no table after reset. -/
theorem exec_substitution_reset {i : Instr} {base : Nat}
    (hi : (i = .subenc ∧ base = fwdBase) ∨ (i = .subdec ∧ base = invBase)) :
    exec i State.reset = .next (afterError .noTable State.reset) := by
  obtain ⟨-, -, hsubst⟩ := substitutionLooksUpEachByte
  obtain ⟨-, hnoTable, -⟩ := hsubst State.reset i base hi
  exact hnoTable reset_input_fits rfl

/-- XFER of an empty output writes nothing that is not so already. -/
theorem exec_xfer_reset : exec .xfer State.reset = .next (afterSuccess State.reset) :=
  exec_xfer_of_outputIs reset_buffers_empty.2

/-- TDERIVE makes the tables of the empty password. -/
theorem exec_tderive_reset : ∃ t, exec .tderive State.reset = .next t ∧ t.status.err = false ∧
    t.status.tableValid = true ∧ t.lenOut = 0 :=
  ⟨_, exec_tderive_of_fits reset_input_fits, rfl, rfl, rfl⟩

/-- ECBENC of the empty byte string gives one block, all of it padding. -/
theorem exec_ecbenc_reset : ∃ t, exec .ecbenc State.reset = .next t ∧ t.status.err = false ∧ t.lenOut = 8 := by
  have hfits : ([] : List Byte).length + (8 - ([] : List Byte).length % 8) ≤ State.reset.params.bufBytes := by decide
  refine ⟨_, exec_ecbenc_of_inputIs reset_buffers_empty.1 hfits, rfl, ?_⟩
  exact congrArg (BitVec.ofNat 16) (ecbCipher_length _ _ [])

/-- Settles O24: each command meets the first of its checks that the reset values fail, or takes empty strings. -/
theorem commandsAfterReset : Obligations.CommandsAfterReset := by
  obtain ⟨-, hpowmod⟩ := powmodComputesThePower
  obtain ⟨-, hinvert⟩ := invertComputesTheInverse
  obtain ⟨-, hkeygen⟩ := keygenConstructsFromThreeDraws
  obtain ⟨hnoPrimes, -⟩ := hkeygen State.reset
  obtain ⟨hconfig, -⟩ := keysetReportsItsErrors State.reset
  have hkp : State.reset.kp.toNat < 2 := BitVec.toNat_zero.trans_lt Nat.two_pos
  obtain ⟨t, hecbenc, herr, hlen⟩ := exec_ecbenc_reset
  refine ⟨exec_substitution_reset (.inl ⟨rfl, rfl⟩), exec_substitution_reset (.inr ⟨rfl, rfl⟩),
    exec_encode_of_codecError (codecError_reset_own (.inl rfl)),
    exec_encode_of_codecError (codecError_reset_own (.inr rfl)),
    exec_decode_of_codecError (codecError_reset_own (.inl rfl)),
    exec_decode_of_codecError (codecError_reset_own (.inr rfl)),
    exec_encode_of_codecError (codecError_reset_other (.inl rfl)),
    exec_encode_of_codecError (codecError_reset_other (.inr rfl)),
    exec_decode_of_codecError (codecError_reset_other (.inl rfl)),
    exec_decode_of_codecError (codecError_reset_other (.inr rfl)),
    (hpowmod State.reset).1 rfl, (hinvert State.reset).1 rfl, hnoPrimes rfl, hconfig (.inl hkp),
    exec_ecbdec_of_badLength reset_input_fits (.inl rfl), exec_xfer_reset, exec_tderive_reset,
    ⟨t, hecbenc, herr, hlen, rfl⟩⟩

end Sys2Proof.Machine
